-- ==== Sys2Proof/Word.lean ====
section
/-! DEFINITION. The word types: what the spec treats as bits (00_scope.md R11). -/

namespace Sys2Proof

/-- A byte, 0x00..0xFF (00_scope.md R9 BYTE, R11). -/
abbrev Byte := BitVec 8

/-- A command word or a result word (30_encoding.md R320, R325). -/
abbrev Word := BitVec 32

/-- A 16-bit register value, index or DATA field (30_encoding.md R324, R325). -/
abbrev Half := BitVec 16

/-- The CH field: a channel number or a memory space number (30_encoding.md R322). -/
abbrev Nibble := BitVec 4

end Sys2Proof
end

