-- ==== Sys2Proof/Config.lean ====
section
/-! DEFINITION. What the spec fixes for this hardware (00_scope.md R9, R10) and the range of its two model
arguments. There is no free value: the spec leaves no register or result undefined after which the block goes on. -/

namespace Sys2Proof.Config

/-- START_MARKER (00_scope.md R9). -/
def startMarker : Byte := 0x02
/-- END_MARKER (00_scope.md R9). -/
def endMarker : Byte := 0x03
/-- ESCAPE (00_scope.md R9). -/
def escape : Byte := 0x10
/-- MIN_FRAME, in de-escaped bytes (00_scope.md R9, 30_encoding.md R309). -/
def minFrame : Nat := 5
/-- LEN_MAX (00_scope.md R9). -/
def lenMax : Nat := 255
/-- PBUF_CAP (00_scope.md R10). -/
def pbufCap : Nat := 255
/-- WBUF_CAP (00_scope.md R10). -/
def wbufCap : Nat := 515
/-- The default of the model argument N_CH (00_scope.md R10). -/
def nChDefault : Nat := 2
/-- The default of the model argument BUF_CAP (00_scope.md R10). -/
def bufCapDefault : Half := 515

/-- The ranges of the model arguments: N_CH in 1..8, BUF_CAP in 515..65535 (00_scope.md R10). -/
def legalParams (nCh bufCap : Nat) : Bool :=
  decide (1 ≤ nCh) && decide (nCh ≤ 8) && decide (515 ≤ bufCap) && decide (bufCap ≤ 65535)

end Sys2Proof.Config
end

