-- ==== Sys2Proof/Machine/State.lean ====
section
/-! DEFINITION. The state of the block as plain data (10_state.md R102, R103, R127), with the ports and the environment the
block is driven from (60_exceptions.md R630), and its value after power-on reset (70_reset_and_hazards.md R701 to R703). -/

namespace Sys2Proof.Machine

/-- ST: the phase of a channel's reader (10_state.md R116). The code 3 never occurs (log entry 10). -/
inductive Phase where
  | idle | active | done
  deriving DecidableEq, Repr

/-- RC: how the last read ended (10_state.md R117). The code 3 never occurs (log entry 10). -/
inductive ReadEnd where
  | none | frame | timeout
  deriving DecidableEq, Repr

/-- One receiver channel's registers (10_state.md R103). Its RBUF stands in `State.mem`. -/
structure Channel where
  /-- RX_CNT, the number of raw bytes held (R120). -/
  rxCnt     : Half
  /-- ESC, escape pending (R118). -/
  esc       : Bool
  /-- RX_ATT, the remaining timeout attempts (R122). -/
  rxAtt     : Half
  /-- ST (R116). -/
  phase     : Phase
  /-- RC (R117). -/
  readEnd   : ReadEnd
  /-- F_HINT (R119). -/
  fHint     : Bool
  /-- F_OVF (R119). -/
  fOvf      : Bool
  /-- F_RESYNC (R119). -/
  fResync   : Bool
  /-- RX_HINT (R123). -/
  rxHint    : Half
  /-- RX_HINT_CFG (R124). -/
  hintCfg   : Half
  /-- RX_NATT_CFG (R125). -/
  nattCfg   : Half
  deriving DecidableEq, Repr

/-- A channel after reset (70_reset_and_hazards.md R702). -/
def Channel.reset : Channel :=
  { rxCnt := 0, esc := false, rxAtt := 0, phase := .idle, readEnd := .none
    fHint := false, fOvf := false, fResync := false, rxHint := 0, hintCfg := 0, nattCfg := 0 }

/-- The byte spaces PBUF, WBUF, DBUF and RBUF[c] (20_memory.md R200) as one list of cells, addresses strictly rising. The
address of a byte is its space number times 65536 plus its index (log entry 11). An unlisted byte is UNDEF: it has
no value (00_scope.md R14). -/
abbrev Memory := List Host.Cell

/-- Addresses strictly rising: the canonical form. An unlisted address has no value, so no entry can repeat one. -/
def Memory.wf : Memory → Bool
  | [] => true
  | [_] => true
  | c :: d :: m => decide (c.1 < d.1) && Memory.wf (d :: m)

/-- What a channel's transport has to deliver: a byte of a read call that returned bytes, or a read call that returned
none (41_receiver.md, opening; D16). -/
inductive RxEvent where
  | byte (b : Byte)
  | empty
  deriving DecidableEq, Repr

/-- Who can offer a command word: the host, or the transport of one channel, whose CH is fixed by the wiring
(60_exceptions.md R630, R631). -/
inductive Agent where
  | host
  | transport (c : Nibble)
  deriving DecidableEq, Repr

/-- What happens in one step: the power-on reset input is asserted (70_reset_and_hazards.md R700), or the arbiter picks
an agent (60_exceptions.md R630). -/
inductive Turn where
  | rst
  | grant (a : Agent)
  deriving DecidableEq, Repr

/-- The whole machine. The fields from `plen` to `chans` are the block's state (10_state.md R102, R103); `result` is its
result port; `hostQueue`, `transports` and `schedule` stand outside the block (10_state.md R127). -/
structure State where
  /-- PLEN (R105). -/
  plen       : Byte
  /-- WLEN, 0..515 (R106). -/
  wlen       : BitVec 10
  /-- DLEN (R107). -/
  dlen       : Half
  /-- DSTAT: STATUS [7:0], DVALID [8] (R108). -/
  dstat      : BitVec 9
  /-- DFIELD: LEN [7:0], CHK [15:8] (R109). -/
  dfield     : Half
  /-- CSUM_R (R110). -/
  csumR      : Byte
  /-- FATAL, sticky (R111). -/
  fatal      : Bool
  /-- BUF_CAP, read as BUFCAP (R113); a model argument no operation changes (log entry 1). -/
  bufCap     : Half
  /-- PBUF, WBUF, DBUF and every RBUF[c] (20_memory.md R200). -/
  mem        : Memory
  /-- The N_CH receiver channels in order; NCH (R112) is their number (log entry 1). -/
  chans      : List Channel
  /-- The result word of the last step (30_encoding.md R325), none when it took no command word (log entry 2). -/
  result     : Option Word
  /-- The host's command words not yet taken, in the order it issued them (20_memory.md R214; log entry 4). -/
  hostQueue  : List Word
  /-- For each channel, what its transport has not yet delivered, in order (10_state.md R127; log entry 4). -/
  transports : List (List RxEvent)
  /-- The arbiter's coming choices and the rst input (60_exceptions.md R630; log entry 3). -/
  schedule   : List Turn
  deriving DecidableEq, Repr

/-- Why a run stops. -/
inductive Fault where
  /-- An operation read an UNDEF byte: one not written since reset (00_scope.md R14, I1). Raised by MRD of PBUF or WBUF, ENC,
  CSUM and DECW; by RRD of RX_STATE, RXB, DECR and MRD of DBUF or RBUF only in states no run reaches (20_memory.md R204).
  Safe: the spec gives the operation no result and asks for a fault. -/
  | undefByte
  deriving DecidableEq, Repr

/-- Why an instruction has no meaning. No arm of `exec` answers with it. -/
inductive Refusal where
  /-- The instruction is not modelled yet; raised by exec's arm alone. Safe: nothing is claimed of it. -/
  | notModelled (mnemonic : String)
  deriving DecidableEq, Repr

/-- The machine after power-on reset with N_CH = `nCh` and BUF_CAP = `cap` (70_reset_and_hazards.md R701 to R703), nothing
offered at its ports. -/
def State.powerOn (nCh : Nat) (cap : Half) : State :=
  { plen := 0, wlen := 0, dlen := 0, dstat := 0x0FF, dfield := 0, csumR := 0, fatal := false
    bufCap := cap, mem := [], chans := List.replicate nCh Channel.reset
    result := none, hostQueue := [], transports := List.replicate nCh [], schedule := [] }

/-- The machine after reset, the model arguments at their defaults (00_scope.md R10; log entry 1). -/
def State.reset : State := State.powerOn Config.nChDefault Config.bufCapDefault

end Sys2Proof.Machine
end

