-- ==== Sys2Proof/Machine/Ops.lean ====
section
/-! DEFINITION. The named operations over memory, registers, channels and the result port. The block has no traps and no
exception entry or return (60_exceptions.md R600, R620, R621): what stands in their place is ONE shared operation, `finish`,
which places the result word, and `raise`, which places a failing status with DATA = 0. -/

namespace Sys2Proof.Machine

/-! ### Memory -/

/-- The byte at an address, none where it is UNDEF (00_scope.md R13 MemRead, R14). -/
def Memory.read : Memory → Nat → Option Byte
  | [], _ => none
  | c :: m, a => if c.1 = a then some c.2 else Memory.read m a

/-- The memory with one byte written (00_scope.md R13 MemWrite); keeps the addresses strictly rising. -/
def Memory.write : Memory → Nat → Byte → Memory
  | [], a, b => [(a, b)]
  | c :: m, a, b =>
    if a < c.1 then (a, b) :: c :: m
    else if a = c.1 then (a, b) :: m
    else c :: Memory.write m a b

/-- The `n` bytes from address `a` on, none if one of them is UNDEF (00_scope.md R14). -/
def Memory.readList (m : Memory) : Nat → Nat → Option (List Byte)
  | _, 0 => some []
  | a, n + 1 =>
    match Memory.read m a, Memory.readList m (a + 1) n with
    | some b, some bs => some (b :: bs)
    | _, _ => none

/-- The memory with a list of bytes written from address `a` on. -/
def Memory.writeList : Memory → Nat → List Byte → Memory
  | m, _, [] => m
  | m, a, b :: bs => Memory.writeList (Memory.write m a b) (a + 1) bs

/-- The address of index `idx` of space `sp` (20_memory.md R200; log entry 11). -/
def spaceAddr (sp idx : Nat) : Nat := sp * 65536 + idx

/-- PBUF[i] is at `pbufAddr i`: space 0 (20_memory.md R200, R201). -/
def pbufAddr (i : Nat) : Nat := spaceAddr 0 i
/-- WBUF[i] is at `wbufAddr i`: space 1 (R200, R202). -/
def wbufAddr (i : Nat) : Nat := spaceAddr 1 i
/-- DBUF[i] is at `dbufAddr i`: space 2 (R200, R203). -/
def dbufAddr (i : Nat) : Nat := spaceAddr 2 i
/-- RBUF[c][i] is at `rbufAddr c i`: space 8 + c (R200, R204). -/
def rbufAddr (c i : Nat) : Nat := spaceAddr (8 + c) i

/-! ### Status codes and the result word -/

/-- The conditions of 60_exceptions.md R601. -/
inductive Status where
  | ok | frameTooShort | checksumMismatch | frameMalformed | timeoutExhausted | encodeInputInvalid
  | encodeSelfCheckFailed | unknownCommand | illegalOp | notReady | busy | rangeError | halted | noDecode
  deriving DecidableEq, Repr

/-- The code of each condition (60_exceptions.md R601). `unknownCommand` is the dispatcher's (R614), `timeoutExhausted` is only
recorded in RC (R605) and `noDecode` is the None of DSTAT after reset (R613): none of the three is a result status. -/
def Status.code : Status → Byte
  | .ok => 0x00
  | .frameTooShort => 0x01
  | .checksumMismatch => 0x02
  | .frameMalformed => 0x03
  | .timeoutExhausted => 0x04
  | .encodeInputInvalid => 0x05
  | .encodeSelfCheckFailed => 0x06
  | .unknownCommand => 0x07
  | .illegalOp => 0x08
  | .notReady => 0x09
  | .busy => 0x0A
  | .rangeError => 0x0B
  | .halted => 0x0C
  | .noDecode => 0xFF

/-- STATUS [7:0], DATA [23:8], zero [31:24] (30_encoding.md R325). -/
def resultWord (st : Status) (data : Half) : Word := (0 : Byte) ++ data ++ st.code

/-- The outcome of a step of this machine. -/
abbrev Outcome := Host.Outcome State Fault Refusal

/-- The state with a word on the result port. -/
def State.putResult (s : State) (w : Word) : State := { s with result := some w }

/-- `result(S, d)`: the operation ends and its result word carries STATUS = S, DATA = d (00_scope.md R13). -/
def finish (st : Status) (data : Half) (s : State) : Outcome := .next (s.putResult (resultWord st data))

/-- `raise S` means `result(S, 0)` (00_scope.md R13). -/
def raise (st : Status) (s : State) : Outcome := finish st 0 s

/-! ### Named updates -/

/-- The state with another memory. -/
def State.putMem (s : State) (m : Memory) : State := { s with mem := m }

/-- Channel `c`, none when c >= N_CH (30_encoding.md R322). -/
def State.chan? (s : State) (c : Nibble) : Option Channel := s.chans[c.toNat]?

/-- The state with channel `c` replaced. -/
def State.putChan (s : State) (c : Nibble) (ch : Channel) : State :=
  { s with chans := s.chans.set c.toNat ch }

/-! ### Reset -/

/-- Reset of the block (70_reset_and_hazards.md R700 to R703), shared by `rst` and RESET: every register at its reset value, the
memories UNDEF. NCH and BUFCAP do not change (R701). What stands outside the block survives (42_access.md R504). -/
def State.resetBlock (s : State) : State :=
  { State.powerOn s.chans.length s.bufCap with
    result := s.result, hostQueue := s.hostQueue, transports := s.transports, schedule := s.schedule }

end Sys2Proof.Machine
end

