-- ==== Sys2Proof/Machine/Operands.lean ====
section
/-! DEFINITION. Operand forms: what a CH field names as a memory space (20_memory.md R200) and what a B field names as a
register (10_state.md R104). -/

namespace Sys2Proof.Machine

/-- The memory spaces (20_memory.md R200). -/
inductive Space where
  | pbuf | wbuf | dbuf
  /-- RBUF[c], space number 8 + c. -/
  | rbuf (c : Nibble)
  /-- Numbers 3 to 7. -/
  | reserved
  deriving DecidableEq, Repr

/-- The space a number names (20_memory.md R200). Whether channel c of an RBUF exists is tested where it is used. -/
def spaceOf (sp : Nibble) : Space :=
  if sp = 0 then .pbuf
  else if sp = 1 then .wbuf
  else if sp = 2 then .dbuf
  else if 8 ≤ sp.toNat then .rbuf (sp - 8)
  else .reserved

/-- How many indices of a space MRD may read, none for a reserved space or an absent channel (20_memory.md R200, 42_access.md
R500). -/
def State.readLimit (s : State) : Space → Option Nat
  | .pbuf => some Config.pbufCap
  | .wbuf => some Config.wbufCap
  | .dbuf => some s.dlen.toNat
  | .rbuf c => (s.chan? c).map (fun ch => ch.rxCnt.toNat)
  | .reserved => none

/-- How many indices of a space MWR may write: PBUF and WBUF only (20_memory.md R200, 42_access.md R501). -/
def writeLimit : Space → Option Nat
  | .pbuf => some Config.pbufCap
  | .wbuf => some Config.wbufCap
  | .dbuf | .rbuf _ | .reserved => none

/-- The global registers (10_state.md R104). -/
inductive GlobalReg where
  | plen | wlen | dlen | dstat | dfield | csumR | fatal | nch | bufcap
  deriving DecidableEq, Repr

/-- The per-channel registers (10_state.md R104). -/
inductive ChanReg where
  | rxState | rxCnt | rxAtt | rxHint | rxHintCfg | rxNattCfg
  deriving DecidableEq, Repr

/-- What a register number names. -/
inductive RegName where
  | global (r : GlobalReg)
  | chan (r : ChanReg)
  deriving DecidableEq, Repr

/-- The number of a register (10_state.md R104). -/
def RegName.number : RegName → Byte
  | .global .plen => 0x00
  | .global .wlen => 0x01
  | .global .dlen => 0x02
  | .global .dstat => 0x03
  | .global .dfield => 0x04
  | .global .csumR => 0x05
  | .global .fatal => 0x06
  | .global .nch => 0x07
  | .global .bufcap => 0x08
  | .chan .rxState => 0x10
  | .chan .rxCnt => 0x11
  | .chan .rxAtt => 0x12
  | .chan .rxHint => 0x13
  | .chan .rxHintCfg => 0x14
  | .chan .rxNattCfg => 0x15

/-- The register map, in the order of the table of 10_state.md R104. -/
def allRegs : List RegName :=
  [ .global .plen, .global .wlen, .global .dlen, .global .dstat, .global .dfield, .global .csumR, .global .fatal
  , .global .nch, .global .bufcap
  , .chan .rxState, .chan .rxCnt, .chan .rxAtt, .chan .rxHint, .chan .rxHintCfg, .chan .rxNattCfg ]

/-- The register a number names, none for an unassigned number (10_state.md R104). -/
def regOf (n : Byte) : Option RegName := allRegs.find? (fun r => r.number == n)

end Sys2Proof.Machine
end

