-- ==== Sys2Proof/Machine/Flags.lean ====
section
/-! DEFINITION. Every flag computation: the scanner class a byte has and what it does to ESC (40_codec.md R402), STARTED
(10_state.md R121), the packing of RX_STATE (R115), DSTAT (R108) and DFIELD (R109), F_HINT (41_receiver.md R456). -/

namespace Sys2Proof.Machine

/-- One bit as a 16-bit value. -/
def bit (b : Bool) : Half := (BitVec.ofBool b).setWidth 16

/-- The classes of 40_codec.md R402. -/
inductive ByteClass where
  | len | start | literal | esc | endMark | data
  deriving DecidableEq, Repr

/-- The class of byte `b` about to take position `k` (40_codec.md R402); the first condition that holds decides. -/
def cls (k : Nat) (started e : Bool) (b : Byte) : ByteClass :=
  if k = 1 ∧ started = true then .len
  else if k = 0 ∧ b = Config.startMarker then .start
  else if e = true then .literal
  else if b = Config.escape then .esc
  else if b = Config.endMarker then .endMark
  else .data

/-- What a class does to the escape-pending bit: ESC sets it, LITERAL clears it, the others leave it (40_codec.md R402). -/
def escAfter (cl : ByteClass) (e : Bool) : Bool :=
  match cl with
  | .esc => true
  | .literal => false
  | .len | .start | .endMark | .data => e

/-- STARTED[c] = (RX_CNT[c] >= 1) and (RBUF[c][0] == 0x02) (10_state.md R121); none if RBUF[c][0] is to be read and is UNDEF,
which no reachable state allows (20_memory.md R204; log entry 8). -/
def State.started? (s : State) (c : Nibble) (ch : Channel) : Option Bool :=
  if ch.rxCnt = 0 then some false
  else (Memory.read s.mem (rbufAddr c.toNat 0)).map (fun b => b == Config.startMarker)

/-- The code of ST (10_state.md R116). -/
def Phase.code : Phase → Half
  | .idle => 0
  | .active => 1
  | .done => 2

/-- The code of RC (10_state.md R117). -/
def ReadEnd.code : ReadEnd → Half
  | .none => 0
  | .frame => 1
  | .timeout => 2

/-- RX_STATE = ST | RC<<2 | ESC<<4 | STARTED<<5 | F_HINT<<6 | F_OVF<<7 | F_RESYNC<<8 (10_state.md R115, 42_access.md R502). -/
def rxStateValue (ch : Channel) (started : Bool) : Half :=
  ch.phase.code ||| (ch.readEnd.code <<< 2) ||| (bit ch.esc <<< 4) ||| (bit started <<< 5)
    ||| (bit ch.fHint <<< 6) ||| (bit ch.fOvf <<< 7) ||| (bit ch.fResync <<< 8)

/-- DSTAT of a decode with status `st`: STATUS in [7:0], DVALID in [8], 1 exactly for OK (10_state.md R108, 40_codec.md
R405). -/
def dstatOf (st : Status) : BitVec 9 := BitVec.ofBool (st == .ok) ++ st.code

/-- DSTAT.STATUS (10_state.md R108). -/
def State.dstatus (s : State) : Byte := s.dstat.extractLsb' 0 8

/-- DSTAT.DVALID (10_state.md R108, R114). -/
def State.dvalid (s : State) : Bool := s.dstat.getLsbD 8

/-- DFIELD: LEN in [7:0], CHK in [15:8] (10_state.md R109). -/
def dfieldOf (len chk : Byte) : Half := chk ++ len

/-- F_HINT at completion: RX_CNT differs from RX_HINT (41_receiver.md R456). -/
def hintMismatch (ch : Channel) : Bool := ch.rxCnt != ch.rxHint

end Sys2Proof.Machine
end

