-- ==== Sys2Proof/Machine/Codec.lean ====
section
/-! DEFINITION. The codec's primitive functions (40_codec.md R400 to R406): pure functions of their arguments. -/

namespace Sys2Proof.Machine

/-- `l[i..j]`, both ends inclusive, empty when j < i (00_scope.md R12). -/
def slice (l : List Byte) (i j : Nat) : List Byte := (l.drop i).take (j + 1 - i)

/-- The escape function (40_codec.md R400). -/
def esc (b : Byte) : List Byte :=
  if b = Config.endMarker ∨ b = Config.escape then [Config.escape, b] else [b]

/-- checksum(L, p) = (L + sum(p)) mod 256 (40_codec.md R401): addition of bytes wraps modulo 256. -/
def checksum (len : Byte) (p : List Byte) : Byte := p.foldl (fun acc b => acc + b) len

/-- The un-escape scan of 40_codec.md R403 from position `k` on, with the escape-pending bit `e`. -/
def scanFrom (started : Bool) : Nat → Bool → List Byte → List Byte × Option Nat
  | _, _, [] => ([], none)
  | k, e, b :: bs =>
    match cls k started e b with
    | .esc => scanFrom started (k + 1) true bs
    | .endMark => ([b], some k)
    | cl =>
      let r := scanFrom started (k + 1) (escAfter cl e) bs
      (b :: r.1, r.2)

/-- `scan(raw)`: the de-escaped list and the raw index of the end marker (40_codec.md R403). -/
def scan (raw : List Byte) : List Byte × Option Nat :=
  scanFrom (raw.head? == some Config.startMarker) 0 false raw

/-- `validate(raw)`: the first check that fails decides (40_codec.md R404). LEN is in no check but the checksum (R417), so a frame
with LEN = 0 and five or more de-escaped bytes passes where its checksum does, against 30_encoding.md R301 and 90_conflicts.md
C3: the model follows R404's pseudocode (log entry 18). -/
def validate (raw : List Byte) : Status :=
  let de := (scan raw).1
  let n := de.length
  if n < Config.minFrame then .frameTooShort
  else if raw.head? ≠ some Config.startMarker then .frameMalformed
  else if (scan raw).2 ≠ some (raw.length - 1) then .frameMalformed
  else if some (checksum 0 (slice de 1 (n - 3))) ≠ de[n - 2]? then .checksumMismatch
  else .ok

/-- `build(p)`: the wire frame and its checksum (40_codec.md R406). -/
def build (p : List Byte) : List Byte × Byte :=
  let len := BitVec.ofNat 8 p.length
  let c := checksum len p
  ([Config.startMarker, len] ++ p.flatMap esc ++ esc c ++ [Config.endMarker], c)

/-- ENC's self-check of the frame `w` it built for `p`: it validates and gives its payload back (40_codec.md R407). -/
def selfCheck (p w : List Byte) : Bool :=
  let de := (scan w).1
  decide (validate w = .ok) && decide (slice de 2 (de.length - 3) = p)

end Sys2Proof.Machine
end

