-- ==== Sys2Proof/Machine/CodecOps.lean ====
section
/-! DEFINITION. The codec operations ENC, DECW, DECR and CSUM (40_codec.md R405, R407 to R410). -/

namespace Sys2Proof.Machine

/-- PBUF[0..PLEN-1], none if a byte of it is UNDEF (20_memory.md R201). -/
def State.payload? (s : State) : Option (List Byte) := Memory.readList s.mem (pbufAddr 0) s.plen.toNat

/-- WBUF[0..WLEN-1], none if a byte of it is UNDEF (20_memory.md R202). -/
def State.wire? (s : State) : Option (List Byte) := Memory.readList s.mem (wbufAddr 0) s.wlen.toNat

/-- RBUF[c][0..RX_CNT[c]-1] (20_memory.md R204). -/
def State.raw? (s : State) (c : Nibble) (ch : Channel) : Option (List Byte) :=
  Memory.readList s.mem (rbufAddr c.toNat 0) ch.rxCnt.toNat

/-- DBUF[0..DLEN-1] (20_memory.md R203). -/
def State.decoded? (s : State) : Option (List Byte) := Memory.readList s.mem (dbufAddr 0) s.dlen.toNat

/-- ENC failed its self-check: FATAL = 1 and WLEN = 0, and nothing else (40_codec.md R407, 60_exceptions.md R607). The branch is
kept as written and is unreachable (R413; log entry 9). -/
def encFail (s : State) : Outcome :=
  raise .encodeSelfCheckFailed { s with fatal := true, wlen := 0 }

/-- ENC passed its self-check: WBUF[0..len(w)-1], WLEN and CSUM_R (40_codec.md R407). -/
def encCommit (w : List Byte) (c : Byte) (s : State) : Outcome :=
  finish .ok (BitVec.ofNat 16 w.length)
    { s with mem := Memory.writeList s.mem (wbufAddr 0) w, wlen := BitVec.ofNat 10 w.length, csumR := c }

/-- The end of ENC, once it has built the frame `w` with checksum `c` from the payload `p` (40_codec.md R407). -/
def encFinish (p w : List Byte) (c : Byte) (s : State) : Outcome :=
  if selfCheck p w = true then encCommit w c s else encFail s

/-- ENC (40_codec.md R407). -/
def execEnc (s : State) : Outcome :=
  if s.fatal = true then raise .halted s
  else if s.plen = 0 then raise .encodeInputInvalid s
  else match s.payload? with
    | none => .fault .undefByte
    | some p => encFinish p (build p).1 (build p).2 s

/-- The registers and DBUF after an OK decode with de-escaped list `de` (40_codec.md R405). -/
def decodeOk (de : List Byte) (s : State) : Outcome :=
  finish .ok (BitVec.ofNat 16 de.length)
    { s with
      mem := Memory.writeList s.mem (dbufAddr 0) de
      dstat := dstatOf .ok
      dlen := BitVec.ofNat 16 de.length
      dfield := dfieldOf (de.getD 1 0) (de.getD (de.length - 2) 0) }

/-- The registers after a failing decode: nothing partial is readable (40_codec.md R405). -/
def decodeFail (st : Status) (s : State) : Outcome :=
  raise st { s with dstat := dstatOf st, dlen := 0, dfield := 0 }

/-- `decode_commit(raw)` (40_codec.md R405). -/
def decodeCommit (raw : List Byte) (s : State) : Outcome :=
  if validate raw = .ok then decodeOk (scan raw).1 s else decodeFail (validate raw) s

/-- DECW (40_codec.md R408). -/
def execDecw (s : State) : Outcome :=
  match s.wire? with
  | none => .fault .undefByte
  | some raw => decodeCommit raw s

/-- DECR c (40_codec.md R409). -/
def execDecr (c : Nibble) (s : State) : Outcome :=
  match s.chan? c with
  | none => raise .rangeError s
  | some ch =>
    if ch.phase = .active then raise .busy s
    else match s.raw? c ch with
      | none => .fault .undefByte
      | some raw => decodeCommit raw s

/-- CSUM (40_codec.md R410). -/
def execCsum (s : State) : Outcome :=
  match s.payload? with
  | none => .fault .undefByte
  | some p =>
    let c := checksum s.plen p
    finish .ok (c.setWidth 16) { s with csumR := c }

end Sys2Proof.Machine
end

