-- ==== Sys2Proof/Machine/Access.lean ====
section
/-! DEFINITION. The host access operations MRD, MWR, RRD, RWR and RESET (42_access.md R500 to R504). -/

namespace Sys2Proof.Machine

/-- MRD space, idx (42_access.md R500). -/
def execMrd (sp : Nibble) (idx : Half) (s : State) : Outcome :=
  match s.readLimit (spaceOf sp) with
  | none => raise .rangeError s
  | some n =>
    if n ≤ idx.toNat then raise .rangeError s
    else match Memory.read s.mem (spaceAddr sp.toNat idx.toNat) with
      | none => .fault .undefByte
      | some v => finish .ok (v.setWidth 16) s

/-- MWR space, idx, byte (42_access.md R501). -/
def execMwr (sp : Nibble) (idx : Half) (b : Byte) (s : State) : Outcome :=
  match writeLimit (spaceOf sp) with
  | none => raise .rangeError s
  | some n =>
    if n ≤ idx.toNat then raise .rangeError s
    else finish .ok 0 (s.putMem (Memory.write s.mem (spaceAddr sp.toNat idx.toNat) b))

/-- The value of a global register, zero-extended to 16 bits (10_state.md R104 to R113). -/
def State.globalValue (s : State) : GlobalReg → Half
  | .plen => s.plen.setWidth 16
  | .wlen => s.wlen.setWidth 16
  | .dlen => s.dlen
  | .dstat => s.dstat.setWidth 16
  | .dfield => s.dfield
  | .csumR => s.csumR.setWidth 16
  | .fatal => bit s.fatal
  | .nch => BitVec.ofNat 16 s.chans.length
  | .bufcap => s.bufCap

/-- The value of a register of channel `c`, none where RX_STATE would read an UNDEF byte (10_state.md R104, R115 to R125). -/
def State.chanValue? (s : State) (c : Nibble) (ch : Channel) : ChanReg → Option Half
  | .rxState => (s.started? c ch).map (rxStateValue ch)
  | .rxCnt => some ch.rxCnt
  | .rxAtt => some ch.rxAtt
  | .rxHint => some ch.rxHint
  | .rxHintCfg => some ch.hintCfg
  | .rxNattCfg => some ch.nattCfg

/-- RRD reg, c (42_access.md R502). A global register ignores c. -/
def execRrd (reg : Byte) (c : Nibble) (s : State) : Outcome :=
  match regOf reg with
  | none => raise .rangeError s
  | some (.global r) => finish .ok (s.globalValue r) s
  | some (.chan r) =>
    match s.chan? c with
    | none => raise .rangeError s
    | some ch =>
      match s.chanValue? c ch r with
      | none => .fault .undefByte
      | some v => finish .ok v s

/-- RWR to a register of channel `c`: RX_HINT_CFG and RX_NATT_CFG only (42_access.md R503). -/
def writeChanReg (r : ChanReg) (v : Half) (c : Nibble) (s : State) : Outcome :=
  match s.chan? c with
  | none => raise .rangeError s
  | some ch =>
    match r with
    | .rxHintCfg => finish .ok 0 (s.putChan c { ch with hintCfg := v })
    | .rxNattCfg => finish .ok 0 (s.putChan c { ch with nattCfg := v })
    | .rxState | .rxCnt | .rxAtt | .rxHint => raise .rangeError s

/-- RWR to a global register: PLEN up to 255 and WLEN up to 515 only (42_access.md R503, 10_state.md R105, R106). -/
def writeGlobalReg (r : GlobalReg) (v : Half) (s : State) : Outcome :=
  match r with
  | .plen => if Config.lenMax < v.toNat then raise .rangeError s else finish .ok 0 { s with plen := v.setWidth 8 }
  | .wlen => if Config.wbufCap < v.toNat then raise .rangeError s else finish .ok 0 { s with wlen := v.setWidth 10 }
  | .dlen | .dstat | .dfield | .csumR | .fatal | .nch | .bufcap => raise .rangeError s

/-- RWR reg, value, c (42_access.md R503). -/
def execRwr (reg : Byte) (v : Half) (c : Nibble) (s : State) : Outcome :=
  match regOf reg with
  | none => raise .rangeError s
  | some (.global r) => writeGlobalReg r v s
  | some (.chan r) => writeChanReg r v c s

/-- RESET (42_access.md R504). -/
def execReset (s : State) : Outcome := finish .ok 0 s.resetBlock

end Sys2Proof.Machine
end

