-- ==== Sys2Proof/Machine/Receiver.lean ====
section
/-! DEFINITION. The receiver operations RDSTART, RXB and RXE (41_receiver.md R450 to R457). -/

namespace Sys2Proof.Machine

/-- The channel after an accepted RDSTART: a fresh session, the configuration latched, ended at once when the attempt
budget is 0 (41_receiver.md R452). -/
def Channel.beginRead (ch : Channel) : Channel :=
  { ch with
    rxCnt := 0, esc := false, fHint := false, fOvf := false, fResync := false
    rxAtt := ch.nattCfg, rxHint := ch.hintCfg
    phase := if ch.nattCfg = 0 then .done else .active
    readEnd := if ch.nattCfg = 0 then .timeout else .none }

/-- RDSTART c (41_receiver.md R452). -/
def execRdstart (c : Nibble) (s : State) : Outcome :=
  match s.chan? c with
  | none => raise .rangeError s
  | some ch =>
    if ch.phase = .active then raise .busy s
    else finish .ok 0 (s.putChan c ch.beginRead)

/-- `resync(c)` on the channel's registers (41_receiver.md R453). -/
def Channel.resynced (ch : Channel) : Channel := { ch with rxCnt := 1, esc := false, fResync := true }

/-- `resync(c)`: the buffer is cleared and restarted at the start marker (41_receiver.md R453). -/
def rxResync (c : Nibble) (ch : Channel) (s : State) : State :=
  (s.putMem (Memory.write s.mem (rbufAddr c.toNat 0) Config.startMarker)).putChan c ch.resynced

/-- `overflow(c)` (41_receiver.md R454). -/
def Channel.overflowed (ch : Channel) : Channel := { ch with rxCnt := 0, esc := false, fOvf := true }

/-- `complete(c)` (41_receiver.md R456). -/
def Channel.completed (ch : Channel) : Channel :=
  { ch with phase := .done, readEnd := .frame, fHint := hintMismatch ch }

/-- The channel's registers after a byte of class `cl` is appended (41_receiver.md R455). -/
def Channel.appended (ch : Channel) (cl : ByteClass) : Channel :=
  let ch' := { ch with rxCnt := ch.rxCnt + 1, esc := escAfter cl ch.esc }
  if cl = .endMark then ch'.completed else ch'

/-- The rest of RXB after resync and overflow: classify and append (41_receiver.md R455). -/
def rxAppend (c : Nibble) (ch : Channel) (started : Bool) (b : Byte) (s : State) : State :=
  (s.putMem (Memory.write s.mem (rbufAddr c.toNat ch.rxCnt.toNat) b)).putChan c
    (ch.appended (cls ch.rxCnt.toNat started ch.esc b))

/-- A byte accepted by an ACTIVE channel whose STARTED condition is `started` (41_receiver.md R455): resync first (R453), then
overflow (R454), then append. -/
def rxAccept (c : Nibble) (ch : Channel) (started : Bool) (b : Byte) (s : State) : State :=
  if b = Config.startMarker ∧ ch.rxCnt ≠ 0 ∧ started = false then rxResync c ch s
  else if ch.rxCnt = s.bufCap then rxAppend c ch.overflowed false b s
  else rxAppend c ch started b s

/-- RXB c, b (41_receiver.md R455). -/
def execRxb (c : Nibble) (b : Byte) (s : State) : Outcome :=
  match s.chan? c with
  | none => raise .rangeError s
  | some ch =>
    if ch.phase ≠ .active then raise .notReady s
    else match s.started? c ch with
      | none => .fault .undefByte
      | some started => finish .ok 0 (rxAccept c ch started b s)

/-- One attempt spent; the read ends when none is left (41_receiver.md R457). -/
def Channel.emptyRead (ch : Channel) : Channel :=
  let ch' := { ch with rxAtt := ch.rxAtt - 1 }
  if ch'.rxAtt = 0 then { ch' with phase := .done, readEnd := .timeout } else ch'

/-- RXE c (41_receiver.md R457). -/
def execRxe (c : Nibble) (s : State) : Outcome :=
  match s.chan? c with
  | none => raise .rangeError s
  | some ch =>
    if ch.phase ≠ .active then raise .notReady s
    else finish .ok 0 (s.putChan c ch.emptyRead)

end Sys2Proof.Machine
end

