-- ==== Sys2Proof/Syntax.lean ====
section
/-! DEFINITION. The operations of the block: one constructor per row of spec/opcode_table.json (30_encoding.md
R326). Operands are the raw unsigned fields of the command word (R322 to R324, R331), each at its exact width: a
number the spec leaves unassigned (a register, a space, an absent channel) is a legal word that raises RangeError when it
executes, so it must be representable here. -/

namespace Sys2Proof

/-- A command word's operation and operands. -/
inductive Instr where
  /-- ENC: encode PBUF[0..PLEN-1] into WBUF (40_codec.md R407). -/
  | enc
  /-- DECW: decode the wire frame in WBUF (R408). -/
  | decw
  /-- DECR c: decode the raw bytes of channel c (R409). -/
  | decr (c : Nibble)
  /-- CSUM: checksum of PBUF[0..PLEN-1] (R410). -/
  | csum
  /-- RDSTART c: begin one ReadFrame (41_receiver.md R452). -/
  | rdstart (c : Nibble)
  /-- RXB c, b: the transport of channel c delivers one byte (R455). -/
  | rxb (c : Nibble) (b : Byte)
  /-- RXE c: one read call of channel c's transport returned no byte (R457). -/
  | rxe (c : Nibble)
  /-- MRD space, idx: read one byte of a memory space (42_access.md R500). -/
  | mrd (space : Nibble) (idx : Half)
  /-- MWR space, idx, b: write one byte of PBUF or WBUF (R501). -/
  | mwr (space : Nibble) (idx : Half) (b : Byte)
  /-- RRD reg, c: read a register (R502). -/
  | rrd (reg : Byte) (c : Nibble)
  /-- RWR reg, value, c: write a writable register (R503). -/
  | rwr (reg : Byte) (value : Half) (c : Nibble)
  /-- RESET: soft reset of the whole block (R504). -/
  | reset
  deriving DecidableEq, Repr

end Sys2Proof
end

