-- ==== Sys2Proof/Machine/Dispatch.lean ====
section
/-! DEFINITION. One arm per constructor of `Instr`, each one direct call of its meaning. -/

namespace Sys2Proof.Machine

def exec (i : Instr) (s : State) : Host.Outcome State Fault Refusal :=
  match i with
  | .enc => Sys2Proof.Machine.execEnc s
  | .decw => Sys2Proof.Machine.execDecw s
  | .decr c => Sys2Proof.Machine.execDecr c s
  | .csum => Sys2Proof.Machine.execCsum s
  | .rdstart c => Sys2Proof.Machine.execRdstart c s
  | .rxb c b => Sys2Proof.Machine.execRxb c b s
  | .rxe c => Sys2Proof.Machine.execRxe c s
  | .mrd sp idx => Sys2Proof.Machine.execMrd sp idx s
  | .mwr sp idx b => Sys2Proof.Machine.execMwr sp idx b s
  | .rrd reg c => Sys2Proof.Machine.execRrd reg c s
  | .rwr reg v c => Sys2Proof.Machine.execRwr reg v c s
  | .reset => Sys2Proof.Machine.execReset s

end Sys2Proof.Machine
end

