-- ==== Sys2Proof/WellFormed.lean ====
section
/-! DEFINITION. Which command words are legal, read straight off spec/opcode_table.json: "a word is legal for a row exactly
when (word & mask) == match" (30_encoding.md R327). It stands apart from the decoder, which is written from the field map of
R326, so that one can be held against the other. Every term of `Instr` is well formed by its types (each operand has the
exact width of its field), so the check that can fail is this one, on words; the model arguments have
`Config.legalParams`. -/

namespace Sys2Proof

/-- One row of spec/opcode_table.json in mask/match form (30_encoding.md R327). -/
structure OpRow where
  mnemonic : String
  pattern  : Word
  mask     : Word
  deriving DecidableEq, Repr

/-- The twelve rows of spec/opcode_table.json, in its order. -/
def opcodeTable : List OpRow :=
  [ ⟨"ENC",     0x00000001, 0xFFFFFFFF⟩
  , ⟨"DECW",    0x00000002, 0xFFFFFFFF⟩
  , ⟨"DECR",    0x00000102, 0xFFFFFF0F⟩
  , ⟨"CSUM",    0x00000003, 0xFFFFFFFF⟩
  , ⟨"RDSTART", 0x00000004, 0xFFFFFF0F⟩
  , ⟨"RXB",     0x00000005, 0xFFFF000F⟩
  , ⟨"RXE",     0x00000006, 0xFFFFFF0F⟩
  , ⟨"MRD",     0x00000007, 0x0000FF0F⟩
  , ⟨"MWR",     0x00000008, 0x0000000F⟩
  , ⟨"RRD",     0x00000009, 0xFFFF000F⟩
  , ⟨"RWR",     0x0000000A, 0x0000000F⟩
  , ⟨"RESET",   0x0000000F, 0xFFFFFFFF⟩ ]

/-- A word is legal for a row exactly when (word & mask) == match (30_encoding.md R327). -/
def OpRow.accepts (r : OpRow) (w : Word) : Bool := (w &&& r.mask) == r.pattern

/-- A word some row of the table accepts; every other word raises IllegalOp (30_encoding.md R327 to R329). -/
def legalWord (w : Word) : Bool := opcodeTable.any (fun r => r.accepts w)

end Sys2Proof
end

