-- ==== Sys2Proof/Decode.lean ====
section
/-! DEFINITION. The decoder, written from the opcode map of 30_encoding.md R326, total on every 32-bit word and rejecting by
name, and after it the encoder, written from the word column of R332. A command word is a parallel 32-bit value that
is never stored in a byte space, so it has no byte order (20_memory.md R207). -/

namespace Sys2Proof

/-- OP, bits [3:0] (30_encoding.md R320, R321). -/
def fieldOp (w : Word) : Nibble := w.extractLsb' 0 4
/-- CH, bits [7:4] (30_encoding.md R320, R322). -/
def fieldCh (w : Word) : Nibble := w.extractLsb' 4 4
/-- B, bits [15:8] (30_encoding.md R320, R323). -/
def fieldB (w : Word) : Byte := w.extractLsb' 8 8
/-- IDX, bits [31:16] (30_encoding.md R320, R324). -/
def fieldIdx (w : Word) : Half := w.extractLsb' 16 16

/-- Why a word is illegal. The block reports each of them as IllegalOp (30_encoding.md R327, R328). -/
inductive Illegal where
  /-- The opcodes 0x0 and 0xB to 0xE (R328). -/
  | reservedOp
  /-- A field that R326 marks "must be zero" is not 0 (R327). -/
  | mustBeZero
  /-- OP = 0x2 with a B that is neither 0x00 nor 0x01 (R327). -/
  | badSubOp
  deriving DecidableEq, Repr

/-- An instruction whose must-be-zero fields pass the test, or the rejection (30_encoding.md R327). -/
def mbz (ok : Bool) (i : Instr) : Except Illegal Instr :=
  if ok then .ok i else .error .mustBeZero

/-- OP = 0x2: B = 0 is DECW with CH = IDX = 0, B = 1 is DECR with IDX = 0, any other B is illegal (30_encoding.md
R326, R327). -/
def decodeOp2 (ch : Nibble) (b : Byte) (idx : Half) : Except Illegal Instr :=
  if b = 0 then mbz (ch = 0 && idx = 0) .decw
  else if b = 1 then mbz (idx = 0) (.decr ch)
  else .error .badSubOp

/-- The opcode map over the four fields (30_encoding.md R326 to R328). -/
def decodeFields (op ch : Nibble) (b : Byte) (idx : Half) : Except Illegal Instr :=
  match op.toNat with
  | 0x1 => mbz (ch = 0 && b = 0 && idx = 0) .enc
  | 0x2 => decodeOp2 ch b idx
  | 0x3 => mbz (ch = 0 && b = 0 && idx = 0) .csum
  | 0x4 => mbz (b = 0 && idx = 0) (.rdstart ch)
  | 0x5 => mbz (idx = 0) (.rxb ch b)
  | 0x6 => mbz (b = 0 && idx = 0) (.rxe ch)
  | 0x7 => mbz (b = 0) (.mrd ch idx)
  | 0x8 => .ok (.mwr ch idx b)
  | 0x9 => mbz (idx = 0) (.rrd b ch)
  | 0xA => .ok (.rwr b idx ch)
  | 0xF => mbz (ch = 0 && b = 0 && idx = 0) .reset
  | _   => .error .reservedOp

/-- The decoder. Every command word is exactly 32 bits and no mode changes its meaning (30_encoding.md R329, R330). -/
def decode (w : Word) : Except Illegal Instr :=
  decodeFields (fieldOp w) (fieldCh w) (fieldB w) (fieldIdx w)

/-- word = IDX<<16 | B<<8 | CH<<4 | OP (30_encoding.md R320). -/
def assemble (op ch : Nibble) (b : Byte) (idx : Half) : Word := idx ++ b ++ ch ++ op

/-- The command word of an instruction: the word column of 30_encoding.md R332. -/
def encode : Instr → Word
  | .enc         => assemble 0x1 0 0 0
  | .decw        => assemble 0x2 0 0 0
  | .decr c      => assemble 0x2 c 1 0
  | .csum        => assemble 0x3 0 0 0
  | .rdstart c   => assemble 0x4 c 0 0
  | .rxb c b     => assemble 0x5 c b 0
  | .rxe c       => assemble 0x6 c 0 0
  | .mrd sp i    => assemble 0x7 sp 0 i
  | .mwr sp i b  => assemble 0x8 sp b i
  | .rrd r c     => assemble 0x9 c r 0
  | .rwr r v c   => assemble 0xA c r v
  | .reset       => assemble 0xF 0 0 0

/-- The word of a table row given as a number of `nbits` bits, every bit above them 0. -/
def tableWord (nbits w : Nat) : Word := BitVec.ofNat 32 (w % 2 ^ nbits)

/-- What the decoder reads from the table word `w` of `nbits` bits: none where it refuses. -/
def decodeTableWord (nbits w : Nat) : Option Instr :=
  match decode (tableWord nbits w) with
  | .ok i    => some i
  | .error _ => none

end Sys2Proof
end

