-- ==== Sys2Proof/Machine/Ports.lean ====
section
/-! DEFINITION. The ports: which command word each agent offers, what happens to it once taken, the output lines, and
what a step does when no word is taken (60_exceptions.md R616, R630, R631; 41_receiver.md R451; 70_reset_and_hazards.md R700). -/

namespace Sys2Proof.Machine

/-- The command word of a channel event, its CH fixed by the wiring (60_exceptions.md R631). -/
def RxEvent.word (c : Nibble) : RxEvent → Word
  | .byte b => encode (.rxb c b)
  | .empty => encode (.rxe c)

/-- The events channel `c`'s transport has still to deliver; an absent channel has no transport. -/
def State.pending (s : State) (c : Nibble) : List RxEvent :=
  if c.toNat < s.chans.length then s.transports.getD c.toNat [] else []

/-- The word an agent has ready: its first one, in its own order (20_memory.md R214, 60_exceptions.md R630). -/
def State.offered (s : State) : Agent → Option Word
  | .host => s.hostQueue.head?
  | .transport c => (s.pending c).head?.map (RxEvent.word c)

/-- STATUS of the word on the result port (30_encoding.md R325). -/
def State.resultStatus (s : State) : Option Byte := s.result.map (fun w => w.extractLsb' 0 8)

/-- A byte offered by an RXB that raised NotReady is not consumed; an RXE is dropped (41_receiver.md R451). -/
def notConsumed (e : RxEvent) (s : State) : Bool :=
  match e with
  | .byte _ => s.resultStatus == some Status.notReady.code
  | .empty => false

/-- The state after the agent's word was executed: the word leaves the agent's queue, but for a byte of a transport that is
not consumed, which stays first (41_receiver.md R451; log entry 5). -/
def State.retire (a : Agent) (s : State) : State :=
  match a with
  | .host => { s with hostQueue := s.hostQueue.tail }
  | .transport c =>
    match s.pending c with
    | [] => s
    | e :: es => if notConsumed e s = true then s else { s with transports := s.transports.set c.toNat es }

/-- The first turn of the schedule is over. -/
def State.nextTurn (s : State) : State := { s with schedule := s.schedule.tail }

/-- A step that takes no command word: the block keeps all its state (60_exceptions.md R628) and there is no result word. -/
def State.idle (s : State) : State := { s with result := none }

/-- A step with `rst` asserted: reset, and no command word is taken (70_reset_and_hazards.md R700). -/
def State.powerReset (s : State) : State := s.resetBlock.idle

/-- An illegal word raises IllegalOp and changes no state (30_encoding.md R327, R328, 60_exceptions.md R608). -/
def illegalOp (s : State) : Outcome := raise .illegalOp s

/-- The rest of a turn granted to agent `a`, once its word gave the outcome `o`. -/
def endTurn (a : Agent) (o : Outcome) : Outcome :=
  match o with
  | .next t => .next (t.retire a).nextTurn
  | .fault f => .fault f
  | .refused r => .refused r

/-- rx_ready[c] = (ST[c] == ACTIVE) (41_receiver.md R451). -/
def State.rxReady (s : State) (c : Nibble) : Bool :=
  match s.chan? c with
  | some ch => ch.phase == .active
  | none => false

/-- rx_done[c] = (ST[c] == DONE), a level output (60_exceptions.md R616). -/
def State.rxDone (s : State) (c : Nibble) : Bool :=
  match s.chan? c with
  | some ch => ch.phase == .done
  | none => false

/-- The state with `w` offered first by the host and the arbiter's next choice the host: the very next step takes `w`. -/
def State.offerHost (s : State) (w : Word) : State :=
  { s with hostQueue := w :: s.hostQueue, schedule := .grant .host :: s.schedule }

end Sys2Proof.Machine
end

