-- ==== Sys2Proof/Machine/Turn.lean ====
section
/-! DEFINITION. What one turn of the schedule does (60_exceptions.md R630; 70_reset_and_hazards.md R700). -/

namespace Sys2Proof.Machine

/-- A command word executed by the block, legal or not (30_encoding.md R329). -/
def execWord (w : Word) (s : State) : Outcome :=
  match decode w with
  | .ok i => exec i s
  | .error _ => illegalOp s

/-- A turn granted to agent `a`: its word if it has one ready, else no word is taken (log entry 13). -/
def grantTurn (a : Agent) (s : State) : Outcome :=
  match s.offered a with
  | some w => endTurn a (execWord w s)
  | none => .next s.nextTurn.idle

/-- One turn: the arbiter takes one command word and the block executes it as one atomic step (00_scope.md R15), or `rst` is
asserted. -/
def takeTurn (t : Turn) (s : State) : Outcome :=
  match t with
  | .rst => .next s.nextTurn.powerReset
  | .grant a => grantTurn a s

end Sys2Proof.Machine
end

