-- ==== Sys2Proof/Machine/Step.lean ====
section
/-! DEFINITION. One step of the machine: the first turn of the schedule, or, when the schedule is over, a step that takes no
command word (log entry 3). -/

namespace Sys2Proof.Machine

def step (s : State) : Host.Outcome State Fault Refusal :=
  match s.schedule with
  | [] => .next s.idle
  | t :: _ => takeTurn t s

/-- The state in which the very next step takes the table word `w` of `nbits` bits from the host (log entry 4). -/
def State.withFetchWord (s : State) (nbits w : Nat) : State := s.offerHost (tableWord nbits w)

end Sys2Proof.Machine
end

