-- ==== Sys2Proof/Machine/Assembler.lean ====
section
/-! DEFINITION. The textual form of command words (30_encoding.md R332) and the pseudo-instructions (R333), with
the agent that offers each of them. What R332 and R333 leave open (spaces, letter case, comments, out-of-range numbers, empty or
too long byte lists) is log entry 16. -/

namespace Sys2Proof.Machine

/-- The outcome of several operations, each an atomic step, in order. -/
def execAll : List Instr → State → Outcome
  | [], s => .next s
  | i :: is, s =>
    match exec i s with
    | .next t => execAll is t
    | .fault f => .fault f
    | .refused r => .refused r

/-- One line of a program: an operation, a raw word, or a pseudo-instruction (30_encoding.md R332, R333). -/
inductive AsmLine where
  | op (i : Instr)
  /-- `.WORD n` -/
  | rawWord (w : Word)
  /-- `LOADP b0, ..., bk-1` -/
  | loadp (bs : List Byte)
  /-- `LOADW b0, ..., bk-1` -/
  | loadw (bs : List Byte)
  /-- `RXS c, b0, ..., bk-1`: events of channel c's port -/
  | rxs (c : Nibble) (bs : List Byte)
  /-- `RXEN c, k`: events of channel c's port -/
  | rxen (c : Nibble) (k : Nat)
  /-- `RDCFG c, hint, n` -/
  | rdcfg (c : Nibble) (hint n : Half)
  deriving DecidableEq, Repr

/-- MWR of a list of bytes to a space, from index `i` on. -/
def storeBytes (sp : Nibble) : Nat → List Byte → List Instr
  | _, [] => []
  | i, b :: bs => .mwr sp (BitVec.ofNat 16 i) b :: storeBytes sp (i + 1) bs

/-- `RWR reg, v, c` by the register's name (30_encoding.md R332). -/
def rwrOf (r : RegName) (v : Half) (c : Nibble) : Instr := .rwr r.number v c

/-- LOADP: `MWR 0, 0, b0; ...; MWR 0, k-1, bk-1; RWR PLEN, k` (30_encoding.md R333). -/
def expandLoadp (bs : List Byte) : List Instr :=
  storeBytes 0 0 bs ++ [rwrOf (.global .plen) (BitVec.ofNat 16 bs.length) 0]

/-- LOADW: `MWR 1, 0, b0; ...; MWR 1, k-1, bk-1; RWR WLEN, k` (30_encoding.md R333). -/
def expandLoadw (bs : List Byte) : List Instr :=
  storeBytes 1 0 bs ++ [rwrOf (.global .wlen) (BitVec.ofNat 16 bs.length) 0]

/-- RXS: `RXB c, b0; ...; RXB c, bk-1` (30_encoding.md R333). -/
def expandRxs (c : Nibble) (bs : List Byte) : List Instr := bs.map (fun b => .rxb c b)

/-- RXEN: k copies of `RXE c` (30_encoding.md R333). -/
def expandRxen (c : Nibble) (k : Nat) : List Instr := List.replicate k (.rxe c)

/-- RDCFG: `RWR RX_HINT_CFG, hint, c; RWR RX_NATT_CFG, n, c` (30_encoding.md R333). -/
def expandRdcfg (c : Nibble) (hint n : Half) : List Instr :=
  [rwrOf (.chan .rxHintCfg) hint c, rwrOf (.chan .rxNattCfg) n c]

/-- The command words a line stands for, in order (30_encoding.md R332, R333). -/
def AsmLine.words : AsmLine → List Word
  | .op i => [encode i]
  | .rawWord w => [w]
  | .loadp bs => (expandLoadp bs).map encode
  | .loadw bs => (expandLoadw bs).map encode
  | .rxs c bs => (expandRxs c bs).map encode
  | .rxen c k => (expandRxen c k).map encode
  | .rdcfg c h n => (expandRdcfg c h n).map encode

/-! ### Who offers a line's words -/

/-- What one agent offers: a word on the host port, or an event on channel `c`'s port (60_exceptions.md R630, R631). -/
inductive Offer where
  | host (w : Word)
  | port (c : Nibble) (e : RxEvent)
  deriving DecidableEq, Repr

/-- The agent that makes an offer (60_exceptions.md R630). -/
def Offer.agent : Offer → Agent
  | .host _ => .host
  | .port c _ => .transport c

/-- The command word the arbiter takes from an offer (60_exceptions.md R631). -/
def Offer.word : Offer → Word
  | .host w => w
  | .port c e => e.word c

/-- What a line offers, in order. RXS and RXEN stand for events on channel c's port, not for host words (30_encoding.md R333); every
other line is host words, an RXB or RXE line a loopback injection (60_exceptions.md R631). -/
def AsmLine.offers : AsmLine → List Offer
  | .op i => [.host (encode i)]
  | .rawWord w => [.host w]
  | .loadp bs => (expandLoadp bs).map (fun i => .host (encode i))
  | .loadw bs => (expandLoadw bs).map (fun i => .host (encode i))
  | .rxs c bs => bs.map (fun b => .port c (.byte b))
  | .rxen c k => List.replicate k (.port c .empty)
  | .rdcfg c h n => (expandRdcfg c h n).map (fun i => .host (encode i))

/-- The state with an offer last in its agent's order (20_memory.md R214). A channel that does not exist has no port, so an offer there
reaches no one (60_exceptions.md R630; log entry 16). -/
def State.offer (s : State) (o : Offer) : State :=
  match o with
  | .host w => { s with hostQueue := s.hostQueue ++ [w] }
  | .port c e => { s with transports := s.transports.modify c.toNat (fun es => es ++ [e]) }

/-- The state with a line's offers made and the arbiter to take them one by one in the line's order. -/
def State.offerLine (s : State) (l : AsmLine) : State :=
  let t := l.offers.foldl State.offer s
  { t with schedule := s.schedule ++ l.offers.map (fun o => .grant o.agent) }

/-! ### Text -/

/-- The pieces of a text between commas. -/
def splitCommas : List Char → List (List Char)
  | [] => [[]]
  | ch :: cs =>
    if ch = ',' then [] :: splitCommas cs
    else match splitCommas cs with
      | [] => [[ch]]
      | p :: ps => (ch :: p) :: ps

/-- A text without its leading spaces. -/
def trimLeft (cs : List Char) : List Char := cs.dropWhile (fun ch => ch == ' ')

/-- A text without its leading and trailing spaces. -/
def trim (cs : List Char) : List Char := (trimLeft (trimLeft cs).reverse).reverse

/-- The value of a digit below `base`. -/
def digitValue (base : Nat) (ch : Char) : Option Nat :=
  let n := ch.toNat
  let v :=
    if 48 ≤ n ∧ n ≤ 57 then n - 48
    else if 65 ≤ n ∧ n ≤ 70 then n - 55
    else if 97 ≤ n ∧ n ≤ 102 then n - 87
    else base
  if v < base then some v else none

/-- The number a non-empty run of digits stands for. -/
def digits (base : Nat) : Nat → List Char → Option Nat
  | acc, [] => some acc
  | acc, ch :: cs =>
    match digitValue base ch with
    | some v => digits base (acc * base + v) cs
    | none => none

/-- A decimal or `0x` hexadecimal number (30_encoding.md R332). -/
def number : List Char → Option Nat
  | [] => none
  | '0' :: 'x' :: ch :: cs => digits 16 0 (ch :: cs)
  | cs => digits 10 0 cs

/-- A number that fits in `w` bits. -/
def field (w : Nat) (cs : List Char) : Option (BitVec w) :=
  match number cs with
  | some n => if n < 2 ^ w then some (BitVec.ofNat w n) else none
  | none => none

/-- The fields of a list of operands, none if one of them does not fit. -/
def fields (w : Nat) : List (List Char) → Option (List (BitVec w))
  | [] => some []
  | cs :: rest =>
    match field w cs, fields w rest with
    | some b, some bs => some (b :: bs)
    | _, _ => none

/-- The name of a register (10_state.md R104). -/
def RegName.text : RegName → String
  | .global .plen => "PLEN"
  | .global .wlen => "WLEN"
  | .global .dlen => "DLEN"
  | .global .dstat => "DSTAT"
  | .global .dfield => "DFIELD"
  | .global .csumR => "CSUM_R"
  | .global .fatal => "FATAL"
  | .global .nch => "NCH"
  | .global .bufcap => "BUFCAP"
  | .chan .rxState => "RX_STATE"
  | .chan .rxCnt => "RX_CNT"
  | .chan .rxAtt => "RX_ATT"
  | .chan .rxHint => "RX_HINT"
  | .chan .rxHintCfg => "RX_HINT_CFG"
  | .chan .rxNattCfg => "RX_NATT_CFG"

/-- A register operand is a name from 10_state.md R104 (30_encoding.md R332). -/
def register (cs : List Char) : Option RegName := allRegs.find? (fun r => r.text.toList == cs)

/-- The bytes of a pseudo-instruction: at least one (30_encoding.md R333; log entry 16). -/
def byteList (ops : List (List Char)) : Option (List Byte) :=
  if ops = [] then none else fields 8 ops

/-- The bytes of LOADP or LOADW: their number is the value of an RWR, so it fits in 16 bits (30_encoding.md R333; log entry 16). -/
def countedBytes (ops : List (List Char)) : Option (List Byte) :=
  if 65535 < ops.length then none else byteList ops

/-- One line with its mnemonic and its operands (30_encoding.md R332, R333). -/
def parseLine (m : String) (ops : List (List Char)) : Option AsmLine :=
  match m, ops with
  | "ENC", [] => some (.op .enc)
  | "DECW", [] => some (.op .decw)
  | "DECR", [c] => (field 4 c).map (fun c => .op (.decr c))
  | "CSUM", [] => some (.op .csum)
  | "RDSTART", [c] => (field 4 c).map (fun c => .op (.rdstart c))
  | "RXB", [c, b] => (field 4 c).bind (fun c => (field 8 b).map (fun b => .op (.rxb c b)))
  | "RXE", [c] => (field 4 c).map (fun c => .op (.rxe c))
  | "MRD", [sp, i] => (field 4 sp).bind (fun sp => (field 16 i).map (fun i => .op (.mrd sp i)))
  | "MWR", [sp, i, b] =>
    (field 4 sp).bind (fun sp => (field 16 i).bind (fun i => (field 8 b).map (fun b => .op (.mwr sp i b))))
  | "RRD", [r] => (register r).map (fun r => .op (.rrd r.number 0))
  | "RRD", [r, c] => (register r).bind (fun r => (field 4 c).map (fun c => .op (.rrd r.number c)))
  | "RWR", [r, v] => (register r).bind (fun r => (field 16 v).map (fun v => .op (rwrOf r v 0)))
  | "RWR", [r, v, c] =>
    (register r).bind (fun r => (field 16 v).bind (fun v => (field 4 c).map (fun c => .op (rwrOf r v c))))
  | "RESET", [] => some (.op .reset)
  | ".WORD", [n] => (field 32 n).map .rawWord
  | "LOADP", bs => (countedBytes bs).map .loadp
  | "LOADW", bs => (countedBytes bs).map .loadw
  | "RXS", c :: bs => (field 4 c).bind (fun c => (byteList bs).map (.rxs c))
  | "RXEN", [c, k] => (field 4 c).bind (fun c => (number k).map (.rxen c))
  | "RDCFG", [c, h, n] =>
    (field 4 c).bind (fun c => (field 16 h).bind (fun h => (field 16 n).map (.rdcfg c h)))
  | _, _ => none

/-- The operands of a line: separated by commas, none where nothing follows the mnemonic (30_encoding.md R332). -/
def operands (rest : List Char) : List (List Char) :=
  if trim rest = [] then [] else (splitCommas rest).map trim

/-- One line of assembler text: mnemonic first, operands separated by commas (30_encoding.md R332). -/
def assembleLine (line : String) : Option AsmLine :=
  let cs := trim line.toList
  let m := cs.takeWhile (fun ch => ch != ' ')
  parseLine (String.ofList m) (operands (cs.drop m.length))

end Sys2Proof.Machine
end

