-- ==== Sys2Proof/Safety.lean ====
section
/-! DEFINITION. What a safe run is, in the terms the statements use: the invariant every reachable state has, each clause a
sentence of the spec, and what an outside consumer may use. -/

namespace Sys2Proof.Machine

/-- The byte at address `a` exists (20_memory.md R200): PBUF and WBUF up to their sizes, DBUF and the RBUF of each present
channel up to BUF_CAP. -/
def State.hasByte (s : State) (a : Nat) : Bool :=
  let sp := a / 65536
  let i := a % 65536
  (sp == 0 && decide (i < Config.pbufCap)) || (sp == 1 && decide (i < Config.wbufCap)) ||
  (sp == 2 && decide (i < s.bufCap.toNat)) ||
  (decide (8 ≤ sp) && decide (sp - 8 < s.chans.length) && decide (i < s.bufCap.toNat))

/-- A de-escaped list that passed every check of 40_codec.md R404: long enough, start marker first, end marker last, and the
checksum of LEN and payload in the last place but one. -/
def FrameChecked (de : List Byte) : Prop :=
  Config.minFrame ≤ de.length ∧ de[0]? = some Config.startMarker ∧ de[de.length - 1]? = some Config.endMarker ∧
  de[de.length - 2]? = some (checksum 0 (slice de 1 (de.length - 3)))

/-- The decode registers of a state (10_state.md R107 to R109, R114): either DVALID = 1, STATUS = OK, DBUF[0..DLEN-1] holds a
checked frame and DFIELD its LEN and CHK, or DVALID = 0, STATUS a failure or None, DLEN = 0 and DFIELD = 0. -/
def State.DecodeRegs (s : State) : Prop :=
  (s.dstat = dstatOf .ok ∧ ∃ de, s.decoded? = some de ∧ FrameChecked de ∧
      s.dfield = dfieldOf (de.getD 1 0) (de.getD (de.length - 2) 0)) ∨
  ((s.dstat = dstatOf .frameTooShort ∨ s.dstat = dstatOf .checksumMismatch ∨ s.dstat = dstatOf .frameMalformed ∨
      s.dstat = dstatOf .noDecode) ∧ s.dlen = 0 ∧ s.dfield = 0)

/-- One channel of a state (10_state.md R116 to R122, 20_memory.md R204). -/
structure State.ChannelInv (s : State) (c : Nibble) (ch : Channel) : Prop where
  /-- RX_CNT holds 0..BUF_CAP (R120). -/
  cntLe : ch.rxCnt.toNat ≤ s.bufCap.toNat
  /-- Every byte below RX_CNT was written (R204). -/
  readable : ∃ raw, s.raw? c ch = some raw
  /-- RC is NONE whenever ST is IDLE or ACTIVE (R117), and only then (R116). -/
  readEnd : ch.readEnd = .none ↔ ch.phase ≠ .done
  /-- While ST = ACTIVE, RX_ATT >= 1 (R122). -/
  attempts : ch.phase = .active → ch.rxAtt ≠ 0
  /-- TIMEOUT: the attempt counter reached zero, or RDSTART loaded zero (R117). -/
  timeout : ch.readEnd = .timeout → ch.rxAtt = 0
  /-- ESC = 1 is possible only when ST is ACTIVE, or DONE with RC = TIMEOUT (R118). -/
  escape : ch.esc = true → ch.phase = .active ∨ (ch.phase = .done ∧ ch.readEnd = .timeout)
  /-- RXB sets ESC when it appends a byte, and what empties the buffer clears it (R118, R120). -/
  emptyEsc : ch.rxCnt = 0 → ch.esc = false
  /-- F_HINT is set at FRAME completion (R119). -/
  hint : ch.fHint = true → ch.readEnd = .frame
  /-- IDLE: no read has been started since reset (R116), so the buffer is empty (R120). -/
  idle : ch.phase = .idle → ch.rxCnt = 0

/-- The invariant of every reachable state. -/
structure State.Inv (s : State) : Prop where
  /-- The memory is in canonical form. -/
  memWf : Memory.wf s.mem = true
  /-- The memory lists only bytes that exist (20_memory.md R200). -/
  memExists : ∀ cell, cell ∈ s.mem → s.hasByte cell.1 = true
  /-- N_CH in 1..8, BUF_CAP in 515..65535 (00_scope.md R10). -/
  params : Config.legalParams s.chans.length s.bufCap.toNat = true
  /-- One transport for each channel (60_exceptions.md R630). -/
  transports : s.transports.length = s.chans.length
  /-- WLEN holds 0..515 (10_state.md R106). -/
  wlenLe : s.wlen.toNat ≤ Config.wbufCap
  /-- DLEN holds 0..DBUF_CAP = BUF_CAP (10_state.md R102). -/
  dlenLe : s.dlen.toNat ≤ s.bufCap.toNat
  /-- DVALID, DSTAT, DLEN, DFIELD and DBUF agree (10_state.md R108, R114). -/
  decodeRegs : s.DecodeRegs
  /-- Every channel is in a legal state. -/
  channels : ∀ c ch, s.chan? c = some ch → s.ChannelInv c ch

/-! ### What the world may use -/

/-- What a consumer outside the block may act on: DBUF[0..DLEN-1] while DVALID = 1, else nothing (10_state.md R114,
70_reset_and_hazards.md R716). -/
def State.consumable (s : State) : Option (List Byte) := if s.dvalid = true then s.decoded? else none

/-- The run is flagged: an ENC failed its self-check (93_implementation_defined.md I2, 60_exceptions.md R607). -/
def State.flagged (s : State) : Prop := s.fatal = true

/-! ### The terms of the statements -/

/-- `m'` is `m` with the bytes `bs` stored from address `a` on, every other byte as it was. -/
def Stores (m m' : Memory) (a : Nat) (bs : List Byte) : Prop :=
  (∀ i, i < bs.length → Memory.read m' (a + i) = bs[i]?) ∧
  ∀ x, x < a ∨ a + bs.length ≤ x → Memory.read m' x = Memory.read m x

/-- The operation `i` runs a decode of the raw bytes `raw` in state `s`: a DECW of WBUF[0..WLEN-1], or a DECR of a channel
that is not ACTIVE (40_codec.md R408, R409). -/
def DecodesRaw (i : Instr) (s : State) (raw : List Byte) : Prop :=
  (i = .decw ∧ s.wire? = some raw) ∨
  (∃ c ch, i = .decr c ∧ s.chan? c = some ch ∧ ch.phase ≠ .active ∧ s.raw? c ch = some raw)

/-- The operation `i` reads an UNDEF byte in state `s` (00_scope.md R14): a byte of the payload, of the wire frame, or the byte an MRD
of PBUF or WBUF names. -/
def ReadsUndef (s : State) : Instr → Prop
  | .enc => s.fatal = false ∧ ∃ k, k < s.plen.toNat ∧ Memory.read s.mem (pbufAddr k) = none
  | .csum => ∃ k, k < s.plen.toNat ∧ Memory.read s.mem (pbufAddr k) = none
  | .decw => ∃ k, k < s.wlen.toNat ∧ Memory.read s.mem (wbufAddr k) = none
  | .mrd sp idx =>
    (sp = 0 ∧ idx.toNat < 255 ∧ Memory.read s.mem (pbufAddr idx.toNat) = none) ∨
    (sp = 1 ∧ idx.toNat < 515 ∧ Memory.read s.mem (wbufAddr idx.toNat) = none)
  | .decr _ | .rdstart _ | .rxb _ _ | .rxe _ | .mwr _ _ _ | .rrd _ _ | .rwr _ _ _ | .reset => False

/-- The escape-pending bit `e` of `scan` after it read these bytes from position `k` on, none of them an end marker (40_codec.md R403). -/
def scanEsc (started : Bool) : Nat → Bool → List Byte → Bool
  | _, e, [] => e
  | k, e, b :: bs => scanEsc started (k + 1) (escAfter (cls k started e b) e) bs

/-- The class of byte `b` on channel `ch`, whose STARTED condition is `st`: by its position, or at position 0 with no escape pending
where the buffer is full and overflows (41_receiver.md R454, R455). -/
def classOnChannel (s : State) (ch : Channel) (st : Bool) (b : Byte) : ByteClass :=
  if ch.rxCnt = s.bufCap then cls 0 false false b else cls ch.rxCnt.toNat st ch.esc b

/-- The cases of RangeError (60_exceptions.md R611), by operation. -/
def OutOfRange (s : State) : Instr → Prop
  | .enc | .decw | .csum | .reset => False
  | .decr c | .rdstart c | .rxb c _ | .rxe c => s.chans.length ≤ c.toNat
  | .mrd sp idx =>
    (sp.toNat = 0 ∧ 255 ≤ idx.toNat) ∨ (sp.toNat = 1 ∧ 515 ≤ idx.toNat) ∨ (sp.toNat = 2 ∧ s.dlen.toNat ≤ idx.toNat) ∨
    (3 ≤ sp.toNat ∧ sp.toNat ≤ 7) ∨
    (8 ≤ sp.toNat ∧ ∀ ch, s.chans[sp.toNat - 8]? = some ch → ch.rxCnt.toNat ≤ idx.toNat)
  | .mwr sp idx _ =>
    (sp.toNat = 0 ∧ 255 ≤ idx.toNat) ∨ (sp.toNat = 1 ∧ 515 ≤ idx.toNat) ∨ 2 ≤ sp.toNat
  | .rrd reg c =>
    (0x09 ≤ reg.toNat ∧ reg.toNat ≤ 0x0F) ∨ 0x16 ≤ reg.toNat ∨
    (0x10 ≤ reg.toNat ∧ reg.toNat ≤ 0x15 ∧ s.chans.length ≤ c.toNat)
  | .rwr reg v c =>
    (reg.toNat = 0x00 ∧ 255 < v.toNat) ∨ (reg.toNat = 0x01 ∧ 515 < v.toNat) ∨
    (0x02 ≤ reg.toNat ∧ reg.toNat ≤ 0x13) ∨ 0x16 ≤ reg.toNat ∨
    ((reg.toNat = 0x14 ∨ reg.toNat = 0x15) ∧ s.chans.length ≤ c.toNat)

/-- A word that is illegal by its fields: a reserved OP (30_encoding.md R328), a non-zero field that R326 marks "must be zero", OP 2
with a B other than 0 and 1, or OP 2 with B = 0 and CH not 0 (R327). -/
def IllegalFields (w : Word) : Prop :=
  fieldOp w = 0x0 ∨ (0xB ≤ (fieldOp w).toNat ∧ (fieldOp w).toNat ≤ 0xE) ∨
  (fieldOp w ∈ ([0x1, 0x3, 0xF] : List Nibble) ∧ fieldCh w ≠ 0) ∨
  (fieldOp w ∈ ([0x1, 0x3, 0x4, 0x6, 0x7, 0xF] : List Nibble) ∧ fieldB w ≠ 0) ∨
  (fieldOp w ∈ ([0x1, 0x2, 0x3, 0x4, 0x5, 0x6, 0x9, 0xF] : List Nibble) ∧ fieldIdx w ≠ 0) ∨
  (fieldOp w = 0x2 ∧ fieldB w ≠ 0 ∧ fieldB w ≠ 1) ∨ (fieldOp w = 0x2 ∧ fieldB w = 0 ∧ fieldCh w ≠ 0)

/-- The statuses an operation may report (the "raised by" column of 60_exceptions.md R601). -/
def raisedBy : Instr → List Status
  | .enc => [.ok, .encodeInputInvalid, .encodeSelfCheckFailed, .halted]
  | .decw => [.ok, .frameTooShort, .checksumMismatch, .frameMalformed]
  | .decr _ => [.ok, .frameTooShort, .checksumMismatch, .frameMalformed, .busy, .rangeError]
  | .csum | .reset => [.ok]
  | .rdstart _ => [.ok, .busy, .rangeError]
  | .rxb _ _ | .rxe _ => [.ok, .notReady, .rangeError]
  | .mrd _ _ | .mwr _ _ _ | .rrd _ _ | .rwr _ _ _ => [.ok, .rangeError]

/-- The operation belongs to channel `c`: a channel operation, or an access to one of its registers or a read of
its RBUF (41_receiver.md R464, 10_state.md R104, 20_memory.md R200). -/
def OnChannel (c : Nibble) : Instr → Prop
  | .decr d | .rdstart d | .rxb d _ | .rxe d => d = c
  | .rrd reg d | .rwr reg _ d => d = c ∧ 0x10 ≤ reg.toNat
  | .mrd sp _ => sp.toNat = 8 + c.toNat
  | .enc | .decw | .csum | .mwr _ _ _ | .reset => False

/-- Two states agree on what belongs to channel `c`: its registers, its RBUF and BUF_CAP. -/
def AgreeOn (c : Nibble) (s t : State) : Prop :=
  s.bufCap = t.bufCap ∧ s.chan? c = t.chan? c ∧
  ∀ i, i < 65536 → Memory.read s.mem (rbufAddr c.toNat i) = Memory.read t.mem (rbufAddr c.toNat i)

/-- The command of a channel event (60_exceptions.md R631). -/
def RxEvent.instr (c : Nibble) : RxEvent → Instr
  | .byte b => .rxb c b
  | .empty => .rxe c

/-- The state without the word on its result port. -/
def State.noResult (s : State) : State := { s with result := none }

end Sys2Proof.Machine
end

