-- ==== Sys2Proof/Certificates/Slice0/Obligations.lean ====
section
/-! DEFINITION. The statements for the provers. Each docstring gives the sentence the statement formalises; OBLIGATIONS.json gives
its rules. -/

open Sys2Proof Sys2Proof.Machine


/-- For every operation i of all twelve rows, with every value of every operand, the decoder applied to the word of i
answers i. (30_encoding.md Part B (opcode map and operand fields)) -/
def Obligations.EncodedInstructionDecodesBack : Prop :=
  ∀ i : Instr, decode (encode i) = .ok i

/-- For every 32-bit word w that decodes to an operation i, the word of i is w. (30_encoding.md Part B (opcode map
and operand fields)) -/
def Obligations.DecodedWordEncodesBack : Prop :=
  ∀ (w : Word) (i : Instr), decode w = .ok i → encode i = w

/-- For all operands, the word of each of the twelve operations equals the formula in the word column of R332, and a
raw .WORD line is its number. (30_encoding.md Part B (assembler table)) -/
def Obligations.WordsOfTheAssemblerTable : Prop :=
  encode .enc = 0x00000001 ∧ encode .decw = 0x00000002 ∧ encode .csum = 0x00000003 ∧ encode .reset = 0x0000000F ∧
  (∀ c : Nibble, encode (.decr c) = 0x00000102 ||| (c.setWidth 32 <<< 4)) ∧
  (∀ c : Nibble, encode (.rdstart c) = 0x00000004 ||| (c.setWidth 32 <<< 4)) ∧
  (∀ (c : Nibble) (b : Byte), encode (.rxb c b) = (b.setWidth 32 <<< 8) ||| (c.setWidth 32 <<< 4) ||| 0x5) ∧
  (∀ c : Nibble, encode (.rxe c) = (c.setWidth 32 <<< 4) ||| 0x6) ∧
  (∀ (sp : Nibble) (i : Half), encode (.mrd sp i) = (i.setWidth 32 <<< 16) ||| (sp.setWidth 32 <<< 4) ||| 0x7) ∧
  (∀ (sp : Nibble) (i : Half) (b : Byte), encode (.mwr sp i b) =
    (i.setWidth 32 <<< 16) ||| (b.setWidth 32 <<< 8) ||| (sp.setWidth 32 <<< 4) ||| 0x8) ∧
  (∀ (r : Byte) (c : Nibble), encode (.rrd r c) = (r.setWidth 32 <<< 8) ||| (c.setWidth 32 <<< 4) ||| 0x9) ∧
  (∀ (r : Byte) (v : Half) (c : Nibble), encode (.rwr r v c) =
    (v.setWidth 32 <<< 16) ||| (r.setWidth 32 <<< 8) ||| (c.setWidth 32 <<< 4) ||| 0xA) ∧
  (∀ w : Word, (AsmLine.rawWord w).words = [w])

/-- The words 0x00000001, 0x00000002, 0x00000112, 0x00000003, 0x00000014, 0x00000215, 0x00000016, 0x00030017,
0x0202AA18, 0x00001419, 0xFFFF141A and 0x0000000F decode to ENC, DECW, DECR 1, CSUM, RDSTART 1, RXB 1,0x02, RXE 1,
MRD 1,3, MWR 1,514,0xAA, RRD 0x14,1, RWR 0x14,0xFFFF,1 and RESET. (30_encoding.md Part B (opcode map),
95_test_vectors.md sections 5 and 6) -/
def Obligations.WrittenOutWordsDecode : Prop :=
  decode 0x00000001 = .ok .enc ∧ decode 0x00000002 = .ok .decw ∧ decode 0x00000112 = .ok (.decr 1) ∧
  decode 0x00000003 = .ok .csum ∧ decode 0x00000014 = .ok (.rdstart 1) ∧ decode 0x00000215 = .ok (.rxb 1 0x02) ∧
  decode 0x00000016 = .ok (.rxe 1) ∧ decode 0x00030017 = .ok (.mrd 1 3) ∧ decode 0x0202AA18 = .ok (.mwr 1 514 0xAA) ∧
  decode 0x00001419 = .ok (.rrd 0x14 1) ∧ decode 0xFFFF141A = .ok (.rwr 0x14 0xFFFF 1) ∧ decode 0x0000000F = .ok .reset

/-- Every 32-bit word either matches exactly one row of the table and decodes, or matches none, is illegal by its
fields (a reserved OP, a non-zero must-be-zero field, OP 2 with a B other than 0 and 1, OP 2 with B = 0 and CH not 0)
and is rejected; and two different rows with the same OP are DECW and DECR, told apart by B. (R329) -/
def Obligations.DecodingIsTotalAndUnambiguous : Prop :=
  (∀ w : Word,
    ((opcodeTable.filter (fun r => r.accepts w)).length = 1 ∧ ¬IllegalFields w ∧ ∃ i, decode w = .ok i) ∨
    (opcodeTable.filter (fun r => r.accepts w) = [] ∧ IllegalFields w ∧ ∃ e, decode w = .error e)) ∧
  (∀ r ∈ opcodeTable, ∀ r' ∈ opcodeTable, r ≠ r' → fieldOp r.pattern = fieldOp r'.pattern →
    (r.mnemonic = "DECW" ∧ r'.mnemonic = "DECR" ∨ r.mnemonic = "DECR" ∧ r'.mnemonic = "DECW") ∧
    fieldB r.pattern ≠ fieldB r'.pattern ∧ fieldB r.mask = 0xFF ∧ fieldB r'.mask = 0xFF)

/-- A word that is illegal by its fields answers a next state that differs only in the result word, STATUS 0x08 and
DATA 0; and a word is illegal by its fields exactly when (word & mask) == match holds for no row of the table. (R608,
R327) -/
def Obligations.IllegalWordRaisesIllegalOp : Prop :=
  (∀ (s : State) (w : Word), IllegalFields w → execWord w s = .next { s with result := some 0x00000008 }) ∧
  (∀ w : Word, IllegalFields w ↔ ∀ r ∈ opcodeTable, (w &&& r.mask) ≠ r.pattern)

/-- For every status and data the result word has the status code in bits 7..0, the data in bits 23..8 and zero in
bits 31..24; the codes are those of the status table. (30_encoding.md Part B (result word), 60_exceptions.md section
1 (status codes)) -/
def Obligations.StatusCodesAndResultWord : Prop :=
  (∀ (st : Status) (d : Half), (resultWord st d).extractLsb' 0 8 = st.code ∧ (resultWord st d).extractLsb' 8 16 = d ∧
    (resultWord st d).extractLsb' 24 8 = 0) ∧
  Status.ok.code = 0x00 ∧ Status.frameTooShort.code = 0x01 ∧ Status.checksumMismatch.code = 0x02 ∧
  Status.frameMalformed.code = 0x03 ∧ Status.timeoutExhausted.code = 0x04 ∧ Status.encodeInputInvalid.code = 0x05 ∧
  Status.encodeSelfCheckFailed.code = 0x06 ∧ Status.unknownCommand.code = 0x07 ∧ Status.illegalOp.code = 0x08 ∧
  Status.notReady.code = 0x09 ∧ Status.busy.code = 0x0A ∧ Status.rangeError.code = 0x0B ∧ Status.halted.code = 0x0C ∧
  Status.noDecode.code = 0xFF

/-- Whenever an operation answers a next state, its result word carries a status from the "raised by" column of the
status table for that operation, and DATA is 0 whenever the status is not OK. So 0x04, 0x07, 0x08 and 0xFF are never
the result of a legal word. (30_encoding.md Part B (result word), 60_exceptions.md section 1 (status codes)) -/
def Obligations.EveryResultIsARaisableStatus : Prop :=
  ∀ (i : Instr) (s t : State), exec i s = .next t →
    ∃ st d, t.result = some (resultWord st d) ∧ st ∈ raisedBy i ∧ (st ≠ .ok → d = 0)

/-- If the next turn grants agent a, a offers the word w and w decodes to i, then step is exec of i at that state,
followed by the end of the turn: a next state t becomes t with the word taken from the agent (unless it is a
transport byte that was not consumed) and the turn gone from the schedule; a fault or refusal stays. That the end of
a turn takes a host word whatever its status, a loopback RXB that raised NotReady included, is the model's reading
(log entry 5). (60_exceptions.md section 7 (agents and the arbiter), 00_scope.md section 5 (one atomic step)) -/
def Obligations.StepRunsTheDecodedInstruction : Prop :=
  ∀ (s : State) (a : Agent) (rest : List Turn) (w : Word) (i : Instr),
    s.schedule = .grant a :: rest → s.offered a = some w → decode w = .ok i →
    (∀ t, exec i s = .next t → step s = .next (t.retire a).nextTurn) ∧
    (∀ f, exec i s = .fault f → step s = .fault f) ∧ (∀ r, exec i s = .refused r → step s = .refused r)

/-- A step that grants the host with words w, ws waiting and answers a next state takes w: the host queue becomes ws,
the turn is gone, the transports are untouched, and the block is as execWord of w leaves it. That a host word is
taken whatever its status, a loopback RXB that raised NotReady included, is the model's reading (log entry 5).
(20_memory.md section 5 (per-agent order), 60_exceptions.md section 7 (agents and the arbiter)) -/
def Obligations.HostWordsRunInOrder : Prop :=
  ∀ (s t : State) (rest : List Turn) (w : Word) (ws : List Word),
    s.schedule = .grant .host :: rest → s.hostQueue = w :: ws → step s = .next t →
    t.hostQueue = ws ∧ t.schedule = rest ∧ t.transports = s.transports ∧
    ∃ u, execWord w s = .next u ∧ t = { u with hostQueue := ws, schedule := rest }

/-- rx_ready of a present channel is ST = ACTIVE. When a turn grants the transport of a channel that is not ACTIVE: a
byte raises NotReady, changes nothing and stays first in the transport; an empty read raises NotReady, changes
nothing and is dropped. When the channel is ACTIVE (in a state with the invariant), the event is consumed and the
rest of that transport is kept in order. (R451) -/
def Obligations.PortAcceptance : Prop :=
  (∀ (s : State) (c : Nibble) (ch : Channel), s.chan? c = some ch → (s.rxReady c = true ↔ ch.phase = .active)) ∧
  (∀ (s : State) (c : Nibble) (ch : Channel) (rest : List Turn) (b : Byte) (es : List RxEvent),
    s.schedule = .grant (.transport c) :: rest → s.chan? c = some ch → s.rxReady c = false →
    s.transports[c.toNat]? = some (.byte b :: es) →
    step s = .next { s with result := some (resultWord .notReady 0), schedule := rest }) ∧
  (∀ (s : State) (c : Nibble) (ch : Channel) (rest : List Turn) (es : List RxEvent),
    s.schedule = .grant (.transport c) :: rest → s.chan? c = some ch → s.rxReady c = false →
    s.transports[c.toNat]? = some (.empty :: es) →
    step s = .next { s with
      result := some (resultWord .notReady 0), schedule := rest, transports := s.transports.set c.toNat es }) ∧
  (∀ (s : State) (c : Nibble) (rest : List Turn) (e : RxEvent) (es : List RxEvent), s.Inv →
    s.schedule = .grant (.transport c) :: rest → s.rxReady c = true → s.transports[c.toNat]? = some (e :: es) →
    ∃ t, step s = .next t ∧ t.transports = s.transports.set c.toNat es ∧ t.schedule = rest ∧
      t.hostQueue = s.hostQueue)

/-- If the next turn is the rst input, the step answers the reset state of R701 to R703 with the same N_CH and
BUF_CAP; no word is taken: host queue and transports stay. The empty result port, the unwritten DBUF and RBUF and the
waiting words that survive are the model's choice (log entries 2, 7 and 12). (70_reset_and_hazards.md section 1) -/
def Obligations.PowerOnResetInput : Prop :=
  ∀ (s : State) (rest : List Turn), s.schedule = .rst :: rest →
    step s = .next
      { plen := 0, wlen := 0, dlen := 0, dstat := 0x0FF, dfield := 0, csumR := 0, fatal := false
        bufCap := s.bufCap, mem := [], chans := List.replicate s.chans.length Channel.reset
        result := none, hostQueue := s.hostQueue, transports := s.transports, schedule := rest }

/-- With an empty schedule, or a turn granted to an agent with nothing ready, the step keeps every register and all
memory; only the result port is empty and the turn is gone. That such a step exists is the model's choice (log
entries 3 and 13), and so is the empty result port after it (log entry 2). (60_exceptions.md section 7 (no sleep or
wait state: the block keeps all its state)) -/
def Obligations.StepWithoutAWordKeepsTheState : Prop :=
  (∀ s : State, s.schedule = [] → step s = .next { s with result := none }) ∧
  (∀ (s : State) (a : Agent) (rest : List Turn), s.schedule = .grant a :: rest → s.offered a = none →
    step s = .next { s with result := none, schedule := rest })

/-- Whenever an operation answers a next state, the host queue, the transports and the schedule are as before.
(10_state.md section 6 (no hidden state), 42_access.md RESET corner cases) -/
def Obligations.OperationsLeaveTheOutsideAlone : Prop :=
  ∀ (i : Instr) (s t : State), exec i s = .next t →
    t.hostQueue = s.hostQueue ∧ t.transports = s.transports ∧ t.schedule = s.schedule

/-- esc(b) is [0x10, b] if b is 0x03 or 0x10 and [b] otherwise. checksum(L, p) as a number is (L + the sum of the
bytes of p) mod 256, for every list p. An escape byte never contributes and an escaped value does once: the checksum
over what the scan keeps of the escaped bytes of p is the checksum over p. The three examples of the rule hold.
(R400, R401) -/
def Obligations.EscapeAndChecksum : Prop :=
  (∀ b : Byte, (b = 0x03 ∨ b = 0x10 → esc b = [0x10, b]) ∧ (b ≠ 0x03 → b ≠ 0x10 → esc b = [b])) ∧
  (∀ (len : Byte) (p : List Byte), (checksum len p).toNat = (len.toNat + (p.map BitVec.toNat).sum) % 256) ∧
  (∀ (st : Bool) (k : Nat) (len : Byte) (p : List Byte), 2 ≤ k →
    checksum len (scanFrom st k false (p.map esc).flatten).1 = checksum len p) ∧
  checksum 1 [0x06] = 0x07 ∧ checksum 2 [0x0B, 0x03] = 0x10 ∧ checksum 255 (List.replicate 255 0xFF) = 0x00

/-- The first condition of R402 that holds decides the class: LEN at position 1 of a started buffer, START for 0x02
at position 0, LITERAL after an escape, ESC for 0x10, END for 0x03, DATA otherwise. In the scan, ESC is dropped and
sets the escape bit, LITERAL is kept and clears it, END is kept and ends the frame, LEN, START and DATA are kept and
leave it. In a garbage-led buffer index 1 is classified by value like any later index. So a raw run 10 10 10 10 at
positions from 2 on, no escape pending, gives the de-escaped 10 10. (40_codec.md section 1 (scanner classification
and un-escape scan)) -/
def Obligations.ScannerClassification : Prop :=
  (∀ (e : Bool) (b : Byte), cls 1 true e b = .len) ∧ (∀ st e, cls 0 st e 0x02 = .start) ∧
  (∀ k st b, ¬(k = 1 ∧ st = true) → ¬(k = 0 ∧ b = 0x02) →
    cls k st true b = .literal ∧
    cls k st false b = if b = 0x10 then .esc else if b = 0x03 then .endMark else .data) ∧
  (∀ k e b, 1 ≤ k → cls k false e b = cls (k + 1) false e b) ∧
  (∀ st k e b rest,
    (cls k st e b = .esc → scanFrom st k e (b :: rest) = scanFrom st (k + 1) true rest) ∧
    (cls k st e b = .literal → scanFrom st k e (b :: rest) =
      (b :: (scanFrom st (k + 1) false rest).1, (scanFrom st (k + 1) false rest).2)) ∧
    (cls k st e b = .endMark → scanFrom st k e (b :: rest) = ([b], some k)) ∧
    (cls k st e b = .len ∨ cls k st e b = .start ∨ cls k st e b = .data → scanFrom st k e (b :: rest) =
      (b :: (scanFrom st (k + 1) e rest).1, (scanFrom st (k + 1) e rest).2))) ∧
  (∀ st k e, scanFrom st k e [] = ([], none)) ∧
  (∀ st k rest, 2 ≤ k → scanFrom st k false (0x10 :: 0x10 :: 0x10 :: 0x10 :: rest) =
    (0x10 :: 0x10 :: (scanFrom st (k + 4) false rest).1, (scanFrom st (k + 4) false rest).2)) ∧
  (∀ raw : List Byte, scan raw = scanFrom (raw[0]? == some 0x02) 0 false raw)

/-- For a payload of 1 to 255 bytes, build gives [0x02, L] ++ esc of every payload byte ++ esc of the checksum ++
[0x03] with the checksum of L and the unescaped payload, and the frame has between L+4 and 2L+5 bytes, at most 515.
(R406) -/
def Obligations.FrameBuilder : Prop :=
  ∀ p : List Byte, 1 ≤ p.length → p.length ≤ 255 →
    (build p).2 = checksum (BitVec.ofNat 8 p.length) p ∧
    (build p).1 = [0x02, BitVec.ofNat 8 p.length] ++ (p.map esc).flatten ++ esc (build p).2 ++ [0x03] ∧
    p.length + 4 ≤ (build p).1.length ∧ (build p).1.length ≤ 2 * p.length + 5 ∧ (build p).1.length ≤ 515

/-- For every payload p of 1 to 255 bytes, of any values: validate(w) = OK, the scan gives [0x02, len(p)] ++ p ++ [c,
0x03], its window 2..n-3 is p, and the end marker is the last byte of w. (R412) -/
def Obligations.BuildScanRoundTrip : Prop :=
  ∀ p : List Byte, 1 ≤ p.length → p.length ≤ 255 →
    let w := (build p).1
    let c := (build p).2
    let de := (scan w).1
    validate w = .ok ∧ de = [0x02, BitVec.ofNat 8 p.length] ++ p ++ [c, 0x03] ∧
    slice de 2 (de.length - 3) = p ∧ (scan w).2 = some (w.length - 1)

/-- For every state with FATAL = 0, PLEN >= 1 and PBUF[0..PLEN-1] = p written: ENC answers a next state with STATUS
OK and DATA = len(w), WBUF[0..len(w)-1] = w, WLEN = len(w), CSUM_R = c for (w, c) = build(p); every other byte of
memory and every other field is unchanged. (40_codec.md section 2 (ENC)) -/
def Obligations.EncWritesTheFrame : Prop :=
  ∀ (s : State) (p : List Byte), s.fatal = false → s.plen ≠ 0 → s.payload? = some p →
    ∃ m, exec .enc s = .next
        { s with
          mem := m, wlen := BitVec.ofNat 10 (build p).1.length, csumR := (build p).2
          result := some (resultWord .ok (BitVec.ofNat 16 (build p).1.length)) } ∧
      Stores s.mem m (wbufAddr 0) (build p).1 ∧ (BitVec.ofNat 10 (build p).1.length).toNat = (build p).1.length

/-- While FATAL = 1, whatever PLEN, ENC raises Halted and changes nothing. With FATAL = 0 and PLEN = 0 it raises
EncodeInputInvalid and writes nothing. (R612, 40_codec.md section 2 (ENC: PLEN = 0 is refused)) -/
def Obligations.EncRefusesWhenHaltedOrEmpty : Prop :=
  (∀ s : State, s.fatal = true → exec .enc s = .next { s with result := some 0x0000000C }) ∧
  (∀ s : State, s.fatal = false → s.plen = 0 → exec .enc s = .next { s with result := some 0x00000005 })

/-- Given any frame w with checksum c for payload p: if w does not validate, or does not give p back, the end of ENC
raises EncodeSelfCheckFailed with FATAL = 1 and WLEN = 0 and nothing else changed, and after any further operations,
none of them RESET, an ENC raises Halted and changes nothing; otherwise it does not. That the failure is a next state
and not a fault is the model's reading of I2 (log entry 9). (40_codec.md section 2 (ENC self-check), 60_exceptions.md
section 1 (EncodeSelfCheckFailed)) -/
def Obligations.FailedSelfCheckHaltsEncoding : Prop :=
  ∀ (s : State) (p w : List Byte) (c : Byte),
    ((validate w ≠ .ok ∨ slice (scan w).1 2 ((scan w).1.length - 3) ≠ p) →
      ∃ t, encFinish p w c s = .next t ∧
        t = { s with fatal := true, wlen := 0, result := some 0x00000006 } ∧
        ∀ (is : List Instr) (u : State), .reset ∉ is → execAll is t = .next u →
          exec .enc u = .next { u with result := some 0x0000000C }) ∧
    (validate w = .ok → slice (scan w).1 2 ((scan w).1.length - 3) = p →
      ∃ t, encFinish p w c s = .next t ∧ t.fatal = s.fatal)

/-- ENC never answers EncodeSelfCheckFailed and never changes FATAL, in any state; no step of the machine takes a
state with FATAL = 0 to one with FATAL = 1, whatever the agents, the schedule and the configuration. (40_codec.md
section 3 (the self-check never fails)) -/
def Obligations.SelfCheckNeverFails : Prop :=
  (∀ s t : State, exec .enc s = .next t →
    t.fatal = s.fatal ∧ t.result ≠ some (resultWord .encodeSelfCheckFailed 0)) ∧
  (∀ s t : State, ¬s.flagged → step s = .next t → ¬t.flagged)

/-- For every state with FATAL = 0, PLEN >= 1 and payload p written: ENC answers t, and DECW in t answers u with
DVALID = 1 whose consumable DBUF content is [0x02, PLEN] ++ p ++ [CHK, 0x03], so that its window 2..DLEN-3 is p.
(40_codec.md section 3 (round trip), 95_test_vectors.md S1) -/
def Obligations.EncodeThenDecode : Prop :=
  ∀ (s : State) (p : List Byte), s.fatal = false → s.plen ≠ 0 → s.payload? = some p →
    ∃ t u, exec .enc s = .next t ∧ exec .decw t = .next u ∧
      u.consumable = some ([0x02, s.plen] ++ p ++ [t.csumR, 0x03]) ∧ u.dlen.toNat = p.length + 4 ∧
      u.dstat = 0x100 ∧ u.result = some (resultWord .ok (BitVec.ofNat 16 (p.length + 4)))

/-- A DECW, or a DECR of a channel that is not ACTIVE, over raw bytes whose scan has n bytes: with n < 5 it raises
FrameTooShort whatever the markers and the checksum (DSTAT = 0x001); with n >= 5, and the first byte not 0x02, no
unescaped end marker, or an end marker that is not the last raw byte, FrameMalformed whatever the checksum (DSTAT =
0x003); past those checks, with the last byte but one not the checksum of LEN and payload, ChecksumMismatch (DSTAT =
0x002). Each time DLEN = 0, DFIELD = 0, DATA = 0 and nothing else changes. (R602, R603, R604) -/
def Obligations.FailedDecodeRecordsItsStatus : Prop :=
  ∀ (i : Instr) (s : State) (raw : List Byte), DecodesRaw i s raw →
    let de := (scan raw).1
    let endpos := (scan raw).2
    (de.length < 5 →
      exec i s = .next { s with dstat := 0x001, dlen := 0, dfield := 0, result := some 0x00000001 }) ∧
    (5 ≤ de.length → (raw[0]? ≠ some 0x02 ∨ endpos = none ∨ ∃ e, endpos = some e ∧ e + 1 ≠ raw.length) →
      exec i s = .next { s with dstat := 0x003, dlen := 0, dfield := 0, result := some 0x00000003 }) ∧
    (5 ≤ de.length → raw[0]? = some 0x02 → endpos = some (raw.length - 1) →
      some (checksum 0 (slice de 1 (de.length - 3))) ≠ de[de.length - 2]? →
      exec i s = .next { s with dstat := 0x002, dlen := 0, dfield := 0, result := some 0x00000002 })

/-- A decode over raw bytes that pass the length, marker and checksum checks answers STATUS OK with DATA = n: DSTAT =
0x100, DLEN = n, DFIELD = CHK<<8 | LEN, DBUF[0..n-1] = the de-escaped bytes; every other byte and field is unchanged,
LEN is not compared with the payload count. That LEN = 0 passes too, where five or more bytes are kept, is the
model's reading (log entry 18). (40_codec.md sections 1 and 2 (decode outputs, DECW, DECR)) -/
def Obligations.GoodFrameDecodes : Prop :=
  ∀ (i : Instr) (s : State) (raw : List Byte), DecodesRaw i s raw →
    let de := (scan raw).1
    5 ≤ de.length → raw[0]? = some 0x02 → (scan raw).2 = some (raw.length - 1) →
    some (checksum 0 (slice de 1 (de.length - 3))) = de[de.length - 2]? →
    ∃ m len chk, exec i s = .next
        { s with
          mem := m, dstat := 0x100, dlen := BitVec.ofNat 16 de.length, dfield := chk ++ len
          result := some (resultWord .ok (BitVec.ofNat 16 de.length)) } ∧
      de[1]? = some len ∧ de[de.length - 2]? = some chk ∧ Stores s.mem m (dbufAddr 0) de ∧
      (BitVec.ofNat 16 de.length).toNat = de.length

/-- For every state whose PBUF[0..PLEN-1] = p is written, whatever FATAL: CSUM answers STATUS OK with DATA =
checksum(PLEN, p), CSUM_R is that checksum, unescaped, and nothing else changes; with PLEN = 0 it is 0x00.
(40_codec.md section 2 (CSUM)) -/
def Obligations.CsumComputes : Prop :=
  (∀ (s : State) (p : List Byte), s.payload? = some p →
    exec .csum s = .next
      { s with csumR := checksum s.plen p, result := some (resultWord .ok ((checksum s.plen p).setWidth 16)) }) ∧
  (∀ s : State, s.plen = 0 → exec .csum s = .next { s with csumR := 0, result := some 0x00000000 }) ∧
  encode .csum = 0x00000003

/-- CSUM, and ENC that is not refused, fault if a byte of PBUF[0..PLEN-1] is UNDEF; DECW faults if a byte of
WBUF[0..WLEN-1] is; MRD of an UNDEF byte of PBUF or WBUF in range faults. (R14) -/
def Obligations.UnwrittenByteFaults : Prop :=
  (∀ (s : State) (k : Nat), k < s.plen.toNat → Memory.read s.mem (pbufAddr k) = none →
    exec .csum s = .fault .undefByte ∧ (s.fatal = false → exec .enc s = .fault .undefByte)) ∧
  (∀ (s : State) (k : Nat), k < s.wlen.toNat → Memory.read s.mem (wbufAddr k) = none →
    exec .decw s = .fault .undefByte) ∧
  (∀ (s : State) (idx : Half), idx.toNat < 255 → Memory.read s.mem (pbufAddr idx.toNat) = none →
    exec (.mrd 0 idx) s = .fault .undefByte) ∧
  (∀ (s : State) (idx : Half), idx.toNat < 515 → Memory.read s.mem (wbufAddr idx.toNat) = none →
    exec (.mrd 1 idx) s = .fault .undefByte)

/-- On a present channel in IDLE or DONE, RDSTART answers OK, DATA 0: RX_CNT, ESC, F_HINT, F_OVF, F_RESYNC are 0,
RX_ATT = RX_NATT_CFG, RX_HINT = RX_HINT_CFG; with a budget of at least 1 the channel is ACTIVE with RC = NONE, with 0
it is DONE with RC = TIMEOUT. The configuration, every other channel, all memory and every other field are unchanged.
(41_receiver.md section 2 (RDSTART)) -/
def Obligations.RdstartBeginsARead : Prop :=
  (∀ (s : State) (c : Nibble) (ch : Channel), s.chan? c = some ch → ch.phase ≠ .active → ch.nattCfg ≠ 0 →
    exec (.rdstart c) s = .next
      { s with
        chans := s.chans.set c.toNat
          { rxCnt := 0, esc := false, rxAtt := ch.nattCfg, phase := .active, readEnd := .none, fHint := false
            fOvf := false, fResync := false, rxHint := ch.hintCfg, hintCfg := ch.hintCfg, nattCfg := ch.nattCfg }
        result := some (resultWord .ok 0) }) ∧
  (∀ (s : State) (c : Nibble) (ch : Channel), s.chan? c = some ch → ch.phase ≠ .active → ch.nattCfg = 0 →
    exec (.rdstart c) s = .next
      { s with
        chans := s.chans.set c.toNat
          { rxCnt := 0, esc := false, rxAtt := 0, phase := .done, readEnd := .timeout, fHint := false
            fOvf := false, fResync := false, rxHint := ch.hintCfg, hintCfg := ch.hintCfg, nattCfg := 0 }
        result := some (resultWord .ok 0) })

/-- While ST[c] = ACTIVE, RDSTART c and DECR c raise Busy and change nothing. While ST[c] is IDLE or DONE, RXB c of
any byte and RXE c raise NotReady and change nothing. (R610, 41_receiver.md section 1 (port acceptance)) -/
def Obligations.BusyAndNotReady : Prop :=
  (∀ (s : State) (c : Nibble) (ch : Channel), s.chan? c = some ch → ch.phase = .active →
    exec (.rdstart c) s = .next { s with result := some 0x0000000A } ∧
    exec (.decr c) s = .next { s with result := some 0x0000000A }) ∧
  (∀ (s : State) (c : Nibble) (ch : Channel), s.chan? c = some ch → ch.phase ≠ .active →
    (∀ b, exec (.rxb c b) s = .next { s with result := some 0x00000009 }) ∧
    exec (.rxe c) s = .next { s with result := some 0x00000009 })

/-- OutOfRange lists the cases of R611 for each operation. In each of them the operation raises RangeError and
changes nothing, whatever the phase of a channel; and an operation that answers RangeError is one of them. (R611) -/
def Obligations.RangeErrorExactlyWhenOutOfRange : Prop :=
  (∀ (s : State) (i : Instr), OutOfRange s i → exec i s = .next { s with result := some 0x0000000B }) ∧
  (∀ (s t : State) (i : Instr), exec i s = .next t → t.result = some (resultWord .rangeError 0) → OutOfRange s i)

/-- On an ACTIVE channel whose buffer is not empty and does not begin with 0x02, RXB of 0x02 gives RBUF[0] = 0x02,
RX_CNT = 1, ESC = 0, F_RESYNC = 1; RX_ATT, RX_HINT, ST, RC, every other register and byte are unchanged. On a started
buffer that is not full it is no resync: RX_CNT grows by one, the first byte stays, F_RESYNC is unchanged. (R453) -/
def Obligations.RxbResyncsGarbage : Prop :=
  (∀ (s : State) (c : Nibble) (ch : Channel) (x : Byte), s.chan? c = some ch → ch.phase = .active → ch.rxCnt ≠ 0 →
    Memory.read s.mem (rbufAddr c.toNat 0) = some x → x ≠ 0x02 →
    ∃ m, exec (.rxb c 0x02) s = .next
        { s with
          mem := m, chans := s.chans.set c.toNat { ch with rxCnt := 1, esc := false, fResync := true }
          result := some (resultWord .ok 0) } ∧
      Stores s.mem m (rbufAddr c.toNat 0) [0x02]) ∧
  (∀ (s : State) (c : Nibble) (ch : Channel), s.chan? c = some ch → ch.phase = .active → ch.rxCnt ≠ 0 →
    ch.rxCnt.toNat < s.bufCap.toNat → Memory.read s.mem (rbufAddr c.toNat 0) = some 0x02 →
    ∃ t ch', exec (.rxb c 0x02) s = .next t ∧ t.chan? c = some ch' ∧ ch'.rxCnt = ch.rxCnt + 1 ∧
      ch'.fResync = ch.fResync ∧ ch'.phase = .active ∧ Stores s.mem t.mem (rbufAddr c.toNat ch.rxCnt.toNat) [0x02])

/-- On an ACTIVE channel with RX_CNT = BUF_CAP, a byte that does not resync becomes RBUF[0] with RX_CNT = 1 and F_OVF
= 1; it is classified at position 0 with ESC = 0, so 0x10 sets ESC, 0x03 completes the read (DONE, FRAME, F_HINT by
the count 1) and any other byte leaves the channel ACTIVE. RX_ATT, RX_HINT and the rest are unchanged.
(41_receiver.md section 2 (overflow)) -/
def Obligations.RxbOverflowRecyclesTheBuffer : Prop :=
  ∀ (s : State) (c : Nibble) (ch : Channel) (st : Bool) (b : Byte), s.chan? c = some ch → ch.phase = .active →
    ch.rxCnt = s.bufCap → s.started? c ch = some st → ¬(b = 0x02 ∧ ch.rxCnt ≠ 0 ∧ st = false) →
    ∃ m, exec (.rxb c b) s = .next
        { s with
          mem := m
          chans := s.chans.set c.toNat
            { ch with
              rxCnt := 1, esc := decide (b = 0x10), fOvf := true
              phase := if b = 0x03 then .done else .active
              readEnd := if b = 0x03 then .frame else ch.readEnd
              fHint := if b = 0x03 then decide (ch.rxHint ≠ 1) else ch.fHint }
          result := some (resultWord .ok 0) } ∧
      Stores s.mem m (rbufAddr c.toNat 0) [b]

/-- On an ACTIVE channel whose buffer is not full, a byte b that does not resync is stored at RBUF[c][RX_CNT] and
RX_CNT grows by one. With cl its class: ESC sets the escape bit, LITERAL clears it, END ends the read at once (ST =
DONE, RC = FRAME, F_HINT = 1 exactly when the raw count, this byte included, differs from RX_HINT). RX_ATT, RX_HINT,
the other registers, channels and bytes are unchanged. (41_receiver.md section 2 (RXB and completion)) -/
def Obligations.RxbAppendsTheByte : Prop :=
  ∀ (s : State) (c : Nibble) (ch : Channel) (st : Bool) (b : Byte), s.chan? c = some ch → ch.phase = .active →
    ch.rxCnt ≠ s.bufCap → s.started? c ch = some st → ¬(b = 0x02 ∧ ch.rxCnt ≠ 0 ∧ st = false) →
    let cl := cls ch.rxCnt.toNat st ch.esc b
    ∃ m, exec (.rxb c b) s = .next
        { s with
          mem := m
          chans := s.chans.set c.toNat
            { ch with
              rxCnt := ch.rxCnt + 1
              esc := if cl = .esc then true else if cl = .literal then false else ch.esc
              phase := if cl = .endMark then .done else .active
              readEnd := if cl = .endMark then .frame else ch.readEnd
              fHint := if cl = .endMark then decide (ch.rxCnt + 1 ≠ ch.rxHint) else ch.fHint }
          result := some (resultWord .ok 0) } ∧
      Stores s.mem m (rbufAddr c.toNat ch.rxCnt.toNat) [b]

/-- On an ACTIVE channel, RXE answers OK, DATA 0. With RX_ATT = 1: RX_ATT = 0, ST = DONE, RC = TIMEOUT. With any
other RX_ATT at least 2: RX_ATT is one less and the read goes on. RBUF, RX_CNT, ESC and every other field are
unchanged. (41_receiver.md section 2 (RXE)) -/
def Obligations.RxeSpendsOneAttempt : Prop :=
  (∀ (s : State) (c : Nibble) (ch : Channel), s.chan? c = some ch → ch.phase = .active → ch.rxAtt = 1 →
    exec (.rxe c) s = .next
      { s with
        chans := s.chans.set c.toNat { ch with rxAtt := 0, phase := .done, readEnd := .timeout }
        result := some (resultWord .ok 0) }) ∧
  (∀ (s : State) (c : Nibble) (ch : Channel), s.chan? c = some ch → ch.phase = .active → 2 ≤ ch.rxAtt.toNat →
    ∃ n, n.toNat = ch.rxAtt.toNat - 1 ∧ exec (.rxe c) s = .next
      { s with chans := s.chans.set c.toNat { ch with rxAtt := n }, result := some (resultWord .ok 0) })

/-- From any state with the invariant, after RDSTART c with RX_NATT_CFG = N, any list of byte and empty-read events
of channel c runs to a next state; if no byte completed the read, then with fewer than N empty reads the channel is
ACTIVE with RX_ATT = N less their number, and with N or more it is DONE with RC = TIMEOUT and RX_ATT = 0. N = 0
included: the read ends with no empty read at all. (41_receiver.md section 3 (exactly N attempts)) -/
def Obligations.ExactlyNAttempts : Prop :=
  ∀ (s : State) (c : Nibble) (ch : Channel) (es : List RxEvent), s.Inv → s.chan? c = some ch → ch.phase ≠ .active →
    ∃ t ch', execAll (.rdstart c :: es.map (RxEvent.instr c)) s = .next t ∧ t.chan? c = some ch' ∧
      (ch'.readEnd ≠ .frame →
        (es.count .empty < ch.nattCfg.toNat →
          ch'.phase = .active ∧ ch'.rxAtt.toNat = ch.nattCfg.toNat - es.count .empty) ∧
        (ch.nattCfg.toNat ≤ es.count .empty → ch'.phase = .done ∧ ch'.readEnd = .timeout ∧ ch'.rxAtt = 0))

/-- If an operation takes channel c from ACTIVE to another phase, it is an RXB c of 0x03 whose class at the position
it takes is END (so not a LEN byte and not an escaped one), an RXE c with RX_ATT = 1, or RESET. No other operation,
byte count or overflow ends a read. (41_receiver.md sections 1 and 3 (the state machine; a read may never end)) -/
def Obligations.ReadEndsOnlyByEndMarkerOrTimeout : Prop :=
  ∀ (i : Instr) (s t : State) (c : Nibble) (ch ch' : Channel), exec i s = .next t →
    s.chan? c = some ch → t.chan? c = some ch' → ch.phase = .active → ch'.phase ≠ .active →
    (i = .rxb c 0x03 ∧ (∃ st, s.started? c ch = some st ∧ classOnChannel s ch st 0x03 = .endMark) ∧
      ch'.phase = .done ∧ ch'.readEnd = .frame) ∨
    (i = .rxe c ∧ ch.rxAtt = 1 ∧ ch'.phase = .done ∧ ch'.readEnd = .timeout) ∨ (i = .reset ∧ ch'.phase = .idle)

/-- On an ACTIVE channel whose buffer begins with 0x02 and is not full, RXB of any byte keeps every byte held, the
first included, adds one, and leaves F_RESYNC and F_OVF as they were. (41_receiver.md section 3 (no resync inside a
started buffer)) -/
def Obligations.StartedBufferIsNeverCleared : Prop :=
  ∀ (s : State) (c : Nibble) (ch : Channel) (b : Byte) (raw : List Byte), s.chan? c = some ch → ch.phase = .active →
    ch.rxCnt.toNat < s.bufCap.toNat → s.raw? c ch = some raw → raw[0]? = some 0x02 →
    ∃ t ch', exec (.rxb c b) s = .next t ∧ t.chan? c = some ch' ∧ t.raw? c ch' = some (raw ++ [b]) ∧
      ch'.fResync = ch.fResync ∧ ch'.fOvf = ch.fOvf

/-- From any state with the invariant whose channel c is ACTIVE with an empty buffer, delivering the bytes of
build(p) for any payload p of 1 to 255 bytes leaves the channel ACTIVE with RX_CNT = k after every proper prefix of k
bytes, and the receiver gives any next byte the class that the scan of the frame gives it at position k with the
escape bit it has there, which is ESC[c]; and after the last byte DONE with RC = FRAME and RBUF[c][0..RX_CNT-1] equal
to the frame. (R414) -/
def Obligations.ReceiverAgreesWithTheCodec : Prop :=
  ∀ (s : State) (c : Nibble) (ch : Channel) (p : List Byte), s.Inv → s.chan? c = some ch → ch.phase = .active →
    ch.rxCnt = 0 → 1 ≤ p.length → p.length ≤ 255 →
    let w := (build p).1
    (∀ k, k < w.length → ∃ t ch', execAll (expandRxs c (w.take k)) s = .next t ∧ t.chan? c = some ch' ∧
      ch'.phase = .active ∧ ch'.rxCnt.toNat = k ∧ t.raw? c ch' = some (w.take k) ∧
      ch'.esc = scanEsc (w[0]? == some 0x02) 0 false (w.take k) ∧
      ∃ st, t.started? c ch' = some st ∧ ∀ b, classOnChannel t ch' st b = cls k (w[0]? == some 0x02) ch'.esc b) ∧
    ∃ t ch', execAll (expandRxs c w) s = .next t ∧ t.chan? c = some ch' ∧ ch'.phase = .done ∧
      ch'.readEnd = .frame ∧ t.raw? c ch' = some w

/-- From any state with the invariant whose channel c is ACTIVE with an empty buffer, delivering the bytes of
build(p) and then DECR c gives STATUS OK, and the consumable DBUF content has p between LEN and CHK.
(95_test_vectors.md V-L35, 40_codec.md section 3 (receiver agreement)) -/
def Obligations.ReceivedFrameDecodes : Prop :=
  ∀ (s : State) (c : Nibble) (ch : Channel) (p : List Byte), s.Inv → s.chan? c = some ch → ch.phase = .active →
    ch.rxCnt = 0 → 1 ≤ p.length → p.length ≤ 255 →
    ∃ t, execAll (expandRxs c (build p).1 ++ [.decr c]) s = .next t ∧
      t.result = some (resultWord .ok (BitVec.ofNat 16 (p.length + 4))) ∧
      t.consumable = some ([0x02, BitVec.ofNat 8 p.length] ++ p ++ [(build p).2, 0x03])

/-- An operation of channel c (DECR, RDSTART, RXB, RXE, RRD or RWR of a channel register, MRD of RBUF[c]) leaves the
registers and the RBUF of every other channel unchanged. In two states that agree on channel c and BUF_CAP it answers
the same result word and leaves the same state of channel c, and an accepted DECR c leaves the same DLEN, DSTAT,
DFIELD and DBUF[0..DLEN-1] and no other byte of DBUF changed, whatever the other channels hold. Of these operations
only DECR changes DBUF. (R464) -/
def Obligations.ChannelsAreIndependent : Prop :=
  (∀ (i : Instr) (s t : State) (c d : Nibble), OnChannel c i → d ≠ c → exec i s = .next t →
    t.chan? d = s.chan? d ∧
    ∀ k, k < 65536 → Memory.read t.mem (rbufAddr d.toNat k) = Memory.read s.mem (rbufAddr d.toNat k)) ∧
  (∀ (i : Instr) (s t s' : State) (c : Nibble), OnChannel c i → AgreeOn c s s' → exec i s = .next t →
    ∃ t', exec i s' = .next t' ∧ t'.result = t.result ∧ AgreeOn c t t' ∧
      (i = .decr c → (∃ ch, s.chan? c = some ch ∧ ch.phase ≠ .active) →
        t'.dlen = t.dlen ∧ t'.dstat = t.dstat ∧ t'.dfield = t.dfield ∧
        (∀ k, k < t.dlen.toNat → Memory.read t'.mem (dbufAddr k) = Memory.read t.mem (dbufAddr k)) ∧
        ∀ k, t.dlen.toNat ≤ k → k < 65536 → Memory.read t.mem (dbufAddr k) = Memory.read s.mem (dbufAddr k) ∧
          Memory.read t'.mem (dbufAddr k) = Memory.read s'.mem (dbufAddr k))) ∧
  (∀ (i : Instr) (s t : State) (c : Nibble), OnChannel c i → exec i s = .next t → i ≠ .decr c →
    t.dlen = s.dlen ∧ t.dstat = s.dstat ∧ t.dfield = s.dfield ∧
    ∀ k, k < 65536 → Memory.read t.mem (dbufAddr k) = Memory.read s.mem (dbufAddr k))

/-- In a state with the invariant, an event of channel c and an event of another channel d each run in either order,
and the two orders leave the same state, the result port aside. (20_memory.md section 5 (cross-channel order),
41_receiver.md section 3, R464 (channels are independent), 95_test_vectors.md P4 (any other interleaving gives the
same end state)) -/
def Obligations.ChannelEventsCommute : Prop :=
  ∀ (s : State) (c d : Nibble) (e f : RxEvent), s.Inv → c ≠ d →
    ∃ t u, execAll [e.instr c, f.instr d] s = .next t ∧ execAll [f.instr d, e.instr c] s = .next u ∧
      t.noResult = u.noResult

/-- For a present channel rx_done is ST[c] = DONE. If an operation raises it, the read of channel c just ended with
FRAME or TIMEOUT by an RXB c, RXE c or a zero-budget RDSTART c; if one lowers it, it is RDSTART c with a budget of at
least 1, or RESET. (60_exceptions.md section 2 (the rx_done line)) -/
def Obligations.RxDoneLine : Prop :=
  (∀ (s : State) (c : Nibble) (ch : Channel), s.chan? c = some ch → (s.rxDone c = true ↔ ch.phase = .done)) ∧
  (∀ (i : Instr) (s t : State) (c : Nibble), exec i s = .next t → s.rxDone c = false → t.rxDone c = true →
    ((∃ b, i = .rxb c b) ∨ i = .rxe c ∨ i = .rdstart c) ∧
    ∃ ch', t.chan? c = some ch' ∧ (ch'.readEnd = .frame ∨ ch'.readEnd = .timeout)) ∧
  (∀ (i : Instr) (s t : State) (c : Nibble), exec i s = .next t → s.rxDone c = true → t.rxDone c = false →
    i = .reset ∨ (i = .rdstart c ∧ ∃ ch', t.chan? c = some ch' ∧ ch'.phase = .active))

/-- For each space (PBUF idx < 255, WBUF idx < 515, DBUF idx < DLEN, RBUF[c] of a present channel idx < RX_CNT[c])
with the byte v standing at that index, MRD answers OK with DATA = v zero-extended; nothing but the result port
changes. (42_access.md (MRD)) -/
def Obligations.MrdReadsTheByte : Prop :=
  ∀ (s : State) (idx : Half) (v : Byte),
    (idx.toNat < 255 → Memory.read s.mem (pbufAddr idx.toNat) = some v →
      exec (.mrd 0 idx) s = .next { s with result := some (resultWord .ok (v.setWidth 16)) }) ∧
    (idx.toNat < 515 → Memory.read s.mem (wbufAddr idx.toNat) = some v →
      exec (.mrd 1 idx) s = .next { s with result := some (resultWord .ok (v.setWidth 16)) }) ∧
    (idx.toNat < s.dlen.toNat → Memory.read s.mem (dbufAddr idx.toNat) = some v →
      exec (.mrd 2 idx) s = .next { s with result := some (resultWord .ok (v.setWidth 16)) }) ∧
    (∀ (c sp : Nibble) (ch : Channel), s.chan? c = some ch → sp.toNat = 8 + c.toNat → idx.toNat < ch.rxCnt.toNat →
      Memory.read s.mem (rbufAddr c.toNat idx.toNat) = some v →
      exec (.mrd sp idx) s = .next { s with result := some (resultWord .ok (v.setWidth 16)) })

/-- MWR of PBUF at idx < 255, or of WBUF at idx < 515, answers OK, DATA 0; that byte holds the value, every other
byte and every register, PLEN and WLEN included, is unchanged. (42_access.md (MWR)) -/
def Obligations.MwrWritesOneByte : Prop :=
  ∀ (s : State) (idx : Half) (b : Byte),
    (idx.toNat < 255 → ∃ m, exec (.mwr 0 idx b) s = .next { s with mem := m, result := some (resultWord .ok 0) } ∧
      Stores s.mem m (pbufAddr idx.toNat) [b]) ∧
    (idx.toNat < 515 → ∃ m, exec (.mwr 1 idx b) s = .next { s with mem := m, result := some (resultWord .ok 0) } ∧
      Stores s.mem m (wbufAddr idx.toNat) [b])

/-- For every CH, RRD of 0x00 to 0x08 answers PLEN, WLEN, DLEN, DSTAT, DFIELD, CSUM_R, FATAL, N_CH, BUF_CAP; for a
present channel, RRD of 0x11 to 0x15 answers RX_CNT, RX_ATT, RX_HINT, RX_HINT_CFG, RX_NATT_CFG. Only the result port
changes. (42_access.md (RRD), 10_state.md section 3 (register map)) -/
def Obligations.RrdReadsTheRegister : Prop :=
  (∀ (s : State) (c : Nibble) (r : Byte) (v : Half),
    (r, v) ∈ ([(0x00, s.plen.setWidth 16), (0x01, s.wlen.setWidth 16), (0x02, s.dlen), (0x03, s.dstat.setWidth 16),
      (0x04, s.dfield), (0x05, s.csumR.setWidth 16), (0x06, if s.fatal then 1 else 0),
      (0x07, BitVec.ofNat 16 s.chans.length), (0x08, s.bufCap)] : List (Byte × Half)) →
    exec (.rrd r c) s = .next { s with result := some (resultWord .ok v) }) ∧
  (∀ (s : State) (c : Nibble) (ch : Channel) (r : Byte) (v : Half), s.chan? c = some ch →
    (r, v) ∈ ([(0x11, ch.rxCnt), (0x12, ch.rxAtt), (0x13, ch.rxHint), (0x14, ch.hintCfg), (0x15, ch.nattCfg)] :
      List (Byte × Half)) →
    exec (.rrd r c) s = .next { s with result := some (resultWord .ok v) })

/-- For a present channel whose STARTED condition is st, RRD of 0x10 answers OK and changes nothing else; DATA has ST
in [1:0] (0 IDLE, 1 ACTIVE, 2 DONE), RC in [3:2] (0 NONE, 1 FRAME, 2 TIMEOUT), ESC [4], STARTED [5], F_HINT [6],
F_OVF [7], F_RESYNC [8] and 0 above. STARTED is 1 exactly when RX_CNT >= 1 and RBUF[c][0] is 0x02. (10_state.md
section 5 (RX_STATE and STARTED), 42_access.md (RRD)) -/
def Obligations.RxStateLayout : Prop :=
  (∀ (s : State) (c : Nibble) (ch : Channel) (st : Bool), s.chan? c = some ch → s.started? c ch = some st →
    ∃ v : Half, exec (.rrd 0x10 c) s = .next { s with result := some (resultWord .ok v) } ∧
      v.extractLsb' 0 2 = (match ch.phase with | .idle => 0 | .active => 1 | .done => 2) ∧
      v.extractLsb' 2 2 = (match ch.readEnd with | .none => 0 | .frame => 1 | .timeout => 2) ∧
      v.getLsbD 4 = ch.esc ∧ v.getLsbD 5 = st ∧ v.getLsbD 6 = ch.fHint ∧ v.getLsbD 7 = ch.fOvf ∧
      v.getLsbD 8 = ch.fResync ∧ v.extractLsb' 9 7 = 0) ∧
  (∀ (s : State) (c : Nibble) (ch : Channel), ch.rxCnt = 0 → s.started? c ch = some false) ∧
  (∀ (s : State) (c : Nibble) (ch : Channel) (x : Byte), ch.rxCnt ≠ 0 →
    Memory.read s.mem (rbufAddr c.toNat 0) = some x → s.started? c ch = some (decide (x = 0x02)))

/-- RWR of PLEN with a value up to 255 and of WLEN with a value up to 515, for every CH, and of RX_HINT_CFG and
RX_NATT_CFG of a present channel with any value, answers OK, DATA 0 and writes exactly that register; a read in
progress is not affected. (42_access.md (RWR)) -/
def Obligations.RwrWritesTheRegister : Prop :=
  (∀ (s : State) (v : Half) (c : Nibble), v.toNat ≤ 255 → ∃ n : Byte, n.toNat = v.toNat ∧
    exec (.rwr 0x00 v c) s = .next { s with plen := n, result := some (resultWord .ok 0) }) ∧
  (∀ (s : State) (v : Half) (c : Nibble), v.toNat ≤ 515 → ∃ n : BitVec 10, n.toNat = v.toNat ∧
    exec (.rwr 0x01 v c) s = .next { s with wlen := n, result := some (resultWord .ok 0) }) ∧
  (∀ (s : State) (v : Half) (c : Nibble) (ch : Channel), s.chan? c = some ch →
    exec (.rwr 0x14 v c) s = .next
      { s with chans := s.chans.set c.toNat { ch with hintCfg := v }, result := some (resultWord .ok 0) } ∧
    exec (.rwr 0x15 v c) s = .next
      { s with chans := s.chans.set c.toNat { ch with nattCfg := v }, result := some (resultWord .ok 0) })

/-- In every state RESET answers OK, DATA 0: PLEN, WLEN, DLEN, DFIELD, CSUM_R, FATAL are 0, DSTAT = 0x0FF, every
channel is at its reset values, no byte has a value; N_CH and BUF_CAP, and what waits outside the block, are
unchanged. That stale DBUF and RBUF bytes are discarded too is the model's choice (log entry 7). (42_access.md
(RESET), 70_reset_and_hazards.md section 1) -/
def Obligations.ResetOperation : Prop :=
  ∀ s : State, exec .reset s = .next
    { plen := 0, wlen := 0, dlen := 0, dstat := 0x0FF, dfield := 0, csumR := 0, fatal := false
      bufCap := s.bufCap, mem := [], chans := List.replicate s.chans.length Channel.reset
      result := some (resultWord .ok 0), hostQueue := s.hostQueue, transports := s.transports
      schedule := s.schedule }

/-- Whenever an MRD or RRD answers a next state, it differs only in the result port, and the same read again answers
the same result. (20_memory.md section 3 (no read has a side effect)) -/
def Obligations.ReadsHaveNoSideEffect : Prop :=
  ∀ (i : Instr) (s t : State), (∃ sp idx, i = .mrd sp idx) ∨ (∃ r c, i = .rrd r c) → exec i s = .next t →
    t.noResult = s.noResult ∧ ∃ u, exec i t = .next u ∧ u.result = t.result

/-- For two different writable locations of PBUF or WBUF, after MWR of b to the first and MWR of b2 to the second,
MRD of the first answers b. (20_memory.md section 5 (a value written by one step is seen by every later step)) -/
def Obligations.WriteThenRead : Prop :=
  ∀ (s : State) (sp sp' : Nibble) (idx idx' : Half) (b b' : Byte),
    (sp = 0 ∧ idx.toNat < 255 ∨ sp = 1 ∧ idx.toNat < 515) →
    (sp' = 0 ∧ idx'.toNat < 255 ∨ sp' = 1 ∧ idx'.toNat < 515) → (sp, idx) ≠ (sp', idx') →
    ∃ t, execAll [.mwr sp idx b, .mwr sp' idx' b', .mrd sp idx] s = .next t ∧
      t.result = some (resultWord .ok (b.setWidth 16))

/-- For 1 to 255 bytes the expansion of LOADP runs to a state whose PBUF[0..PLEN-1] is exactly those bytes; for 1 to
515 bytes the expansion of LOADW runs to a state whose WBUF[0..WLEN-1] is. RDCFG runs on a present channel and sets
its two configuration registers. RXS and RXEN add bytes and empty reads, in order, behind what channel c's transport
holds, offer the host nothing, and have the arbiter take them from that transport. That the arbiter takes the line's
events one by one, right after the turns already scheduled and in the line's order, is the model's choice, one of the
orders that R630 leaves free (log entry 16). The words of every line are the words of what it offers. (30_encoding.md
Part B (pseudo-instructions), 70_reset_and_hazards.md section 2) -/
def Obligations.LoadPseudoInstructionsLoad : Prop :=
  (∀ (s : State) (bs : List Byte), 1 ≤ bs.length → bs.length ≤ 255 →
    ∃ t, execAll (expandLoadp bs) s = .next t ∧ t.payload? = some bs ∧ t.plen.toNat = bs.length) ∧
  (∀ (s : State) (bs : List Byte), 1 ≤ bs.length → bs.length ≤ 515 →
    ∃ t, execAll (expandLoadw bs) s = .next t ∧ t.wire? = some bs ∧ t.wlen.toNat = bs.length) ∧
  (∀ (s : State) (c : Nibble) (ch : Channel) (h n : Half), s.chan? c = some ch →
    ∃ t, execAll (expandRdcfg c h n) s = .next t ∧ t.chan? c = some { ch with hintCfg := h, nattCfg := n }) ∧
  (∀ (s : State) (c : Nibble) (es : List RxEvent), s.transports[c.toNat]? = some es →
    (∀ bs : List Byte, s.offerLine (.rxs c bs) =
      { s with
        transports := s.transports.set c.toNat (es ++ bs.map .byte)
        schedule := s.schedule ++ List.replicate bs.length (.grant (.transport c)) }) ∧
    ∀ k : Nat, s.offerLine (.rxen c k) =
      { s with
        transports := s.transports.set c.toNat (es ++ List.replicate k .empty)
        schedule := s.schedule ++ List.replicate k (.grant (.transport c)) }) ∧
  ∀ l : AsmLine, l.words = l.offers.map Offer.word

/-- In State.reset: PLEN, WLEN, DLEN, DFIELD, CSUM_R, FATAL are 0, DSTAT = 0x0FF (STATUS None, DVALID 0), N_CH = 2
channels and BUF_CAP = 515 (the defaults), each channel IDLE, NONE, with every counter, flag and configuration 0;
every address is UNDEF; MRD of DBUF and of each RBUF at any index raises RangeError; rx_ready and rx_done are 0. That
DBUF and RBUF are unwritten too is the model's choice (log entry 7). (70_reset_and_hazards.md section 1) -/
def Obligations.ResetValues : Prop :=
  State.reset.plen = 0 ∧ State.reset.wlen = 0 ∧ State.reset.dlen = 0 ∧ State.reset.dstat = 0x0FF ∧
  State.reset.dfield = 0 ∧ State.reset.csumR = 0 ∧ State.reset.fatal = false ∧ State.reset.bufCap = 515 ∧
  State.reset.chans.length = 2 ∧
  (∀ c ch, State.reset.chan? c = some ch → ch.phase = .idle ∧ ch.readEnd = .none ∧ ch.rxCnt = 0 ∧ ch.esc = false ∧
    ch.rxAtt = 0 ∧ ch.fHint = false ∧ ch.fOvf = false ∧ ch.fResync = false ∧ ch.rxHint = 0 ∧ ch.hintCfg = 0 ∧
    ch.nattCfg = 0) ∧
  (∀ a, Memory.read State.reset.mem a = none) ∧
  (∀ sp idx, 2 ≤ BitVec.toNat sp → exec (.mrd sp idx) State.reset =
    .next { State.reset with result := some (resultWord .rangeError 0) }) ∧
  (∀ c, State.reset.rxReady c = false ∧ State.reset.rxDone c = false)

/-- For every N_CH in 1..8 and BUF_CAP in 515..65535 the power-on state has the invariant; so has State.reset.
(70_reset_and_hazards.md section 1, 00_scope.md section 4) -/
def Obligations.InvariantHoldsAtReset : Prop :=
  (∀ (n : Nat) (cap : Half), Config.legalParams n cap.toNat = true → (State.powerOn n cap).Inv) ∧ State.reset.Inv

/-- For every state with Inv, whatever waits at the ports, the schedule and the parameters, if step answers next t
then t has Inv. (10_state.md sections 4 and 5, 20_memory.md section 1, 40_codec.md section 1 (decode outputs)) -/
def Obligations.InvariantKeptByEveryStep : Prop :=
  ∀ s t : State, s.Inv → step s = .next t → t.Inv

/-- For every state with Inv, step never answers a refusal, and if it answers a fault, the agent the turn grants
offers the word of an operation that reads an UNDEF byte: ENC (with FATAL = 0) or CSUM over PBUF[0..PLEN-1] with an
UNDEF byte, DECW over WBUF[0..WLEN-1] with one, or MRD of an UNDEF byte of PBUF or WBUF in range.
(93_implementation_defined.md I1, 20_memory.md section 1 (no readable RBUF byte is UNDEF), 60_exceptions.md section 1
(the status model)) -/
def Obligations.StepNeverStopsButOnUndef : Prop :=
  ∀ s : State, s.Inv →
    (∀ r, step s ≠ .refused r) ∧
    ∀ f, step s = .fault f → f = .undefByte ∧ ∃ a rest w i, s.schedule = .grant a :: rest ∧ s.offered a = some w ∧
      decode w = .ok i ∧ ReadsUndef s i

/-- In a state with the invariant: while DVALID = 1, DBUF[0..DLEN-1] is a de-escaped frame that passed every check
and STATUS is OK; while DVALID = 0, DLEN = 0, nothing is consumable, and MRD of DBUF at any index raises RangeError.
(10_state.md section 4 (DSTAT and DVALID), 20_memory.md section 1 (DBUF)) -/
def Obligations.FailedDecodeIsUnreadable : Prop :=
  ∀ s : State, s.Inv →
    (s.dvalid = true → s.dstatus = 0x00 ∧ ∃ de, s.consumable = some de ∧ FrameChecked de) ∧
    (s.dvalid = false → s.dstatus ≠ 0x00 ∧ s.dlen = 0 ∧ s.consumable = none ∧
      ∀ idx, exec (.mrd 2 idx) s = .next { s with result := some (resultWord .rangeError 0) })

/-- If an operation changes PLEN it is RWR of 0x00 or RESET; WLEN: ENC, RWR of 0x01 or RESET; DLEN, DSTAT or DFIELD:
DECW, DECR or RESET; CSUM_R: ENC, CSUM or RESET; FATAL: ENC or RESET. No operation changes N_CH or BUF_CAP.
(10_state.md section 4 (global registers)) -/
def Obligations.GlobalRegistersHaveTheirWriters : Prop :=
  ∀ (i : Instr) (s t : State), exec i s = .next t →
    (t.plen ≠ s.plen → i = .reset ∨ ∃ v c, i = .rwr 0x00 v c) ∧
    (t.wlen ≠ s.wlen → i = .enc ∨ i = .reset ∨ ∃ v c, i = .rwr 0x01 v c) ∧
    (t.dlen ≠ s.dlen ∨ t.dstat ≠ s.dstat ∨ t.dfield ≠ s.dfield → i = .decw ∨ i = .reset ∨ ∃ c, i = .decr c) ∧
    (t.csumR ≠ s.csumR → i = .enc ∨ i = .csum ∨ i = .reset) ∧
    (t.fatal ≠ s.fatal → i = .enc ∨ i = .reset) ∧ t.chans.length = s.chans.length ∧ t.bufCap = s.bufCap

/-- If an operation changes RX_CNT of channel c it is RDSTART c, RXB c or RESET; ESC, F_OVF, F_RESYNC, F_HINT: the
same; RX_ATT: RDSTART c, RXE c or RESET; RX_HINT: RDSTART c or RESET; RX_HINT_CFG: RWR of 0x14 or RESET; RX_NATT_CFG:
RWR of 0x15 or RESET; ST or RC: RDSTART c, RXB c, RXE c or RESET. (10_state.md section 5 (per-channel registers)) -/
def Obligations.ChannelRegistersHaveTheirWriters : Prop :=
  ∀ (i : Instr) (s t : State) (c : Nibble) (ch ch' : Channel), exec i s = .next t → i ≠ .reset →
    s.chan? c = some ch → t.chan? c = some ch' →
    (ch'.rxCnt ≠ ch.rxCnt ∨ ch'.esc ≠ ch.esc ∨ ch'.fOvf ≠ ch.fOvf ∨ ch'.fResync ≠ ch.fResync ∨ ch'.fHint ≠ ch.fHint →
      i = .rdstart c ∨ ∃ b, i = .rxb c b) ∧
    (ch'.rxAtt ≠ ch.rxAtt → i = .rdstart c ∨ i = .rxe c) ∧ (ch'.rxHint ≠ ch.rxHint → i = .rdstart c) ∧
    (ch'.hintCfg ≠ ch.hintCfg → ∃ v, i = .rwr 0x14 v c) ∧ (ch'.nattCfg ≠ ch.nattCfg → ∃ v, i = .rwr 0x15 v c) ∧
    (ch'.phase ≠ ch.phase ∨ ch'.readEnd ≠ ch.readEnd → i = .rdstart c ∨ i = .rxe c ∨ ∃ b, i = .rxb c b)

/-- If an operation other than RESET changes the byte at index k of PBUF it is MWR of space 0 at k; of WBUF: ENC, or
MWR of space 1 at k; of DBUF: DECW or DECR; of RBUF[c]: RXB c. (20_memory.md section 1 (address spaces)) -/
def Obligations.SpacesHaveTheirWriters : Prop :=
  ∀ (i : Instr) (s t : State) (k : Nat), exec i s = .next t → i ≠ .reset → k < 65536 →
    (Memory.read t.mem (pbufAddr k) ≠ Memory.read s.mem (pbufAddr k) →
      ∃ idx b, i = .mwr 0 idx b ∧ idx.toNat = k ∧ k < 255) ∧
    (Memory.read t.mem (wbufAddr k) ≠ Memory.read s.mem (wbufAddr k) →
      (i = .enc ∨ ∃ idx b, i = .mwr 1 idx b ∧ idx.toNat = k) ∧ k < 515) ∧
    (Memory.read t.mem (dbufAddr k) ≠ Memory.read s.mem (dbufAddr k) → i = .decw ∨ ∃ c, i = .decr c) ∧
    (∀ c : Nibble, Memory.read t.mem (rbufAddr c.toNat k) ≠ Memory.read s.mem (rbufAddr c.toNat k) →
      ∃ b, i = .rxb c b)

/-- For every operation but ENC, RESET and the RRD of FATAL itself, changing FATAL before it only changes FATAL after
it; RESET does not depend on FATAL at all, and only RESET clears it. (60_exceptions.md section 4 (FATAL)) -/
def Obligations.OnlyEncReadsFatal : Prop :=
  (∀ (i : Instr) (s : State) (b : Bool), i ≠ .enc → i ≠ .reset → (∀ c, i ≠ .rrd 0x06 c) →
    (∀ t, exec i s = .next t → exec i { s with fatal := b } = .next { t with fatal := b }) ∧
    (∀ f, exec i s = .fault f → exec i { s with fatal := b } = .fault f)) ∧
  (∀ (s : State) (b : Bool), exec .reset { s with fatal := b } = exec .reset s) ∧
  (∀ (i : Instr) (s t : State), s.fatal = true → i ≠ .reset → exec i s = .next t → t.fatal = true)
end

