-- ==== Sys2Proof/Laws/Assembler.lean ====
section
/-! SUPPORT. What an offer of the assembler's lines changes: one lemma per field of the state, then lists of offers. -/

namespace Sys2Proof.Machine

/-! ### One offer -/

@[simp] theorem Offer.word_host (w : Word) : (Offer.host w).word = w := rfl
@[simp] theorem Offer.word_port (c : Nibble) (e : RxEvent) : (Offer.port c e).word = e.word c := rfl
@[simp] theorem Offer.agent_host (w : Word) : (Offer.host w).agent = .host := rfl
@[simp] theorem Offer.agent_port (c : Nibble) (e : RxEvent) : (Offer.port c e).agent = .transport c := rfl

@[simp] theorem State.offer_host (s : State) (w : Word) :
    s.offer (.host w) = { s with hostQueue := s.hostQueue ++ [w] } := rfl

@[simp] theorem State.offer_port (s : State) (c : Nibble) (e : RxEvent) :
    s.offer (.port c e) = { s with transports := s.transports.modify c.toNat (fun es => es ++ [e]) } := rfl

@[simp] theorem State.offer_plen (s : State) (o : Offer) : (s.offer o).plen = s.plen := by cases o <;> rfl
@[simp] theorem State.offer_wlen (s : State) (o : Offer) : (s.offer o).wlen = s.wlen := by cases o <;> rfl
@[simp] theorem State.offer_dlen (s : State) (o : Offer) : (s.offer o).dlen = s.dlen := by cases o <;> rfl
@[simp] theorem State.offer_dstat (s : State) (o : Offer) : (s.offer o).dstat = s.dstat := by cases o <;> rfl
@[simp] theorem State.offer_dfield (s : State) (o : Offer) : (s.offer o).dfield = s.dfield := by cases o <;> rfl
@[simp] theorem State.offer_csumR (s : State) (o : Offer) : (s.offer o).csumR = s.csumR := by cases o <;> rfl
@[simp] theorem State.offer_fatal (s : State) (o : Offer) : (s.offer o).fatal = s.fatal := by cases o <;> rfl
@[simp] theorem State.offer_bufCap (s : State) (o : Offer) : (s.offer o).bufCap = s.bufCap := by cases o <;> rfl
@[simp] theorem State.offer_mem (s : State) (o : Offer) : (s.offer o).mem = s.mem := by cases o <;> rfl
@[simp] theorem State.offer_chans (s : State) (o : Offer) : (s.offer o).chans = s.chans := by cases o <;> rfl
@[simp] theorem State.offer_result (s : State) (o : Offer) : (s.offer o).result = s.result := by cases o <;> rfl
@[simp] theorem State.offer_schedule (s : State) (o : Offer) : (s.offer o).schedule = s.schedule := by cases o <;> rfl

/-! ### Lists of offers -/

/-- Offers of the host alone add their words to its queue and change nothing else. -/
theorem foldl_offer_host (ws : List Word) (s : State) :
    (ws.map Offer.host).foldl State.offer s = { s with hostQueue := s.hostQueue ++ ws } := by
  induction ws generalizing s with
  | nil => simp
  | cons w ws ih => simp only [List.map_cons, List.foldl_cons, ih, State.offer_host, List.append_assoc, List.singleton_append]

/-- Offers on channel `c`'s port alone add their events to its transport and change nothing else. -/
theorem foldl_offer_port (c : Nibble) (es : List RxEvent) (s : State) :
    (es.map (Offer.port c)).foldl State.offer s =
      { s with transports := s.transports.modify c.toNat (fun l => l ++ es) } := by
  induction es generalizing s with
  | nil => simp only [List.map_nil, List.foldl_nil, List.append_nil]; rw [show (fun l : List RxEvent => l) = id from rfl, List.modify_id]
  | cons e es ih =>
    simp only [List.map_cons, List.foldl_cons, ih, State.offer_port, List.modify_modify_eq]
    congr 2
    funext l
    simp

end Sys2Proof.Machine
end

