-- ==== Sys2Proof/Laws/Codec.lean ====
section
/-! SUPPORT. The codec's pure functions: the scan taken one byte at a time and over an escaped run, lengths, the checksum. -/

namespace Sys2Proof.Machine

/-! ### Classes -/

theorem cls_len (e : Bool) (b : Byte) : cls 1 true e b = .len := by simp [cls]

theorem cls_start (st e : Bool) : cls 0 st e Config.startMarker = .start := by simp [cls]

/-- Past the LEN position the class depends on the escape bit and the value alone. -/
theorem cls_body {k : Nat} (hk : 2 ≤ k) (st e : Bool) (b : Byte) :
    cls k st e b =
      if e = true then .literal else if b = Config.escape then .esc else if b = Config.endMarker then .endMark
      else .data := by
  unfold cls
  rw [if_neg (by omega), if_neg (by omega)]

/-- An END byte is 0x03 with no escape pending, not at the LEN position. -/
theorem cls_endMark {k : Nat} {st e : Bool} {b : Byte} (h : cls k st e b = .endMark) :
    b = Config.endMarker ∧ e = false ∧ ¬(k = 1 ∧ st = true) := by
  unfold cls at h
  split_ifs at h with h₁ h₂ h₃ h₄ h₅
  exact ⟨h₅, by simpa using h₃, h₁⟩

theorem escAfter_endMark {k : Nat} {st e : Bool} {b : Byte} (h : cls k st e b = .endMark) :
    escAfter (cls k st e b) e = false := by
  rw [h]; exact (cls_endMark h).2.1

/-! ### The scan, one byte at a time -/

theorem scanFrom_cons_esc {st : Bool} {k : Nat} {e : Bool} {b : Byte} (bs : List Byte) (h : cls k st e b = .esc) :
    scanFrom st k e (b :: bs) = scanFrom st (k + 1) true bs := by
  simp only [scanFrom, h]

theorem scanFrom_cons_endMark {st : Bool} {k : Nat} {e : Bool} {b : Byte} (bs : List Byte)
    (h : cls k st e b = .endMark) : scanFrom st k e (b :: bs) = ([b], some k) := by
  simp only [scanFrom, h]

theorem scanFrom_cons_kept {st : Bool} {k : Nat} {e : Bool} {b : Byte} (bs : List Byte)
    (h₁ : cls k st e b ≠ .esc) (h₂ : cls k st e b ≠ .endMark) :
    scanFrom st k e (b :: bs) =
      (b :: (scanFrom st (k + 1) (escAfter (cls k st e b) e) bs).1,
        (scanFrom st (k + 1) (escAfter (cls k st e b) e) bs).2) := by
  simp only [scanFrom]

/-- The scan keeps at most the bytes it is given. -/
theorem scanFrom_length_le (st : Bool) (k : Nat) (e : Bool) (raw : List Byte) :
    (scanFrom st k e raw).1.length ≤ raw.length := by
  induction raw generalizing k e with
  | nil => simp [scanFrom]
  | cons b bs ih =>
    by_cases h₁ : cls k st e b = .esc
    · rw [scanFrom_cons_esc bs h₁]; have := ih (k + 1) true; simp only [List.length_cons]; omega
    · by_cases h₂ : cls k st e b = .endMark
      · rw [scanFrom_cons_endMark bs h₂]; simp
      · rw [scanFrom_cons_kept bs h₁ h₂]
        have := ih (k + 1) (escAfter (cls k st e b) e)
        simp only [List.length_cons]; omega

/-- A scan that meets no end marker in its first bytes goes on after them with the escape bit `scanEsc` gives. -/
theorem scanFrom_append (st : Bool) (a b : List Byte) {k : Nat} {e : Bool} (h : (scanFrom st k e a).2 = none) :
    scanFrom st k e (a ++ b) =
      ((scanFrom st k e a).1 ++ (scanFrom st (k + a.length) (scanEsc st k e a) b).1,
        (scanFrom st (k + a.length) (scanEsc st k e a) b).2) := by
  induction a generalizing k e with
  | nil => rfl
  | cons x a ih =>
    by_cases h₁ : cls k st e x = .esc
    · rw [scanFrom_cons_esc a h₁] at h ⊢
      rw [List.cons_append, scanFrom_cons_esc _ h₁, ih h, scanEsc, h₁, List.length_cons, Nat.add_right_comm, Nat.add_assoc]
      rfl
    · by_cases h₂ : cls k st e x = .endMark
      · rw [scanFrom_cons_endMark a h₂] at h; cases h
      · rw [scanFrom_cons_kept a h₁ h₂] at h ⊢
        rw [List.cons_append, scanFrom_cons_kept _ h₁ h₂, ih h, scanEsc, List.length_cons, Nat.add_right_comm, Nat.add_assoc]
        rfl

theorem scan_length_le (raw : List Byte) : (scan raw).1.length ≤ raw.length := scanFrom_length_le _ _ _ _

/-- Over an escaped run, past the LEN position and with no escape pending, the scan gives the bytes that were escaped. -/
theorem scanFrom_escaped (st : Bool) (l rest : List Byte) {k : Nat} (hk : 2 ≤ k) :
    scanFrom st k false (l.flatMap esc ++ rest) =
      (l ++ (scanFrom st (k + (l.flatMap esc).length) false rest).1,
        (scanFrom st (k + (l.flatMap esc).length) false rest).2) := by
  induction l generalizing k with
  | nil => simp
  | cons b l ih =>
    by_cases hb : b = Config.endMarker ∨ b = Config.escape
    · have he : esc b = [Config.escape, b] := by simp [esc, hb]
      have h₁ : cls k st false Config.escape = .esc := by rw [cls_body hk]; simp
      have h₂ : cls (k + 1) st true b = .literal := by rw [cls_body (by omega)]; simp
      simp only [List.flatMap_cons, he, List.cons_append, List.nil_append]
      rw [scanFrom_cons_esc _ h₁, scanFrom_cons_kept _ (by simp [h₂]) (by simp [h₂]), h₂]
      simp only [escAfter, ih (show 2 ≤ k + 1 + 1 by omega), List.length_cons]
      rw [show k + 1 + 1 + (l.flatMap esc).length = k + ((l.flatMap esc).length + 1 + 1) by omega]
    · have he : esc b = [b] := by simp [esc, hb]
      have h₁ : cls k st false b = .data := by
        rw [cls_body hk]; simp only [not_or] at hb; simp [hb.1, hb.2]
      simp only [List.flatMap_cons, he, List.cons_append, List.nil_append]
      rw [scanFrom_cons_kept _ (by simp [h₁]) (by simp [h₁]), h₁]
      simp only [escAfter, ih (show 2 ≤ k + 1 by omega), List.length_cons]
      rw [show k + 1 + (l.flatMap esc).length = k + ((l.flatMap esc).length + 1) by omega]

/-! ### Lengths and the checksum -/

theorem esc_length (b : Byte) : 1 ≤ (esc b).length ∧ (esc b).length ≤ 2 := by
  unfold esc; split_ifs <;> simp

theorem flatMap_esc_length (l : List Byte) :
    l.length ≤ (l.flatMap esc).length ∧ (l.flatMap esc).length ≤ 2 * l.length := by
  induction l with
  | nil => simp
  | cons b l ih =>
    have := esc_length b
    simp only [List.flatMap_cons, List.length_append, List.length_cons]
    omega

theorem checksum_nil (len : Byte) : checksum len [] = len := rfl

theorem checksum_cons (len b : Byte) (p : List Byte) : checksum len (b :: p) = checksum (len + b) p := rfl

theorem checksum_append (len : Byte) (p q : List Byte) : checksum len (p ++ q) = checksum (checksum len p) q := by
  simp [checksum]

theorem slice_length (l : List Byte) (i j : Nat) : (slice l i j).length = min (j + 1 - i) (l.length - i) := by
  simp [slice]

end Sys2Proof.Machine
end

