-- ==== Sys2Proof/Laws/Memory.lean ====
section
/-! SUPPORT. The laws of memory: a read after a write, what a write leaves alone, lists of bytes, and the canonical form, which
every memory operation keeps and in which equal reads mean equal memories. -/

namespace Sys2Proof.Machine

theorem Memory.read_write_same (m : Memory) (a : Nat) (b : Byte) : Memory.read (Memory.write m a b) a = some b := by
  induction m with
  | nil => simp [Memory.write, Memory.read]
  | cons c m ih =>
    unfold Memory.write
    split_ifs with h₁ h₂
    · simp [Memory.read]
    · simp [Memory.read]
    · simp [Memory.read, Ne.symm h₂, ih]

theorem Memory.read_write_ne (m : Memory) {a a' : Nat} (b : Byte) (h : a' ≠ a) :
    Memory.read (Memory.write m a b) a' = Memory.read m a' := by
  induction m with
  | nil => simp [Memory.write, Memory.read, h.symm]
  | cons c m ih =>
    unfold Memory.write
    split_ifs with h₁ h₂
    · simp [Memory.read, h.symm]
    · simp [Memory.read, ← h₂, h.symm]
    · simp [Memory.read, ih]

theorem Memory.read_writeList_outside (bs : List Byte) (m : Memory) (a a' : Nat)
    (h : a' < a ∨ a + bs.length ≤ a') : Memory.read (Memory.writeList m a bs) a' = Memory.read m a' := by
  induction bs generalizing m a with
  | nil => rfl
  | cons b bs ih =>
    simp only [List.length_cons] at h
    rw [Memory.writeList, ih _ _ (by omega), Memory.read_write_ne _ _ (by omega)]

theorem Memory.read_writeList_inside (bs : List Byte) (m : Memory) (a i : Nat) (h : i < bs.length) :
    Memory.read (Memory.writeList m a bs) (a + i) = bs[i]? := by
  induction bs generalizing m a i with
  | nil => simp at h
  | cons b bs ih =>
    rw [Memory.writeList]
    cases i with
    | zero => rw [Memory.read_writeList_outside _ _ _ _ (by omega)]; simp [Memory.read_write_same]
    | succ i =>
      have := ih (Memory.write m a b) (a + 1) i (by simpa using h)
      rw [show a + (i + 1) = a + 1 + i by omega, this]
      simp

/-- Everything `readList` can say: the bytes it gives are the bytes that stand there, and it fails only on an UNDEF one. -/
theorem Memory.readList_eq_some (m : Memory) (a n : Nat) (bs : List Byte) :
    Memory.readList m a n = some bs ↔ bs.length = n ∧ ∀ i, i < n → Memory.read m (a + i) = bs[i]? := by
  induction n generalizing a bs with
  | zero => simp only [Memory.readList, Option.some.injEq]; constructor
            · rintro rfl; simp
            · rintro ⟨h, -⟩; exact (List.length_eq_zero_iff.mp h).symm
  | succ n ih =>
    constructor
    · intro h
      unfold Memory.readList at h
      split at h
      · next b bs' hb hbs =>
        obtain rfl := Option.some.inj h
        obtain ⟨hl, hr⟩ := (ih _ _).mp hbs
        refine ⟨by simp [hl], fun i hi => ?_⟩
        cases i with
        | zero => simpa using hb
        | succ i => simpa [show a + (i + 1) = a + 1 + i by omega] using hr i (by omega)
      · exact absurd h (by simp)
    · rintro ⟨hl, hr⟩
      match bs, hl with
      | b :: bs', hl =>
        have h0 : Memory.read m a = some b := by simpa using hr 0 (by omega)
        have h1 : Memory.readList m (a + 1) n = some bs' := by
          refine (ih _ _).mpr ⟨by simpa using hl, fun i hi => ?_⟩
          simpa [show a + (i + 1) = a + 1 + i by omega] using hr (i + 1) (by omega)
        simp [Memory.readList, h0, h1]

theorem Memory.readList_eq_none (m : Memory) (a n : Nat) :
    Memory.readList m a n = none ↔ ∃ i, i < n ∧ Memory.read m (a + i) = none := by
  induction n generalizing a with
  | zero => simp [Memory.readList]
  | succ n ih =>
    constructor
    · intro h
      cases h0 : Memory.read m a with
      | none => exact ⟨0, by omega, by simpa using h0⟩
      | some b =>
        have : Memory.readList m (a + 1) n = none := by
          cases h1 : Memory.readList m (a + 1) n with
          | none => rfl
          | some bs => simp [Memory.readList, h0, h1] at h
        obtain ⟨i, hi, hr⟩ := (ih _).mp this
        exact ⟨i + 1, by omega, by rwa [show a + (i + 1) = a + 1 + i by omega]⟩
    · rintro ⟨i, hi, hr⟩
      cases i with
      | zero => simp only [Nat.add_zero] at hr; simp [Memory.readList, hr]
      | succ i =>
        have := (ih (a + 1)).mpr ⟨i, by omega, by rwa [show a + 1 + i = a + (i + 1) by omega]⟩
        simp [Memory.readList, this]

theorem Memory.readList_congr {m m' : Memory} (a n : Nat)
    (h : ∀ i, i < n → Memory.read m (a + i) = Memory.read m' (a + i)) :
    Memory.readList m a n = Memory.readList m' a n := by
  induction n generalizing a with
  | zero => rfl
  | succ n ih =>
    have h0 : Memory.read m a = Memory.read m' a := by simpa using h 0 (by omega)
    have h1 := ih (a + 1) fun i hi => by
      rw [show a + 1 + i = a + (i + 1) by omega]; exact h (i + 1) (by omega)
    simp only [Memory.readList, h0, h1]

theorem Memory.readList_writeList (m : Memory) (a : Nat) (bs : List Byte) :
    Memory.readList (Memory.writeList m a bs) a bs.length = some bs :=
  (Memory.readList_eq_some _ _ _ _).mpr ⟨rfl, fun i hi => Memory.read_writeList_inside bs m a i hi⟩

/-! ### The canonical form -/

theorem Memory.wf_tail {c : Host.Cell} {m : Memory} (h : Memory.wf (c :: m) = true) : Memory.wf m = true := by
  cases m with
  | nil => rfl
  | cons d m => simp [Memory.wf] at h; exact h.2

theorem Memory.wf_lt {c : Host.Cell} {m : Memory} (h : Memory.wf (c :: m) = true) : ∀ d, d ∈ m → c.1 < d.1 := by
  induction m generalizing c with
  | nil => simp
  | cons d m ih =>
    simp only [Memory.wf, Bool.and_eq_true, decide_eq_true_eq] at h
    intro e he
    rcases List.mem_cons.mp he with rfl | he
    · exact h.1
    · exact lt_trans h.1 (ih h.2 e he)

theorem Memory.wf_cons {c : Host.Cell} {m : Memory} (hm : Memory.wf m = true) (h : ∀ d, d ∈ m → c.1 < d.1) :
    Memory.wf (c :: m) = true := by
  cases m with
  | nil => rfl
  | cons d m => simp [Memory.wf, hm, h d (by simp)]

theorem Memory.mem_write {m : Memory} {a : Nat} {b : Byte} {d : Host.Cell} (h : d ∈ Memory.write m a b) :
    d = (a, b) ∨ d ∈ m := by
  induction m with
  | nil => simpa [Memory.write] using h
  | cons c m ih =>
    unfold Memory.write at h
    split_ifs at h with h₁ h₂
    · simpa using h
    · rcases List.mem_cons.mp h with h | h
      · exact .inl h
      · exact .inr (List.mem_cons_of_mem _ h)
    · rcases List.mem_cons.mp h with h | h
      · exact .inr (by simp [h])
      · rcases ih h with h | h
        · exact .inl h
        · exact .inr (List.mem_cons_of_mem _ h)

theorem Memory.wf_write {m : Memory} (h : Memory.wf m = true) (a : Nat) (b : Byte) :
    Memory.wf (Memory.write m a b) = true := by
  induction m with
  | nil => rfl
  | cons c m ih =>
    have hlt := Memory.wf_lt h
    unfold Memory.write
    split_ifs with h₁ h₂
    · refine Memory.wf_cons h fun d hd => ?_
      rcases List.mem_cons.mp hd with rfl | hd
      · exact h₁
      · exact lt_trans h₁ (hlt d hd)
    · exact Memory.wf_cons (Memory.wf_tail h) fun d hd => by simpa [h₂] using hlt d hd
    · refine Memory.wf_cons (ih (Memory.wf_tail h)) fun d hd => ?_
      rcases Memory.mem_write hd with rfl | hd
      · simp only; omega
      · exact hlt d hd

theorem Memory.wf_writeList {m : Memory} (h : Memory.wf m = true) (a : Nat) (bs : List Byte) :
    Memory.wf (Memory.writeList m a bs) = true := by
  induction bs generalizing m a with
  | nil => exact h
  | cons b bs ih => exact ih (Memory.wf_write h a b) (a + 1)

theorem Memory.mem_writeList {m : Memory} {a : Nat} {bs : List Byte} {d : Host.Cell}
    (h : d ∈ Memory.writeList m a bs) : d ∈ m ∨ (a ≤ d.1 ∧ d.1 < a + bs.length) := by
  induction bs generalizing m a with
  | nil => exact .inl h
  | cons b bs ih =>
    rcases ih (m := Memory.write m a b) (a := a + 1) h with h | h
    · rcases Memory.mem_write h with rfl | h
      · exact .inr (by simp)
      · exact .inl h
    · exact .inr (by simp only [List.length_cons]; omega)

theorem Memory.read_eq_none_of_lt {m : Memory} {a : Nat} (h : ∀ d, d ∈ m → a < d.1) : Memory.read m a = none := by
  induction m with
  | nil => rfl
  | cons c m ih =>
    have h0 := h c (by simp)
    rw [Memory.read, if_neg (by omega)]
    exact ih fun d hd => h d (List.mem_cons_of_mem _ hd)

/-- In canonical form, memories that read the same are the same data. -/
theorem Memory.ext_of_wf {m m' : Memory} (h : Memory.wf m = true) (h' : Memory.wf m' = true)
    (hr : ∀ a, Memory.read m a = Memory.read m' a) : m = m' := by
  induction m generalizing m' with
  | nil =>
    cases m' with
    | nil => rfl
    | cons c m' => simpa [Memory.read] using hr c.1
  | cons c m ih =>
    cases m' with
    | nil => simpa [Memory.read] using hr c.1
    | cons c' m' =>
      have hlt := Memory.wf_lt h
      have hlt' := Memory.wf_lt h'
      have key : c.1 = c'.1 := by
        rcases Nat.lt_trichotomy c.1 c'.1 with hc | hc | hc
        · have : Memory.read (c' :: m') c.1 = none := Memory.read_eq_none_of_lt fun d hd => by
            rcases List.mem_cons.mp hd with rfl | hd
            · exact hc
            · exact lt_trans hc (hlt' d hd)
          have h1 := hr c.1
          rw [this] at h1
          simp [Memory.read] at h1
        · exact hc
        · have : Memory.read (c :: m) c'.1 = none := Memory.read_eq_none_of_lt fun d hd => by
            rcases List.mem_cons.mp hd with rfl | hd
            · exact hc
            · exact lt_trans hc (hlt d hd)
          have h1 := hr c'.1
          rw [this] at h1
          simp [Memory.read] at h1
      have hv : c.2 = c'.2 := by simpa [Memory.read, key] using hr c.1
      have htl : m = m' := ih (Memory.wf_tail h) (Memory.wf_tail h') fun a => by
        by_cases ha : a = c.1
        · rw [Memory.read_eq_none_of_lt fun d hd => ha ▸ hlt d hd,
            Memory.read_eq_none_of_lt fun d hd => ha ▸ key ▸ hlt' d hd]
        · simpa [Memory.read, Ne.symm ha, Ne.symm (key ▸ ha : ¬ a = c'.1)] using hr a
      rw [htl, Prod.ext key hv]

end Sys2Proof.Machine
end

