-- ==== Sys2Proof/Laws/State.lean ====
section
/-! SUPPORT. One lemma per field per named update of `State` and of `Channel`, true by rfl, so that no later proof unfolds a
record update. -/

namespace Sys2Proof.Machine

/-! ### putResult -/

@[simp] theorem State.putResult_plen (s : State) (w : Word) : (s.putResult w).plen = s.plen := rfl
@[simp] theorem State.putResult_wlen (s : State) (w : Word) : (s.putResult w).wlen = s.wlen := rfl
@[simp] theorem State.putResult_dlen (s : State) (w : Word) : (s.putResult w).dlen = s.dlen := rfl
@[simp] theorem State.putResult_dstat (s : State) (w : Word) : (s.putResult w).dstat = s.dstat := rfl
@[simp] theorem State.putResult_dfield (s : State) (w : Word) : (s.putResult w).dfield = s.dfield := rfl
@[simp] theorem State.putResult_csumR (s : State) (w : Word) : (s.putResult w).csumR = s.csumR := rfl
@[simp] theorem State.putResult_fatal (s : State) (w : Word) : (s.putResult w).fatal = s.fatal := rfl
@[simp] theorem State.putResult_bufCap (s : State) (w : Word) : (s.putResult w).bufCap = s.bufCap := rfl
@[simp] theorem State.putResult_mem (s : State) (w : Word) : (s.putResult w).mem = s.mem := rfl
@[simp] theorem State.putResult_chans (s : State) (w : Word) : (s.putResult w).chans = s.chans := rfl
@[simp] theorem State.putResult_result (s : State) (w : Word) : (s.putResult w).result = some w := rfl
@[simp] theorem State.putResult_hostQueue (s : State) (w : Word) : (s.putResult w).hostQueue = s.hostQueue := rfl
@[simp] theorem State.putResult_transports (s : State) (w : Word) : (s.putResult w).transports = s.transports := rfl
@[simp] theorem State.putResult_schedule (s : State) (w : Word) : (s.putResult w).schedule = s.schedule := rfl

/-! ### putMem -/

@[simp] theorem State.putMem_plen (s : State) (m : Memory) : (s.putMem m).plen = s.plen := rfl
@[simp] theorem State.putMem_wlen (s : State) (m : Memory) : (s.putMem m).wlen = s.wlen := rfl
@[simp] theorem State.putMem_dlen (s : State) (m : Memory) : (s.putMem m).dlen = s.dlen := rfl
@[simp] theorem State.putMem_dstat (s : State) (m : Memory) : (s.putMem m).dstat = s.dstat := rfl
@[simp] theorem State.putMem_dfield (s : State) (m : Memory) : (s.putMem m).dfield = s.dfield := rfl
@[simp] theorem State.putMem_csumR (s : State) (m : Memory) : (s.putMem m).csumR = s.csumR := rfl
@[simp] theorem State.putMem_fatal (s : State) (m : Memory) : (s.putMem m).fatal = s.fatal := rfl
@[simp] theorem State.putMem_bufCap (s : State) (m : Memory) : (s.putMem m).bufCap = s.bufCap := rfl
@[simp] theorem State.putMem_mem (s : State) (m : Memory) : (s.putMem m).mem = m := rfl
@[simp] theorem State.putMem_chans (s : State) (m : Memory) : (s.putMem m).chans = s.chans := rfl
@[simp] theorem State.putMem_result (s : State) (m : Memory) : (s.putMem m).result = s.result := rfl
@[simp] theorem State.putMem_hostQueue (s : State) (m : Memory) : (s.putMem m).hostQueue = s.hostQueue := rfl
@[simp] theorem State.putMem_transports (s : State) (m : Memory) : (s.putMem m).transports = s.transports := rfl
@[simp] theorem State.putMem_schedule (s : State) (m : Memory) : (s.putMem m).schedule = s.schedule := rfl

/-! ### putChan -/

@[simp] theorem State.putChan_plen (s : State) (c : Nibble) (ch : Channel) : (s.putChan c ch).plen = s.plen := rfl
@[simp] theorem State.putChan_wlen (s : State) (c : Nibble) (ch : Channel) : (s.putChan c ch).wlen = s.wlen := rfl
@[simp] theorem State.putChan_dlen (s : State) (c : Nibble) (ch : Channel) : (s.putChan c ch).dlen = s.dlen := rfl
@[simp] theorem State.putChan_dstat (s : State) (c : Nibble) (ch : Channel) : (s.putChan c ch).dstat = s.dstat := rfl
@[simp] theorem State.putChan_dfield (s : State) (c : Nibble) (ch : Channel) : (s.putChan c ch).dfield = s.dfield := rfl
@[simp] theorem State.putChan_csumR (s : State) (c : Nibble) (ch : Channel) : (s.putChan c ch).csumR = s.csumR := rfl
@[simp] theorem State.putChan_fatal (s : State) (c : Nibble) (ch : Channel) : (s.putChan c ch).fatal = s.fatal := rfl
@[simp] theorem State.putChan_bufCap (s : State) (c : Nibble) (ch : Channel) : (s.putChan c ch).bufCap = s.bufCap := rfl
@[simp] theorem State.putChan_mem (s : State) (c : Nibble) (ch : Channel) : (s.putChan c ch).mem = s.mem := rfl
@[simp] theorem State.putChan_chans (s : State) (c : Nibble) (ch : Channel) : (s.putChan c ch).chans = s.chans.set c.toNat ch := rfl
@[simp] theorem State.putChan_result (s : State) (c : Nibble) (ch : Channel) : (s.putChan c ch).result = s.result := rfl
@[simp] theorem State.putChan_hostQueue (s : State) (c : Nibble) (ch : Channel) : (s.putChan c ch).hostQueue = s.hostQueue := rfl
@[simp] theorem State.putChan_transports (s : State) (c : Nibble) (ch : Channel) : (s.putChan c ch).transports = s.transports := rfl
@[simp] theorem State.putChan_schedule (s : State) (c : Nibble) (ch : Channel) : (s.putChan c ch).schedule = s.schedule := rfl

/-! ### nextTurn -/

@[simp] theorem State.nextTurn_plen (s : State) : (s.nextTurn).plen = s.plen := rfl
@[simp] theorem State.nextTurn_wlen (s : State) : (s.nextTurn).wlen = s.wlen := rfl
@[simp] theorem State.nextTurn_dlen (s : State) : (s.nextTurn).dlen = s.dlen := rfl
@[simp] theorem State.nextTurn_dstat (s : State) : (s.nextTurn).dstat = s.dstat := rfl
@[simp] theorem State.nextTurn_dfield (s : State) : (s.nextTurn).dfield = s.dfield := rfl
@[simp] theorem State.nextTurn_csumR (s : State) : (s.nextTurn).csumR = s.csumR := rfl
@[simp] theorem State.nextTurn_fatal (s : State) : (s.nextTurn).fatal = s.fatal := rfl
@[simp] theorem State.nextTurn_bufCap (s : State) : (s.nextTurn).bufCap = s.bufCap := rfl
@[simp] theorem State.nextTurn_mem (s : State) : (s.nextTurn).mem = s.mem := rfl
@[simp] theorem State.nextTurn_chans (s : State) : (s.nextTurn).chans = s.chans := rfl
@[simp] theorem State.nextTurn_result (s : State) : (s.nextTurn).result = s.result := rfl
@[simp] theorem State.nextTurn_hostQueue (s : State) : (s.nextTurn).hostQueue = s.hostQueue := rfl
@[simp] theorem State.nextTurn_transports (s : State) : (s.nextTurn).transports = s.transports := rfl
@[simp] theorem State.nextTurn_schedule (s : State) : (s.nextTurn).schedule = s.schedule.tail := rfl

/-! ### idle -/

@[simp] theorem State.idle_plen (s : State) : (s.idle).plen = s.plen := rfl
@[simp] theorem State.idle_wlen (s : State) : (s.idle).wlen = s.wlen := rfl
@[simp] theorem State.idle_dlen (s : State) : (s.idle).dlen = s.dlen := rfl
@[simp] theorem State.idle_dstat (s : State) : (s.idle).dstat = s.dstat := rfl
@[simp] theorem State.idle_dfield (s : State) : (s.idle).dfield = s.dfield := rfl
@[simp] theorem State.idle_csumR (s : State) : (s.idle).csumR = s.csumR := rfl
@[simp] theorem State.idle_fatal (s : State) : (s.idle).fatal = s.fatal := rfl
@[simp] theorem State.idle_bufCap (s : State) : (s.idle).bufCap = s.bufCap := rfl
@[simp] theorem State.idle_mem (s : State) : (s.idle).mem = s.mem := rfl
@[simp] theorem State.idle_chans (s : State) : (s.idle).chans = s.chans := rfl
@[simp] theorem State.idle_result (s : State) : (s.idle).result = none := rfl
@[simp] theorem State.idle_hostQueue (s : State) : (s.idle).hostQueue = s.hostQueue := rfl
@[simp] theorem State.idle_transports (s : State) : (s.idle).transports = s.transports := rfl
@[simp] theorem State.idle_schedule (s : State) : (s.idle).schedule = s.schedule := rfl

/-! ### offerHost -/

@[simp] theorem State.offerHost_plen (s : State) (w : Word) : (s.offerHost w).plen = s.plen := rfl
@[simp] theorem State.offerHost_wlen (s : State) (w : Word) : (s.offerHost w).wlen = s.wlen := rfl
@[simp] theorem State.offerHost_dlen (s : State) (w : Word) : (s.offerHost w).dlen = s.dlen := rfl
@[simp] theorem State.offerHost_dstat (s : State) (w : Word) : (s.offerHost w).dstat = s.dstat := rfl
@[simp] theorem State.offerHost_dfield (s : State) (w : Word) : (s.offerHost w).dfield = s.dfield := rfl
@[simp] theorem State.offerHost_csumR (s : State) (w : Word) : (s.offerHost w).csumR = s.csumR := rfl
@[simp] theorem State.offerHost_fatal (s : State) (w : Word) : (s.offerHost w).fatal = s.fatal := rfl
@[simp] theorem State.offerHost_bufCap (s : State) (w : Word) : (s.offerHost w).bufCap = s.bufCap := rfl
@[simp] theorem State.offerHost_mem (s : State) (w : Word) : (s.offerHost w).mem = s.mem := rfl
@[simp] theorem State.offerHost_chans (s : State) (w : Word) : (s.offerHost w).chans = s.chans := rfl
@[simp] theorem State.offerHost_result (s : State) (w : Word) : (s.offerHost w).result = s.result := rfl
@[simp] theorem State.offerHost_hostQueue (s : State) (w : Word) : (s.offerHost w).hostQueue = w :: s.hostQueue := rfl
@[simp] theorem State.offerHost_transports (s : State) (w : Word) : (s.offerHost w).transports = s.transports := rfl
@[simp] theorem State.offerHost_schedule (s : State) (w : Word) : (s.offerHost w).schedule = .grant .host :: s.schedule := rfl

/-! ### resetBlock -/

@[simp] theorem State.resetBlock_plen (s : State) : (s.resetBlock).plen = 0 := rfl
@[simp] theorem State.resetBlock_wlen (s : State) : (s.resetBlock).wlen = 0 := rfl
@[simp] theorem State.resetBlock_dlen (s : State) : (s.resetBlock).dlen = 0 := rfl
@[simp] theorem State.resetBlock_dstat (s : State) : (s.resetBlock).dstat = 0x0FF := rfl
@[simp] theorem State.resetBlock_dfield (s : State) : (s.resetBlock).dfield = 0 := rfl
@[simp] theorem State.resetBlock_csumR (s : State) : (s.resetBlock).csumR = 0 := rfl
@[simp] theorem State.resetBlock_fatal (s : State) : (s.resetBlock).fatal = false := rfl
@[simp] theorem State.resetBlock_bufCap (s : State) : (s.resetBlock).bufCap = s.bufCap := rfl
@[simp] theorem State.resetBlock_mem (s : State) : (s.resetBlock).mem = [] := rfl
@[simp] theorem State.resetBlock_chans (s : State) : (s.resetBlock).chans = List.replicate s.chans.length Channel.reset := rfl
@[simp] theorem State.resetBlock_result (s : State) : (s.resetBlock).result = s.result := rfl
@[simp] theorem State.resetBlock_hostQueue (s : State) : (s.resetBlock).hostQueue = s.hostQueue := rfl
@[simp] theorem State.resetBlock_transports (s : State) : (s.resetBlock).transports = s.transports := rfl
@[simp] theorem State.resetBlock_schedule (s : State) : (s.resetBlock).schedule = s.schedule := rfl

/-! ### powerReset -/

@[simp] theorem State.powerReset_plen (s : State) : (s.powerReset).plen = 0 := rfl
@[simp] theorem State.powerReset_wlen (s : State) : (s.powerReset).wlen = 0 := rfl
@[simp] theorem State.powerReset_dlen (s : State) : (s.powerReset).dlen = 0 := rfl
@[simp] theorem State.powerReset_dstat (s : State) : (s.powerReset).dstat = 0x0FF := rfl
@[simp] theorem State.powerReset_dfield (s : State) : (s.powerReset).dfield = 0 := rfl
@[simp] theorem State.powerReset_csumR (s : State) : (s.powerReset).csumR = 0 := rfl
@[simp] theorem State.powerReset_fatal (s : State) : (s.powerReset).fatal = false := rfl
@[simp] theorem State.powerReset_bufCap (s : State) : (s.powerReset).bufCap = s.bufCap := rfl
@[simp] theorem State.powerReset_mem (s : State) : (s.powerReset).mem = [] := rfl
@[simp] theorem State.powerReset_chans (s : State) : (s.powerReset).chans = List.replicate s.chans.length Channel.reset := rfl
@[simp] theorem State.powerReset_result (s : State) : (s.powerReset).result = none := rfl
@[simp] theorem State.powerReset_hostQueue (s : State) : (s.powerReset).hostQueue = s.hostQueue := rfl
@[simp] theorem State.powerReset_transports (s : State) : (s.powerReset).transports = s.transports := rfl
@[simp] theorem State.powerReset_schedule (s : State) : (s.powerReset).schedule = s.schedule := rfl

/-! ### beginRead -/

@[simp] theorem Channel.beginRead_rxCnt (ch : Channel) : (ch.beginRead).rxCnt = 0 := rfl
@[simp] theorem Channel.beginRead_esc (ch : Channel) : (ch.beginRead).esc = false := rfl
@[simp] theorem Channel.beginRead_rxAtt (ch : Channel) : (ch.beginRead).rxAtt = ch.nattCfg := rfl
@[simp] theorem Channel.beginRead_phase (ch : Channel) : (ch.beginRead).phase = (if ch.nattCfg = 0 then .done else .active) := rfl
@[simp] theorem Channel.beginRead_readEnd (ch : Channel) : (ch.beginRead).readEnd = (if ch.nattCfg = 0 then .timeout else .none) := rfl
@[simp] theorem Channel.beginRead_fHint (ch : Channel) : (ch.beginRead).fHint = false := rfl
@[simp] theorem Channel.beginRead_fOvf (ch : Channel) : (ch.beginRead).fOvf = false := rfl
@[simp] theorem Channel.beginRead_fResync (ch : Channel) : (ch.beginRead).fResync = false := rfl
@[simp] theorem Channel.beginRead_rxHint (ch : Channel) : (ch.beginRead).rxHint = ch.hintCfg := rfl
@[simp] theorem Channel.beginRead_hintCfg (ch : Channel) : (ch.beginRead).hintCfg = ch.hintCfg := rfl
@[simp] theorem Channel.beginRead_nattCfg (ch : Channel) : (ch.beginRead).nattCfg = ch.nattCfg := rfl

/-! ### resynced -/

@[simp] theorem Channel.resynced_rxCnt (ch : Channel) : (ch.resynced).rxCnt = 1 := rfl
@[simp] theorem Channel.resynced_esc (ch : Channel) : (ch.resynced).esc = false := rfl
@[simp] theorem Channel.resynced_rxAtt (ch : Channel) : (ch.resynced).rxAtt = ch.rxAtt := rfl
@[simp] theorem Channel.resynced_phase (ch : Channel) : (ch.resynced).phase = ch.phase := rfl
@[simp] theorem Channel.resynced_readEnd (ch : Channel) : (ch.resynced).readEnd = ch.readEnd := rfl
@[simp] theorem Channel.resynced_fHint (ch : Channel) : (ch.resynced).fHint = ch.fHint := rfl
@[simp] theorem Channel.resynced_fOvf (ch : Channel) : (ch.resynced).fOvf = ch.fOvf := rfl
@[simp] theorem Channel.resynced_fResync (ch : Channel) : (ch.resynced).fResync = true := rfl
@[simp] theorem Channel.resynced_rxHint (ch : Channel) : (ch.resynced).rxHint = ch.rxHint := rfl
@[simp] theorem Channel.resynced_hintCfg (ch : Channel) : (ch.resynced).hintCfg = ch.hintCfg := rfl
@[simp] theorem Channel.resynced_nattCfg (ch : Channel) : (ch.resynced).nattCfg = ch.nattCfg := rfl

/-! ### overflowed -/

@[simp] theorem Channel.overflowed_rxCnt (ch : Channel) : (ch.overflowed).rxCnt = 0 := rfl
@[simp] theorem Channel.overflowed_esc (ch : Channel) : (ch.overflowed).esc = false := rfl
@[simp] theorem Channel.overflowed_rxAtt (ch : Channel) : (ch.overflowed).rxAtt = ch.rxAtt := rfl
@[simp] theorem Channel.overflowed_phase (ch : Channel) : (ch.overflowed).phase = ch.phase := rfl
@[simp] theorem Channel.overflowed_readEnd (ch : Channel) : (ch.overflowed).readEnd = ch.readEnd := rfl
@[simp] theorem Channel.overflowed_fHint (ch : Channel) : (ch.overflowed).fHint = ch.fHint := rfl
@[simp] theorem Channel.overflowed_fOvf (ch : Channel) : (ch.overflowed).fOvf = true := rfl
@[simp] theorem Channel.overflowed_fResync (ch : Channel) : (ch.overflowed).fResync = ch.fResync := rfl
@[simp] theorem Channel.overflowed_rxHint (ch : Channel) : (ch.overflowed).rxHint = ch.rxHint := rfl
@[simp] theorem Channel.overflowed_hintCfg (ch : Channel) : (ch.overflowed).hintCfg = ch.hintCfg := rfl
@[simp] theorem Channel.overflowed_nattCfg (ch : Channel) : (ch.overflowed).nattCfg = ch.nattCfg := rfl

/-! ### completed -/

@[simp] theorem Channel.completed_rxCnt (ch : Channel) : (ch.completed).rxCnt = ch.rxCnt := rfl
@[simp] theorem Channel.completed_esc (ch : Channel) : (ch.completed).esc = ch.esc := rfl
@[simp] theorem Channel.completed_rxAtt (ch : Channel) : (ch.completed).rxAtt = ch.rxAtt := rfl
@[simp] theorem Channel.completed_phase (ch : Channel) : (ch.completed).phase = .done := rfl
@[simp] theorem Channel.completed_readEnd (ch : Channel) : (ch.completed).readEnd = .frame := rfl
@[simp] theorem Channel.completed_fHint (ch : Channel) : (ch.completed).fHint = hintMismatch ch := rfl
@[simp] theorem Channel.completed_fOvf (ch : Channel) : (ch.completed).fOvf = ch.fOvf := rfl
@[simp] theorem Channel.completed_fResync (ch : Channel) : (ch.completed).fResync = ch.fResync := rfl
@[simp] theorem Channel.completed_rxHint (ch : Channel) : (ch.completed).rxHint = ch.rxHint := rfl
@[simp] theorem Channel.completed_hintCfg (ch : Channel) : (ch.completed).hintCfg = ch.hintCfg := rfl
@[simp] theorem Channel.completed_nattCfg (ch : Channel) : (ch.completed).nattCfg = ch.nattCfg := rfl

end Sys2Proof.Machine
end

