-- ==== Sys2Proof/Laws/Ops.lean ====
section
/-! SUPPORT. What each shared operation can do, said once: the result port, channels, spaces, registers, the decode and encode
ends, RXB, lists of operations and turns. -/

namespace Sys2Proof.Machine

/-! ### Results -/

theorem finish_next {st : Status} {d : Half} {s t : State} :
    finish st d s = .next t ↔ t = s.putResult (resultWord st d) := by
  unfold finish; constructor
  · intro h; injection h with h; exact h.symm
  · rintro rfl; rfl

theorem raise_next {st : Status} {s t : State} : raise st s = .next t ↔ t = s.putResult (resultWord st 0) :=
  finish_next

theorem finish_not_fault {st : Status} {d : Half} {s : State} {f : Fault} : finish st d s ≠ .fault f := by
  intro h; cases h

theorem finish_not_refused {st : Status} {d : Half} {s : State} {r : Refusal} : finish st d s ≠ .refused r := by
  intro h; cases h

theorem resultWord_status (st : Status) (d : Half) : (resultWord st d).extractLsb' 0 8 = st.code := by
  refine BitVec.eq_of_getLsbD_eq fun i hi => ?_
  simp only [resultWord, BitVec.getLsbD_extractLsb', BitVec.getLsbD_append, hi]
  simp [hi]

theorem resultWord_data (st : Status) (d : Half) : (resultWord st d).extractLsb' 8 16 = d := by
  refine BitVec.eq_of_getLsbD_eq fun i hi => ?_
  simp only [resultWord, BitVec.getLsbD_extractLsb', BitVec.getLsbD_append, hi]
  simp [hi]

theorem Status.code_injective {a b : Status} (h : a.code = b.code) : a = b := by
  cases a <;> cases b <;> first | rfl | (exfalso; revert h; decide)

theorem resultWord_inj {a b : Status} {d e : Half} (h : resultWord a d = resultWord b e) : a = b ∧ d = e := by
  refine ⟨Status.code_injective ?_, ?_⟩
  · rw [← resultWord_status a d, h, resultWord_status]
  · rw [← resultWord_data a d, h, resultWord_data]

/-! ### Channels -/

@[simp] theorem State.chan?_putResult (s : State) (w : Word) (c : Nibble) : (s.putResult w).chan? c = s.chan? c := rfl
@[simp] theorem State.chan?_putMem (s : State) (m : Memory) (c : Nibble) : (s.putMem m).chan? c = s.chan? c := rfl

theorem State.chan?_lt {s : State} {c : Nibble} {ch : Channel} (h : s.chan? c = some ch) :
    c.toNat < s.chans.length := by
  unfold State.chan? at h; exact (List.getElem?_eq_some_iff.mp h).1

theorem State.chan?_eq_none {s : State} {c : Nibble} : s.chan? c = none ↔ s.chans.length ≤ c.toNat := by
  unfold State.chan?; exact List.getElem?_eq_none_iff

theorem State.chan?_putChan_same {s : State} {c : Nibble} (ch : Channel) (h : c.toNat < s.chans.length) :
    (s.putChan c ch).chan? c = some ch := by
  simp [State.chan?, State.putChan, h]

theorem State.chan?_putChan_ne {s : State} {c d : Nibble} (ch : Channel) (h : d ≠ c) :
    (s.putChan c ch).chan? d = s.chan? d := by
  have : c.toNat ≠ d.toNat := fun e => h (BitVec.eq_of_toNat_eq e.symm)
  simp [State.chan?, State.putChan, this]

/-- Everything a replaced channel can show: itself at its own number, the old channels at the others. -/
theorem State.chan?_putChan {s : State} {c d : Nibble} {ch ch' : Channel}
    (h : (s.putChan c ch).chan? d = some ch') : (d = c ∧ ch' = ch) ∨ (d ≠ c ∧ s.chan? d = some ch') := by
  by_cases hd : d = c
  · subst hd
    have hl : d.toNat < s.chans.length := by simpa using State.chan?_lt h
    rw [State.chan?_putChan_same ch hl] at h
    exact .inl ⟨rfl, (Option.some.inj h).symm⟩
  · rw [State.chan?_putChan_ne ch hd] at h
    exact .inr ⟨hd, h⟩

theorem State.chan?_resetBlock {s : State} {c : Nibble} {ch : Channel} (h : s.resetBlock.chan? c = some ch) :
    ch = Channel.reset ∧ c.toNat < s.chans.length := by
  unfold State.chan? at h
  rw [State.resetBlock_chans, List.getElem?_replicate] at h
  split_ifs at h with hl
  exact ⟨(Option.some.inj h).symm, hl⟩

/-! ### Spaces and registers -/

theorem spaceAddr_inj {sp sp' i i' : Nat} (hi : i < 65536) (hi' : i' < 65536) :
    spaceAddr sp i = spaceAddr sp' i' ↔ sp = sp' ∧ i = i' := by
  unfold spaceAddr; omega

theorem spaceOf_pbuf : spaceOf 0 = .pbuf := rfl
theorem spaceOf_wbuf : spaceOf 1 = .wbuf := rfl
theorem spaceOf_dbuf : spaceOf 2 = .dbuf := rfl

/-- Everything a space number can name. -/
theorem spaceOf_cases (sp : Nibble) :
    (sp = 0 ∧ spaceOf sp = .pbuf) ∨ (sp = 1 ∧ spaceOf sp = .wbuf) ∨ (sp = 2 ∧ spaceOf sp = .dbuf) ∨
    (3 ≤ sp.toNat ∧ sp.toNat ≤ 7 ∧ spaceOf sp = .reserved) ∨
    (8 ≤ sp.toNat ∧ spaceOf sp = .rbuf (sp - 8) ∧ (sp - 8).toNat = sp.toNat - 8) := by
  revert sp; decide

theorem regOf_number (r : RegName) : regOf r.number = some r := by
  rcases r with r | r <;> cases r <;> rfl

/-- Everything a register number can name. -/
theorem regOf_eq_some {n : Byte} {r : RegName} : regOf n = some r ↔ n = r.number := by
  constructor
  · intro h
    have := List.find?_some h
    simpa using (beq_iff_eq.mp this).symm
  · rintro rfl; exact regOf_number r

theorem regOf_eq_none {n : Byte} :
    regOf n = none ↔ (0x09 ≤ n.toNat ∧ n.toNat ≤ 0x0F) ∨ 0x16 ≤ n.toNat := by
  revert n; decide

/-! ### The ends of ENC, DECW and DECR -/

/-- Everything the end of ENC can do. -/
theorem encFinish_next {p w : List Byte} {c : Byte} {s t : State} (h : encFinish p w c s = .next t) :
    (selfCheck p w = true ∧
      t = { s with
        mem := Memory.writeList s.mem (wbufAddr 0) w, wlen := BitVec.ofNat 10 w.length, csumR := c
        result := some (resultWord .ok (BitVec.ofNat 16 w.length)) }) ∨
    (selfCheck p w = false ∧
      t = { s with fatal := true, wlen := 0, result := some (resultWord .encodeSelfCheckFailed 0) }) := by
  unfold encFinish at h
  split_ifs at h with hc
  · exact .inl ⟨hc, finish_next.mp h⟩
  · exact .inr ⟨by simpa using hc, raise_next.mp h⟩

/-- Everything a decode can do. It always ends in a next state. -/
theorem decodeCommit_cases (raw : List Byte) (s : State) :
    (validate raw = .ok ∧ decodeCommit raw s = .next
      { s with
        mem := Memory.writeList s.mem (dbufAddr 0) (scan raw).1
        dstat := dstatOf .ok
        dlen := BitVec.ofNat 16 (scan raw).1.length
        dfield := dfieldOf ((scan raw).1.getD 1 0) ((scan raw).1.getD ((scan raw).1.length - 2) 0)
        result := some (resultWord .ok (BitVec.ofNat 16 (scan raw).1.length)) }) ∨
    (validate raw ≠ .ok ∧ decodeCommit raw s = .next
      { s with
        dstat := dstatOf (validate raw), dlen := 0, dfield := 0, result := some (resultWord (validate raw) 0) }) := by
  unfold decodeCommit
  split_ifs with h
  · exact .inl ⟨h, rfl⟩
  · exact .inr ⟨h, rfl⟩

/-- The statuses a validation can give. -/
theorem validate_cases (raw : List Byte) :
    validate raw = .ok ∨ validate raw = .frameTooShort ∨ validate raw = .frameMalformed ∨
      validate raw = .checksumMismatch := by
  unfold validate
  simp only
  split_ifs <;> simp

/-! ### RXB -/

/-- Everything an accepted byte can do (41_receiver.md R453 to R455). -/
theorem rxAccept_cases (c : Nibble) (ch : Channel) (st : Bool) (b : Byte) (s : State) :
    (b = Config.startMarker ∧ ch.rxCnt ≠ 0 ∧ st = false ∧ rxAccept c ch st b s = rxResync c ch s) ∨
    (¬(b = Config.startMarker ∧ ch.rxCnt ≠ 0 ∧ st = false) ∧ ch.rxCnt = s.bufCap ∧
      rxAccept c ch st b s = rxAppend c ch.overflowed false b s) ∨
    (¬(b = Config.startMarker ∧ ch.rxCnt ≠ 0 ∧ st = false) ∧ ch.rxCnt ≠ s.bufCap ∧
      rxAccept c ch st b s = rxAppend c ch st b s) := by
  unfold rxAccept
  split_ifs with h₁ h₂
  · exact .inl ⟨h₁.1, h₁.2.1, h₁.2.2, rfl⟩
  · exact .inr (.inl ⟨h₁, h₂, rfl⟩)
  · exact .inr (.inr ⟨h₁, h₂, rfl⟩)

/-- STARTED is unknown only where the first byte is UNDEF. -/
theorem State.started?_eq_none {s : State} {c : Nibble} {ch : Channel} :
    s.started? c ch = none ↔ ch.rxCnt ≠ 0 ∧ Memory.read s.mem (rbufAddr c.toNat 0) = none := by
  unfold State.started?
  by_cases h : ch.rxCnt = 0
  · simp [h]
  · simp only [if_neg h, Option.map_eq_none_iff]
    exact ⟨fun hn => ⟨h, hn⟩, fun hn => hn.2⟩

/-! ### Lists of operations and turns -/

@[simp] theorem execAll_nil (s : State) : execAll [] s = .next s := rfl

theorem execAll_cons_next {i : Instr} {is : List Instr} {s t : State} :
    execAll (i :: is) s = .next t ↔ ∃ u, exec i s = .next u ∧ execAll is u = .next t := by
  simp only [execAll]
  cases exec i s with
  | next u => simp
  | fault f => simp
  | refused r => simp

theorem execAll_append_next {is js : List Instr} {s t : State} :
    execAll (is ++ js) s = .next t ↔ ∃ u, execAll is s = .next u ∧ execAll js u = .next t := by
  induction is generalizing s with
  | nil => simp
  | cons i is ih =>
    simp only [List.cons_append, execAll_cons_next, ih]
    constructor
    · rintro ⟨u, hu, v, hv, ht⟩; exact ⟨v, ⟨u, hu, hv⟩, ht⟩
    · rintro ⟨v, ⟨u, hu, hv⟩, ht⟩; exact ⟨u, hu, v, hv, ht⟩

/-- Everything the end of a turn can answer. -/
theorem endTurn_next {a : Agent} {o : Outcome} {t : State} :
    endTurn a o = .next t ↔ ∃ u, o = .next u ∧ t = (u.retire a).nextTurn := by
  cases o with
  | next u => simp [endTurn, eq_comm]
  | fault f => simp [endTurn]
  | refused r => simp [endTurn]

/-- Everything a step that answers a next state can have done. -/
theorem step_next {s t : State} (h : step s = .next t) :
    (s.schedule = [] ∧ t = s.idle) ∨ (∃ rest, s.schedule = .rst :: rest ∧ t = s.nextTurn.powerReset) ∨
    (∃ a rest, s.schedule = .grant a :: rest ∧ s.offered a = none ∧ t = s.nextTurn.idle) ∨
    (∃ a rest w u, s.schedule = .grant a :: rest ∧ s.offered a = some w ∧ execWord w s = .next u ∧
      t = (u.retire a).nextTurn) := by
  unfold step at h
  split at h
  · next hs => injection h with h; exact .inl ⟨hs, h.symm⟩
  · next turn rest hs =>
    cases turn with
    | rst => injection h with h; exact .inr (.inl ⟨rest, hs, h.symm⟩)
    | grant a =>
      simp only [takeTurn, grantTurn] at h
      split at h
      · next w hw =>
        obtain ⟨u, hu, rfl⟩ := endTurn_next.mp h
        exact .inr (.inr (.inr ⟨a, rest, w, u, hs, hw, hu, rfl⟩))
      · next hw => injection h with h; exact .inr (.inr (.inl ⟨a, rest, hs, hw, h.symm⟩))

/-- What a word can do: it runs the instruction it decodes to, or raises IllegalOp. -/
theorem execWord_next {w : Word} {s t : State} (h : execWord w s = .next t) :
    (∃ i, decode w = .ok i ∧ exec i s = .next t) ∨
    ((∃ e, decode w = .error e) ∧ t = s.putResult (resultWord .illegalOp 0)) := by
  unfold execWord at h
  split at h
  · next i hi => exact .inl ⟨i, hi, h⟩
  · next e he => exact .inr ⟨⟨e, he⟩, raise_next.mp h⟩

/-- Retiring a word changes the queues only. -/
theorem State.retire_block (a : Agent) (s : State) :
    (s.retire a) = { s with hostQueue := (s.retire a).hostQueue, transports := (s.retire a).transports } := by
  unfold State.retire
  split
  · rfl
  · split
    · rfl
    · split_ifs <;> rfl

end Sys2Proof.Machine
end

