-- ==== Sys2Proof/Laws/PerInstr.lean ====
section
/-! SUPPORT. The family of statements made per instruction: the word of every operation is one the opcode table accepts, whatever
its operands (30_encoding.md R327, R332). The table stands in WellFormed.lean apart from the encoder, so this holds one
against the other. -/

namespace Sys2Proof.Laws

/-- The word of `i` is legal by the opcode table (30_encoding.md R327). -/
def EncodeLegal.Statement (i : Instr) : Prop := legalWord (encode i) = true

/-- A word is its four fields (30_encoding.md R320). -/
theorem assemble_fields (w : Word) : assemble (fieldOp w) (fieldCh w) (fieldB w) (fieldIdx w) = w := by
  refine BitVec.eq_of_getLsbD_eq fun i hi => ?_
  simp only [fieldOp, fieldCh, fieldB, fieldIdx, assemble, BitVec.getLsbD_append, BitVec.getLsbD_extractLsb']
  split_ifs <;> rw [decide_eq_true (by omega), Bool.true_and] <;> congr 1 <;> omega

/-- Masking a word masks its fields. -/
theorem assemble_and (op op' ch ch' : Nibble) (b b' : Byte) (idx idx' : Half) :
    assemble (op &&& op') (ch &&& ch') (b &&& b') (idx &&& idx') = assemble op ch b idx &&& assemble op' ch' b' idx' := by
  apply BitVec.eq_of_getLsbD_eq
  intro i hi
  simp only [assemble, BitVec.getLsbD_append, BitVec.getLsbD_and]
  split_ifs <;> rfl

/-- A word of four fields is legal when one row's mask, taken field by field, leaves that row's pattern. -/
theorem legalWord_of_fields {op ch : Nibble} {b : Byte} {idx : Half} (r : OpRow) (hr : r ∈ opcodeTable)
    (h : assemble (op &&& fieldOp r.mask) (ch &&& fieldCh r.mask) (b &&& fieldB r.mask) (idx &&& fieldIdx r.mask)
      = r.pattern) : legalWord (assemble op ch b idx) = true := by
  refine List.any_eq_true.mpr ⟨r, hr, ?_⟩
  rw [OpRow.accepts, beq_iff_eq, ← h, assemble_and, assemble_fields]

theorem EncodeLegal.enc : EncodeLegal.Statement .enc := by unfold EncodeLegal.Statement; decide
theorem EncodeLegal.decw : EncodeLegal.Statement .decw := by unfold EncodeLegal.Statement; decide
theorem EncodeLegal.csum : EncodeLegal.Statement .csum := by unfold EncodeLegal.Statement; decide
theorem EncodeLegal.reset : EncodeLegal.Statement .reset := by unfold EncodeLegal.Statement; decide

theorem EncodeLegal.decr (c : Nibble) : EncodeLegal.Statement (.decr c) := by
  unfold EncodeLegal.Statement; revert c; decide

theorem EncodeLegal.rdstart (c : Nibble) : EncodeLegal.Statement (.rdstart c) := by
  unfold EncodeLegal.Statement; revert c; decide

theorem EncodeLegal.rxe (c : Nibble) : EncodeLegal.Statement (.rxe c) := by
  unfold EncodeLegal.Statement; revert c; decide

theorem EncodeLegal.rxb (c : Nibble) (b : Byte) : EncodeLegal.Statement (.rxb c b) :=
  legalWord_of_fields ⟨"RXB", 0x00000005, 0xFFFF000F⟩ (by decide) (by simp [fieldOp, fieldCh, fieldB, fieldIdx]; decide)

theorem EncodeLegal.mrd (sp : Nibble) (idx : Half) : EncodeLegal.Statement (.mrd sp idx) :=
  legalWord_of_fields ⟨"MRD", 0x00000007, 0x0000FF0F⟩ (by decide) (by simp [fieldOp, fieldCh, fieldB, fieldIdx]; decide)

theorem EncodeLegal.mwr (sp : Nibble) (idx : Half) (b : Byte) : EncodeLegal.Statement (.mwr sp idx b) :=
  legalWord_of_fields ⟨"MWR", 0x00000008, 0x0000000F⟩ (by decide) (by simp [fieldOp, fieldCh, fieldB, fieldIdx]; decide)

theorem EncodeLegal.rrd (r : Byte) (c : Nibble) : EncodeLegal.Statement (.rrd r c) :=
  legalWord_of_fields ⟨"RRD", 0x00000009, 0xFFFF000F⟩ (by decide) (by simp [fieldOp, fieldCh, fieldB, fieldIdx]; decide)

theorem EncodeLegal.rwr (r : Byte) (v : Half) (c : Nibble) : EncodeLegal.Statement (.rwr r v c) :=
  legalWord_of_fields ⟨"RWR", 0x0000000A, 0x0000000F⟩ (by decide) (by simp [fieldOp, fieldCh, fieldB, fieldIdx]; decide)

end Sys2Proof.Laws
end

