-- ==== Sys2Proof/Tests/Slice0.lean ====
section
/-! SUPPORT. Tests: the word checks refuse ill-formed words, written-out words decode, one step of each operation gives what
95_test_vectors.md says, and for each statement with hypotheses a state that meets them. -/

namespace Sys2Proof.Tests

open Sys2Proof Sys2Proof.Machine

/-! ### Ill-formed words and parameters are refused (30_encoding.md R327, R328; 95_test_vectors.md V-A6, V-A25 to V-A34) -/

theorem test_illformed_enc_ch : legalWord 0x00000011 = false := by decide
theorem test_illformed_reset_b : legalWord 0x0000010F = false := by decide
theorem test_illformed_csum_b : legalWord 0x00000103 = false := by decide
theorem test_illformed_rxb_idx : legalWord 0x00010005 = false := by decide
theorem test_illformed_rdstart_b : legalWord 0x00000104 = false := by decide
theorem test_illformed_rxe_b : legalWord 0x00000106 = false := by decide
theorem test_illformed_decw_ch : legalWord 0x00000012 = false := by decide
theorem test_illformed_op2_b2 : legalWord 0x00000202 = false := by decide
theorem test_illformed_reserved_op : legalWord 0x0000000C = false ∧ legalWord 0x00000000 = false := by decide
theorem test_illformed_mrd_b : legalWord 0x00000137 = false := by decide
theorem test_illformed_rrd_idx : legalWord 0x00010009 = false := by decide
theorem test_illformed_decr_idx : legalWord 0x00010102 = false := by decide

/-- N_CH in 1..8 and BUF_CAP in 515..65535 (00_scope.md R10): both ends accepted, one past each refused. -/
theorem test_params :
    Config.legalParams 1 515 = true ∧ Config.legalParams 8 65535 = true ∧ Config.legalParams 0 515 = false ∧
    Config.legalParams 9 515 = false ∧ Config.legalParams 2 514 = false ∧ Config.legalParams 2 65536 = false := by
  decide

/-! ### Words of 95_test_vectors.md sections 4 to 6, read bit by bit from 30_encoding.md R326 -/

/-- OP 0001, everything else 0. -/
theorem test_decode_enc : decodeTableWord 32 0b1 = some .enc := by decide
theorem test_decode_decw : decodeTableWord 32 0b10 = some .decw := by decide
/-- B 00000001, CH 0001, OP 0010. -/
theorem test_decode_decr : decodeTableWord 32 0b1_0001_0010 = some (.decr 1) := by decide
theorem test_decode_csum : decodeTableWord 32 0b11 = some .csum := by decide
theorem test_decode_rdstart : decodeTableWord 32 0b0001_0100 = some (.rdstart 1) := by decide
/-- B 00000010, CH 0001, OP 0101: V-L31. -/
theorem test_decode_rxb : decodeTableWord 32 0b0000_0010_0001_0101 = some (.rxb 1 0x02) := by decide
theorem test_decode_rxe : decodeTableWord 32 0b0110 = some (.rxe 0) := by decide
/-- IDX 0000001000000010, CH 0001, OP 0111: V-A21. -/
theorem test_decode_mrd : decodeTableWord 32 0x02020017 = some (.mrd 1 514) := by decide
theorem test_decode_mwr : decodeTableWord 32 0x0202AA18 = some (.mwr 1 514 0xAA) := by decide
theorem test_decode_rrd : decodeTableWord 32 0x00001419 = some (.rrd 0x14 1) := by decide
theorem test_decode_rwr : decodeTableWord 32 0xFFFF141A = some (.rwr 0x14 0xFFFF 1) := by decide
theorem test_decode_reset : decodeTableWord 32 0b1111 = some .reset := by decide

/-- The assembler's text gives the same words (95_test_vectors.md V-A8, P1 line 2). -/
theorem test_assembler :
    (assembleLine "RWR WLEN, 516").map AsmLine.words = some [0x0204010A] ∧
    (assembleLine "MWR 0, 1, 0x03").map AsmLine.words = some [0x00010308] := by decide

/-- RXS and RXEN stand for events on the channel's port, an RXB line for a host word (30_encoding.md R333, 60_exceptions.md R631). -/
theorem test_assembler_offers :
    (assembleLine "RXS 1, 0x02, 3").map AsmLine.offers = some [.port 1 (.byte 0x02), .port 1 (.byte 0x03)] ∧
    (assembleLine "RXEN 0, 2").map AsmLine.offers = some [.port 0 .empty, .port 0 .empty] ∧
    (assembleLine "RXB 1, 2").map AsmLine.offers = some [.host 0x00000215] := by decide

/-! ### A small state -/

/-- The state an outcome goes on in, if any. -/
def after : Outcome → Option State
  | .next t => some t
  | .fault _ => none
  | .refused _ => none

/-- The bytes of V-E1's frame as memory cells from an address on. -/
def frameAt (a : Nat) : Memory := [(a, 0x02), (a + 1, 0x01), (a + 2, 0x06), (a + 3, 0x07), (a + 4, 0x03)]

/-- A channel of an ACTIVE read with an empty buffer and `n` attempts left. -/
def reading (n : Half) : Channel := { Channel.reset with phase := .active, rxAtt := n, nattCfg := n }

/-- A channel whose read ended with V-E1's frame, hint 5, budget 2. -/
def ended : Channel :=
  { Channel.reset with phase := .done, readEnd := .frame, rxCnt := 5, rxAtt := 2, rxHint := 5, hintCfg := 5, nattCfg := 2 }

/-- Payload 06 loaded and encoded, its frame in WBUF, in DBUF and in RBUF[1]; channel 0 reads with two attempts left. -/
def sample : State :=
  { State.reset with
    plen := 1, wlen := 5, dlen := 5, dstat := 0x100, dfield := 0x0701, csumR := 0x07
    mem := (pbufAddr 0, 0x06) :: (frameAt (wbufAddr 0) ++ frameAt (dbufAddr 0) ++ frameAt (rbufAddr 1 0))
    chans := [reading 2, ended] }

/-- `sample` with channel 0 holding `ch` and the cells `m` (of RBUF[0]) before those of RBUF[1]. -/
def sampleWith (ch : Channel) (m : Memory) : State :=
  { sample with
    mem := (pbufAddr 0, 0x06) :: (frameAt (wbufAddr 0) ++ frameAt (dbufAddr 0) ++ m ++ frameAt (rbufAddr 1 0))
    chans := [ch, ended] }

/-- `sample` with other raw bytes in WBUF. -/
def sampleWire (bs : List Byte) : State :=
  { sample with
    wlen := BitVec.ofNat 10 bs.length
    mem := (pbufAddr 0, 0x06) :: Memory.writeList (frameAt (dbufAddr 0)) (wbufAddr 0) bs }

/-- The result word of an outcome. -/
def resultOf (o : Outcome) : Option Word := (after o).bind (fun t => t.result)

/-- RX_STATE as RRD reads it in the state an outcome goes on in. -/
def rxStateAfter (c : Nibble) (o : Outcome) : Option Word := (after o).bind (fun t => resultOf (exec (.rrd 0x10 c) t))

/-! ### One step of each operation (95_test_vectors.md sections 2 to 5) -/

/-- `sample` with the payload 0B 03. -/
def sample2 : State :=
  { sample with plen := 2, mem := (pbufAddr 0, 0x0B) :: (pbufAddr 1, 0x03) :: sample.mem.tail }

/-- V-E2. -/
theorem test_enc : (after (exec .enc sample2)).bind (fun t => t.wire?) =
    some [0x02, 0x02, 0x0B, 0x10, 0x03, 0x10, 0x10, 0x03] ∧ resultOf (exec .enc sample2) = some 0x00000800 := by decide
/-- V-E21. -/
theorem test_enc_empty : resultOf (exec .enc State.reset) = some 0x00000005 := by decide
/-- V-D19. -/
theorem test_decw : (after (exec .decw (sampleWire [0x02, 0x02, 0x0B, 0x10, 0x03, 0x10, 0x10, 0x03]))).map
    (fun t => (t.decoded?, t.dstat, t.dfield)) = some (some [0x02, 0x02, 0x0B, 0x03, 0x10, 0x03], 0x100, 0x1002) := by
  decide
/-- V-D21: the end marker is not the last raw byte. -/
theorem test_decw_malformed : (after (exec .decw (sampleWire [0x02, 0x01, 0x06, 0x07, 0x03, 0x03]))).map
    (fun t => (t.dlen, t.dstat, t.result)) = some (0, 0x003, some 0x00000003) := by decide
/-- V-D29. -/
theorem test_decr : resultOf (exec (.decr 1) sample) = some 0x00000500 := by decide
/-- V-D26. -/
theorem test_decr_idle : (after (exec (.decr 0) State.reset)).map (fun t => (t.dstat, t.result)) =
    some (0x001, some 0x00000001) := by decide
/-- V-E25. -/
theorem test_csum : resultOf (exec .csum sample2) = some 0x00001000 := by decide
/-- V-L33. -/
theorem test_rdstart : (after (exec (.rdstart 1) sample)).bind (fun t => (t.chan? 1).map (fun ch => (ch.rxCnt, ch.rxAtt))) =
    some (0, 2) ∧ rxStateAfter 1 (exec (.rdstart 1) sample) = some 0x00000100 := by decide
/-- V-L32. -/
theorem test_rdstart_absent : resultOf (exec (.rdstart 2) sample) = some 0x0000000B := by decide
/-- V-L12: the buffer holds an escape; 02 resyncs and clears ESC. -/
theorem test_rxb_resync : rxStateAfter 0 (exec (.rxb 0 0x02) (sampleWith { reading 5 with rxCnt := 1, esc := true }
    [(rbufAddr 0 0, 0x10)])) = some 0x00012100 := by decide
/-- V-L1's last byte, hint 5: DONE, FRAME, started, no F_HINT. -/
theorem test_rxb_end : rxStateAfter 0 (exec (.rxb 0 0x03) (sampleWith { reading 5 with rxCnt := 4, rxHint := 5 }
    ((frameAt (rbufAddr 0 0)).take 4))) = some 0x00002600 := by decide
/-- V-L34. -/
theorem test_rxe : rxStateAfter 0 (exec (.rxe 0) (sampleWith { reading 1 with rxCnt := 2 }
    [(rbufAddr 0 0, 0x02), (rbufAddr 0 1, 0x02)])) = some 0x00002A00 := by decide
/-- V-L30. -/
theorem test_rxe_notReady : resultOf (exec (.rxe 0) State.reset) = some 0x00000009 := by decide
/-- P1 line 11's case: DLEN bounds DBUF. -/
theorem test_mrd : resultOf (exec (.mrd 2 4) sample) = some 0x00000300 ∧ resultOf (exec (.mrd 2 5) sample) = some 0x0000000B := by
  decide
/-- V-A18, V-A19. -/
theorem test_mwr : (after (exec (.mwr 0 254 0x5A) sample)).bind (fun t => resultOf (exec (.mrd 0 254) t)) = some 0x00005A00 := by
  decide
/-- V-A14. -/
theorem test_mwr_dbuf : resultOf (exec (.mwr 2 0 0x00) sample) = some 0x0000000B := by decide
/-- V-A2, V-A5. -/
theorem test_rrd : resultOf (exec (.rrd 0x08 0) sample) = some 0x00020300 ∧ resultOf (exec (.rrd 0x16 0) sample) = some 0x0000000B := by
  decide
/-- V-A11, V-A8. -/
theorem test_rwr : (after (exec (.rwr 0x14 0xFFFF 1) sample)).bind (fun t => resultOf (exec (.rrd 0x14 1) t)) =
    some 0x00FFFF00 ∧ resultOf (exec (.rwr 0x01 516 0) sample) = some 0x0000000B := by decide
/-- V-A35. -/
theorem test_reset : (after (exec .reset sample)).map (fun t => (t.dstat, t.mem, t.result)) =
    some (0x0FF, [], some 0x00000000) := by decide
/-- V-A6: an illegal word from the host. -/
theorem test_illegalOp : resultOf (step (sample.withFetchWord 32 0x00010009)) = some 0x00000008 := by decide
/-- V-E26. -/
theorem test_undef : after (exec .csum { State.reset with plen := 1 }) = none := by decide

/-! ### The invariant holds in other states than reset -/

/-- The registers of a channel whose two cases are known. -/
theorem chan_of_two {s : State} {a b ch : Channel} {c : Nibble} (hs : s.chans = [a, b]) (h : s.chan? c = some ch) :
    (c = 0 ∧ ch = a) ∨ (c = 1 ∧ ch = b) := by
  rw [State.chan?, hs] at h
  have h0 : c.toNat = 0 ∨ c.toNat = 1 ∨ 2 ≤ c.toNat := by omega
  rcases h0 with h0 | h0 | h0
  · exact .inl ⟨BitVec.eq_of_toNat_eq h0, by simpa [h0] using h.symm⟩
  · exact .inr ⟨BitVec.eq_of_toNat_eq h0, by simpa [h0] using h.symm⟩
  · rw [List.getElem?_eq_none (by simpa using h0)] at h; cases h

/-- A frame of five bytes that passes every check. -/
theorem frameChecked_sample : FrameChecked [0x02, 0x01, 0x06, 0x07, 0x03] := by unfold FrameChecked; decide

theorem reading_inv {s : State} {n : Half} (hn : n ≠ 0) : s.ChannelInv 0 (reading n) where
  cntLe := Nat.zero_le _
  readable := ⟨[], rfl⟩
  readEnd := ⟨fun _ h => Phase.noConfusion h, fun _ => rfl⟩
  attempts := fun _ => hn
  timeout := fun h => ReadEnd.noConfusion h
  escape := fun h => Bool.noConfusion h
  emptyEsc := fun _ => rfl
  hint := fun h => Bool.noConfusion h
  idle := fun h => Phase.noConfusion h

theorem ended_inv : sample.ChannelInv 1 ended :=
  { cntLe := by decide, readable := ⟨[0x02, 0x01, 0x06, 0x07, 0x03], by decide⟩, readEnd := by decide
    attempts := by decide, timeout := by decide, escape := by decide, emptyEsc := by decide, hint := by decide
    idle := by decide }

/-- `sample` has the invariant: one channel reading, one read ended, a decode held. -/
theorem sample_inv : sample.Inv :=
  { memWf := by decide, memExists := by decide, params := by decide, transports := by decide, wlenLe := by decide
    dlenLe := by decide
    decodeRegs := .inl ⟨by decide, [0x02, 0x01, 0x06, 0x07, 0x03], by decide, frameChecked_sample, by decide⟩
    channels := fun c ch h => by
      rcases chan_of_two rfl h with ⟨rfl, rfl⟩ | ⟨rfl, rfl⟩
      · exact reading_inv (by decide)
      · exact ended_inv }

/-- `sample` after a decode that failed, with what waits at the ports and the schedule set. -/
def failedSample (ts : List (List RxEvent)) (q : List Word) (sch : List Turn) : State :=
  { sample with dlen := 0, dstat := 0x002, dfield := 0, transports := ts, hostQueue := q, schedule := sch }

theorem failedSample_inv (a b : List RxEvent) (q : List Word) (sch : List Turn) : (failedSample [a, b] q sch).Inv where
  memWf := sample_inv.memWf
  memExists := sample_inv.memExists
  params := sample_inv.params
  transports := rfl
  wlenLe := sample_inv.wlenLe
  dlenLe := Nat.zero_le _
  decodeRegs := .inr ⟨.inr (.inl rfl), rfl, rfl⟩
  channels := fun c ch h => by
    rcases chan_of_two rfl h with ⟨rfl, rfl⟩ | ⟨rfl, rfl⟩
    · exact reading_inv (by decide)
    · exact ⟨ended_inv.cntLe, ended_inv.readable, ended_inv.readEnd, ended_inv.attempts, ended_inv.timeout,
        ended_inv.escape, ended_inv.emptyEsc, ended_inv.hint, ended_inv.idle⟩

/-! ### Witnesses: for each statement with hypotheses, values that meet them -/

theorem runs {o : Outcome} {p : State → Prop} [DecidablePred p] (h : (after o).any (fun t => decide (p t)) = true) :
    ∃ t, o = .next t ∧ p t := by
  cases o with
  | next t => exact ⟨t, rfl, by simpa [after] using h⟩
  | fault f => simp [after] at h
  | refused r => simp [after] at h

theorem witness_DecodedWordEncodesBack : decode 0x0202AA18 = .ok (.mwr 1 514 0xAA) := rfl

theorem witness_DecodingIsTotalAndUnambiguous :
    opcodeTable[1] ≠ opcodeTable[2] ∧ fieldOp opcodeTable[1].pattern = fieldOp opcodeTable[2].pattern := by decide

/-- Each clause at its boundary: OP 0, 0xB, 0xE; CH, B, IDX not 0; OP 2 with B = 2; OP 2 with B = 0 and CH not 0. -/
theorem witness_IllegalWordRaisesIllegalOp :
    IllegalFields 0x00000000 ∧ IllegalFields 0x0000000B ∧ IllegalFields 0x0000000E ∧ IllegalFields 0x00000011 ∧
    IllegalFields 0x00000103 ∧ IllegalFields 0x00010005 ∧ IllegalFields 0x00000202 ∧ IllegalFields 0x00000012 :=
  ⟨.inl (by decide), .inr (.inl (by decide)), .inr (.inl (by decide)), .inr (.inr (.inl (by decide))),
    .inr (.inr (.inr (.inl (by decide)))), .inr (.inr (.inr (.inr (.inl (by decide))))),
    .inr (.inr (.inr (.inr (.inr (.inl (by decide)))))), .inr (.inr (.inr (.inr (.inr (.inr (by decide))))))⟩

/-- The OPs beside the reserved ones are not illegal: 0xA and 0xF. -/
theorem witness_IllegalWordRaisesIllegalOp_legal : ¬IllegalFields 0x0000000A ∧ ¬IllegalFields 0x0000000F :=
  ⟨by unfold IllegalFields; decide, by unfold IllegalFields; decide⟩

theorem witness_EveryResultIsARaisableStatus : ∃ t, exec (.rdstart 0) sample = .next t ∧ t.result = some 0x0000000A :=
  runs (by decide)

/-- A host turn for DECW. -/
def hostTurn (w : Word) : State := failedSample [[.byte 0x02, .empty], []] [w, 0x0000000F] [.grant .host]

theorem witness_StepRunsTheDecodedInstruction :
    (hostTurn 0x00000002).schedule = .grant .host :: [] ∧ (hostTurn 0x00000002).offered .host = some 0x00000002 ∧
    decode 0x00000002 = .ok .decw ∧ (∃ t, exec .decw (hostTurn 0x00000002) = .next t ∧ t.dlen = 5) :=
  ⟨rfl, rfl, rfl, runs (by decide)⟩

theorem witness_StepRunsTheDecodedInstruction_fault :
    (hostTurn 0x00050007).offered .host = some 0x00050007 ∧ decode 0x00050007 = .ok (.mrd 0 5) ∧
    exec (.mrd 0 5) (hostTurn 0x00050007) = .fault .undefByte := ⟨rfl, rfl, rfl⟩

theorem witness_HostWordsRunInOrder :
    (hostTurn 0x00000002).schedule = .grant .host :: [] ∧ (hostTurn 0x00000002).hostQueue = 0x00000002 :: [0x0000000F] ∧
    ∃ t, step (hostTurn 0x00000002) = .next t ∧ t.dlen = 5 := ⟨rfl, rfl, runs (by decide)⟩

/-- A turn of channel `c`'s transport with `e` first; channel 0 is ACTIVE, channel 1 DONE. -/
def portTurn (c : Nibble) (e : RxEvent) : State := failedSample [[e, .empty], [e]] [] [.grant (.transport c)]

theorem witness_PortAcceptance_byteWaits : (portTurn 1 (.byte 0x02)).chan? 1 = some ended ∧
    (portTurn 1 (.byte 0x02)).rxReady 1 = false ∧ (portTurn 1 (.byte 0x02)).transports[1]? = some (.byte 0x02 :: []) :=
  ⟨rfl, rfl, rfl⟩

theorem witness_PortAcceptance_emptyDropped : (portTurn 1 .empty).chan? 1 = some ended ∧
    (portTurn 1 .empty).rxReady 1 = false ∧ (portTurn 1 .empty).transports[1]? = some (.empty :: []) := ⟨rfl, rfl, rfl⟩

theorem witness_PortAcceptance_accepted : (portTurn 0 (.byte 0x02)).Inv ∧ (portTurn 0 (.byte 0x02)).rxReady 0 = true ∧
    (portTurn 0 (.byte 0x02)).schedule = .grant (.transport 0) :: [] ∧
    (portTurn 0 (.byte 0x02)).transports[0]? = some (.byte 0x02 :: [.empty]) := ⟨failedSample_inv _ _ _ _, rfl, rfl, rfl⟩

theorem witness_PowerOnResetInput : (failedSample [[], []] [] [.rst]).schedule = .rst :: [] := rfl

theorem witness_StepWithoutAWordKeepsTheState : sample.schedule = [] ∧
    (failedSample [[], []] [] [.grant .host]).offered .host = none ∧
    (failedSample [[], []] [] [.grant (.transport 1)]).offered (.transport 1) = none := ⟨rfl, rfl, rfl⟩

theorem witness_OperationsLeaveTheOutsideAlone : ∃ t, exec (.rxb 0 0x02) (portTurn 0 (.byte 0x02)) = .next t ∧ t ≠ portTurn 0 (.byte 0x02) :=
  runs (by decide)

theorem witness_EscapeAndChecksum : 2 ≤ 2 ∧ ((0x03 : Byte) = 0x03 ∨ (0x03 : Byte) = 0x10) ∧ (0x02 : Byte) ≠ 0x03 ∧ (0x02 : Byte) ≠ 0x10 := by
  decide

/-- A class for each clause of the scan, at the positions where they meet. -/
theorem witness_ScannerClassification : cls 1 true false 0x03 = .len ∧ cls 0 true false 0x02 = .start ∧
    cls 1 false false 0x10 = .esc ∧ cls 2 true true 0x03 = .literal ∧ cls 2 true false 0x03 = .endMark ∧
    cls 0 false false 0x41 = .data := by decide

/-- The ends of the range: 1 and 255 bytes. -/
theorem witness_FrameBuilder : 1 ≤ ([0x06] : List Byte).length ∧ (List.replicate 255 (0x10 : Byte)).length ≤ 255 :=
  ⟨by decide, (List.length_replicate ..).le⟩

theorem witness_BuildScanRoundTrip : 1 ≤ ([0x03] : List Byte).length ∧ (List.replicate 255 (0x03 : Byte)).length ≤ 255 :=
  ⟨by decide, (List.length_replicate ..).le⟩

theorem witness_EncWritesTheFrame : sample2.fatal = false ∧ sample2.plen ≠ 0 ∧ sample2.payload? = some [0x0B, 0x03] := by
  decide

theorem witness_EncRefusesWhenHaltedOrEmpty : (State.fatal { sample with fatal := true } = true) ∧
    State.reset.fatal = false ∧ State.reset.plen = 0 := by decide

/-- A frame that does not validate, one that gives another payload back, and one that passes. -/
theorem witness_FailedSelfCheckHaltsEncoding : validate [0x02, 0x03] ≠ .ok ∧
    slice (scan [0x02, 0x01, 0x06, 0x07, 0x03]).1 2 2 ≠ [0x07] ∧
    (validate [0x02, 0x01, 0x06, 0x07, 0x03] = .ok ∧
      slice (scan [0x02, 0x01, 0x06, 0x07, 0x03]).1 2 ((scan [0x02, 0x01, 0x06, 0x07, 0x03]).1.length - 3) = [0x06]) := by
  decide

/-- Operations after the failure, none of them RESET, that run. -/
theorem witness_FailedSelfCheckHaltsEncoding_later :
    Instr.reset ∉ [Instr.rwr 0x00 1 0, .csum] ∧
    ∃ u, execAll [.rwr 0x00 1 0, .csum] { sample with fatal := true, wlen := 0, result := some 0x00000006 } = .next u ∧
      u.csumR = 0x07 := ⟨by decide, runs (by decide)⟩

theorem witness_SelfCheckNeverFails : (∃ t, exec .enc sample2 = .next t ∧ t.wlen = 8) ∧ ¬(hostTurn 0x00000001).flagged ∧
    ∃ t, step (hostTurn 0x00000001) = .next t ∧ t.wlen = 5 := ⟨runs (by decide), Bool.false_ne_true, runs (by decide)⟩

theorem witness_EncodeThenDecode : sample.fatal = false ∧ sample.plen ≠ 0 ∧ sample.payload? = some [0x06] := by decide

/-- V-D8: four de-escaped bytes. -/
theorem witness_FailedDecodeRecordsItsStatus_short :
    DecodesRaw .decw (sampleWire [0x02, 0x00, 0x00, 0x03]) [0x02, 0x00, 0x00, 0x03] ∧
    (scan [0x02, 0x00, 0x00, 0x03]).1.length = 4 := ⟨.inl ⟨rfl, by decide⟩, by decide⟩

/-- V-D6, V-D4, V-D5: each way to be malformed, with five de-escaped bytes. -/
theorem witness_FailedDecodeRecordsItsStatus_malformed :
    (DecodesRaw .decw (sampleWire [0xFF, 0x01, 0x06, 0x07, 0x03]) [0xFF, 0x01, 0x06, 0x07, 0x03] ∧
      (scan [0xFF, 0x01, 0x06, 0x07, 0x03]).1.length = 5) ∧
    (DecodesRaw .decw (sampleWire [0x02, 0x01, 0x06, 0x07, 0x10, 0x03]) [0x02, 0x01, 0x06, 0x07, 0x10, 0x03] ∧
      scan [0x02, 0x01, 0x06, 0x07, 0x10, 0x03] = ([0x02, 0x01, 0x06, 0x07, 0x03], none)) ∧
    (DecodesRaw .decw (sampleWire [0x02, 0x01, 0x06, 0x07, 0x03, 0xFF]) [0x02, 0x01, 0x06, 0x07, 0x03, 0xFF] ∧
      scan [0x02, 0x01, 0x06, 0x07, 0x03, 0xFF] = ([0x02, 0x01, 0x06, 0x07, 0x03], some 4)) :=
  ⟨⟨.inl ⟨rfl, by decide⟩, by decide⟩, ⟨.inl ⟨rfl, by decide⟩, by decide⟩, ⟨.inl ⟨rfl, by decide⟩, by decide⟩⟩

/-- V-D2. -/
theorem witness_FailedDecodeRecordsItsStatus_checksum :
    DecodesRaw .decw (sampleWire [0x02, 0x05, 0x06, 0x07, 0x03]) [0x02, 0x05, 0x06, 0x07, 0x03] ∧
    (scan [0x02, 0x05, 0x06, 0x07, 0x03]).1.length = 5 ∧ (scan [0x02, 0x05, 0x06, 0x07, 0x03]).2 = some 4 ∧
    some (checksum 0 [0x05, 0x06]) ≠ some 0x07 := ⟨.inl ⟨rfl, by decide⟩, by decide⟩

/-- A DECW and a DECR of V-E1's frame. -/
theorem witness_GoodFrameDecodes : DecodesRaw .decw sample [0x02, 0x01, 0x06, 0x07, 0x03] ∧
    DecodesRaw (.decr 1) sample [0x02, 0x01, 0x06, 0x07, 0x03] ∧
    scan [0x02, 0x01, 0x06, 0x07, 0x03] = ([0x02, 0x01, 0x06, 0x07, 0x03], some 4) ∧
    checksum 0 (slice [0x02, 0x01, 0x06, 0x07, 0x03] 1 2) = 0x07 :=
  ⟨.inl ⟨rfl, by decide⟩, .inr ⟨1, ended, rfl, rfl, by decide, by decide⟩, by decide⟩

theorem witness_CsumComputes : sample2.payload? = some [0x0B, 0x03] ∧ State.reset.plen = 0 := by decide

/-- The first and the last byte of each range unwritten. -/
theorem witness_UnwrittenByteFaults :
    (254 < (State.plen { State.reset with plen := 255 }).toNat ∧ 514 < (State.wlen { State.reset with wlen := 515 }).toNat) ∧
    Memory.read State.reset.mem (pbufAddr 254) = none ∧ Memory.read State.reset.mem (wbufAddr 514) = none ∧
    (254 : Half).toNat < 255 ∧ (514 : Half).toNat < 515 := by decide

theorem witness_RdstartBeginsARead : (sample.chan? 1 = some ended ∧ ended.phase ≠ .active ∧ ended.nattCfg ≠ 0) ∧
    State.reset.chan? 0 = some Channel.reset ∧ Channel.reset.phase ≠ .active ∧ Channel.reset.nattCfg = 0 := by decide

theorem witness_BusyAndNotReady : (sample.chan? 0 = some (reading 2) ∧ (reading 2).phase = .active) ∧
    sample.chan? 1 = some ended ∧ ended.phase ≠ .active := by decide

/-- The boundary of each clause that does not speak of RBUF. -/
theorem witness_RangeErrorExactlyWhenOutOfRange : OutOfRange sample (.decr 2) ∧ OutOfRange sample (.rxb 15 0x02) ∧
    OutOfRange sample (.mwr 0 255 0) ∧ OutOfRange sample (.mwr 1 515 0) ∧ OutOfRange sample (.mwr 2 0 0) ∧
    OutOfRange sample (.rrd 0x09 0) ∧ OutOfRange sample (.rrd 0x16 0) ∧ OutOfRange sample (.rrd 0x10 2) ∧
    OutOfRange sample (.rwr 0x00 256 0) ∧ OutOfRange sample (.rwr 0x01 516 0) ∧ OutOfRange sample (.rwr 0x13 0 0) ∧
    OutOfRange sample (.rwr 0x14 0 2) :=
  have absent {c : Nibble} (h : 2 ≤ c.toNat) : sample.chans.length ≤ c.toNat := h
  ⟨absent (by decide), absent (by decide), .inl (by decide), .inr (.inl (by decide)), .inr (.inr (by decide)),
    .inl (by decide), .inr (.inl (by decide)), .inr (.inr ⟨by decide, by decide, absent (by decide)⟩),
    .inl (by decide), .inr (.inl (by decide)), .inr (.inr (.inl (by decide))),
    .inr (.inr (.inr (.inr ⟨by decide, absent (by decide)⟩)))⟩

/-- The boundary of each clause of MRD: sizes, DLEN, reserved spaces, RX_CNT, an absent channel. -/
theorem witness_RangeErrorExactlyWhenOutOfRange_mrd : OutOfRange sample (.mrd 0 255) ∧ OutOfRange sample (.mrd 1 515) ∧
    OutOfRange sample (.mrd 2 5) ∧ OutOfRange sample (.mrd 7 0) ∧ OutOfRange sample (.mrd 9 5) ∧ OutOfRange sample (.mrd 10 0) :=
  ⟨.inl (by decide), .inr (.inl (by decide)), .inr (.inr (.inl (by decide))), .inr (.inr (.inr (.inl (by decide)))),
    .inr (.inr (.inr (.inr ⟨by decide, fun _ h => by cases h; decide⟩))),
    .inr (.inr (.inr (.inr ⟨by decide, fun _ h => by cases h⟩)))⟩

theorem witness_RangeErrorExactlyWhenOutOfRange_answer :
    ∃ t, exec (.mrd 9 5) sample = .next t ∧ t.result = some (resultWord .rangeError 0) := runs (by decide)

/-- LEN = 0 with five de-escaped bytes passes validation (40_codec.md R404, R417; log entry 18). -/
theorem test_len_zero : validate [0x02, 0x00, 0x06, 0x06, 0x03] = .ok ∧ validate [0x02, 0x00, 0x00, 0x03] = .frameTooShort := by
  decide

/-- Channel 0 ACTIVE holding `n` bytes, the first of them `x`. -/
def holding (n : Half) (x : Byte) : State := sampleWith { reading 2 with rxCnt := n } [(rbufAddr 0 0, x)]

theorem witness_RxbResyncsGarbage :
    ((holding 1 0x10).chan? 0 = some { reading 2 with rxCnt := 1 } ∧
      Memory.read (holding 1 0x10).mem (rbufAddr 0 0) = some 0x10 ∧ (0x10 : Byte) ≠ 0x02) ∧
    (holding 514 0x02).chan? 0 = some { reading 2 with rxCnt := 514 } ∧ 514 < (holding 514 0x02).bufCap.toNat ∧
      Memory.read (holding 514 0x02).mem (rbufAddr 0 0) = some 0x02 := by decide

/-- A full buffer, started or not; any byte on the first, any byte but 0x02 on the second. -/
theorem witness_RxbOverflowRecyclesTheBuffer :
    (∀ x ∈ ([0x02, 0x41] : List Byte), (holding 515 x).chan? 0 = some { reading 2 with rxCnt := 515 } ∧
      (515 : Half) = (holding 515 x).bufCap ∧
      (holding 515 x).started? 0 { reading 2 with rxCnt := 515 } = some (decide (x = 0x02))) ∧
    ¬((0x02 : Byte) = 0x02 ∧ (515 : Half) ≠ 0 ∧ true = false) ∧ ¬((0x03 : Byte) = 0x02 ∧ (515 : Half) ≠ 0 ∧ false = false) := by
  decide

/-- An empty buffer, where 0x02 is no resync, and a started one with room for one byte. -/
theorem witness_RxbAppendsTheByte :
    (sample.chan? 0 = some (reading 2) ∧ (reading 2).rxCnt ≠ sample.bufCap ∧ sample.started? 0 (reading 2) = some false ∧
      ¬((0x02 : Byte) = 0x02 ∧ (reading 2).rxCnt ≠ 0 ∧ false = false)) ∧
    (holding 514 0x02).chan? 0 = some { reading 2 with rxCnt := 514 } ∧ (514 : Half) ≠ (holding 514 0x02).bufCap ∧
      (holding 514 0x02).started? 0 { reading 2 with rxCnt := 514 } = some true := by decide

theorem witness_RxeSpendsOneAttempt : ((sampleWith (reading 1) []).chan? 0 = some (reading 1) ∧ (reading 1).rxAtt = 1) ∧
    sample.chan? 0 = some (reading 2) ∧ 2 ≤ (reading 2).rxAtt.toNat := by decide

theorem witness_ExactlyNAttempts : sample.Inv ∧ sample.chan? 1 = some ended ∧ ended.phase ≠ .active ∧
    List.count RxEvent.empty [RxEvent.byte 0x02, .empty] < ended.nattCfg.toNat ∧
    ended.nattCfg.toNat ≤ List.count RxEvent.empty [RxEvent.empty, .empty] := ⟨sample_inv, by decide⟩

theorem witness_ReadEndsOnlyByEndMarkerOrTimeout :
    (∃ t, exec (.rxb 0 0x03) sample = .next t ∧ (t.chan? 0).map Channel.phase = some .done) ∧
    (∃ t, exec (.rxe 0) (sampleWith (reading 1) []) = .next t ∧ (t.chan? 0).map Channel.phase = some .done) ∧
    ∃ t, exec .reset sample = .next t ∧ (t.chan? 0).map Channel.phase = some .idle :=
  ⟨runs (by decide), runs (by decide), runs (by decide)⟩

theorem witness_StartedBufferIsNeverCleared : (holding 1 0x02).chan? 0 = some { reading 2 with rxCnt := 1 } ∧
    1 < (holding 1 0x02).bufCap.toNat ∧ (holding 1 0x02).raw? 0 { reading 2 with rxCnt := 1 } = some [0x02] := by decide

theorem witness_ReceiverAgreesWithTheCodec : sample.Inv ∧ sample.chan? 0 = some (reading 2) ∧ (reading 2).phase = .active ∧
    (reading 2).rxCnt = 0 := ⟨sample_inv, by decide⟩

theorem witness_ReceivedFrameDecodes : (portTurn 0 .empty).Inv ∧ (portTurn 0 .empty).chan? 0 = some (reading 2) ∧
    (reading 2).phase = .active ∧ (reading 2).rxCnt = 0 := ⟨failedSample_inv _ _ _ _, by decide⟩

/-- Two states that agree on channel 0 and on nothing else that an operation of it could read. -/
theorem witness_ChannelsAreIndependent : OnChannel 0 (.rxb 0 0x02) ∧ (1 : Nibble) ≠ 0 ∧
    AgreeOn 0 sample { sample with plen := 9, dlen := 0, chans := [reading 2, Channel.reset] } ∧
    (∃ t, exec (.rxb 0 0x02) sample = .next t ∧ (t.chan? 0).map Channel.rxCnt = some 1) ∧
    OnChannel 1 (.decr 1) ∧ OnChannel 1 (.rrd 0x10 1) ∧ OnChannel 1 (.mrd 9 0) :=
  ⟨rfl, by decide, ⟨rfl, rfl, fun _ _ => rfl⟩, runs (by decide), rfl, ⟨rfl, by decide⟩, rfl⟩

/-- An accepted DECR of channel 1 in two states that agree on it and hold other decodes and another channel 0. -/
theorem witness_ChannelsAreIndependent_decr :
    AgreeOn 1 sample { sample with dlen := 0, dstat := 0x0FF, dfield := 0, chans := [Channel.reset, ended] } ∧
    (sample.chan? 1 = some ended ∧ ended.phase ≠ .active) ∧
    ∃ t, exec (.decr 1) sample = .next t ∧ t.dlen = 5 :=
  ⟨⟨rfl, rfl, fun _ _ => rfl⟩, ⟨rfl, by decide⟩, runs (by decide)⟩

theorem witness_ChannelEventsCommute : sample.Inv ∧ (0 : Nibble) ≠ 1 := ⟨sample_inv, by decide⟩

theorem witness_RxDoneLine : (sample.rxDone 0 = false ∧ ∃ t, exec (.rxb 0 0x03) sample = .next t ∧ t.rxDone 0 = true) ∧
    sample.rxDone 1 = true ∧ (∃ t, exec (.rdstart 1) sample = .next t ∧ t.rxDone 1 = false) ∧
    ∃ t, exec .reset sample = .next t ∧ t.rxDone 1 = false :=
  ⟨⟨rfl, runs (by decide)⟩, rfl, runs (by decide), runs (by decide)⟩

/-- The last readable index of each space. -/
theorem witness_MrdReadsTheByte :
    (∀ m ∈ [([(pbufAddr 254, 0x5A), (wbufAddr 514, 0xAA)] : Memory)],
      Memory.read m (pbufAddr 254) = some 0x5A ∧ Memory.read m (wbufAddr 514) = some 0xAA) ∧
    (4 : Half).toNat < sample.dlen.toNat ∧ Memory.read sample.mem (dbufAddr 4) = some 0x03 ∧
    sample.chan? 1 = some ended ∧ (9 : Nibble).toNat = 8 + (1 : Nibble).toNat ∧ (4 : Half).toNat < ended.rxCnt.toNat ∧
    Memory.read sample.mem (rbufAddr 1 4) = some 0x03 := by decide

theorem witness_MwrWritesOneByte : (254 : Half).toNat < 255 ∧ (514 : Half).toNat < 515 := by decide

/-- The last entry of each of the two lists. -/
theorem witness_RrdReadsTheRegister :
    (0x08, sample.bufCap) ∈ ([(0x00, sample.plen.setWidth 16), (0x01, sample.wlen.setWidth 16), (0x02, sample.dlen),
      (0x03, sample.dstat.setWidth 16), (0x04, sample.dfield), (0x05, sample.csumR.setWidth 16),
      (0x06, if sample.fatal then 1 else 0), (0x07, BitVec.ofNat 16 sample.chans.length), (0x08, sample.bufCap)] :
      List (Byte × Half)) ∧
    sample.chan? 1 = some ended ∧
    (0x15, ended.nattCfg) ∈ ([(0x11, ended.rxCnt), (0x12, ended.rxAtt), (0x13, ended.rxHint), (0x14, ended.hintCfg),
      (0x15, ended.nattCfg)] : List (Byte × Half)) := by decide

/-- A started buffer, an empty one, and one led by garbage. -/
theorem witness_RxStateLayout : (sample.chan? 1 = some ended ∧ sample.started? 1 ended = some true) ∧ (reading 2).rxCnt = 0 ∧
    ended.rxCnt ≠ 0 ∧ Memory.read (holding 1 0x10).mem (rbufAddr 0 0) = some 0x10 := by decide

theorem witness_RwrWritesTheRegister : (255 : Half).toNat ≤ 255 ∧ (515 : Half).toNat ≤ 515 ∧ sample.chan? 1 = some ended := by
  decide

theorem witness_ReadsHaveNoSideEffect : (∃ t, exec (.mrd 9 0) sample = .next t ∧ t.result = some 0x00000200) ∧
    ∃ t, exec (.rrd 0x10 1) sample = .next t ∧ t.result = some 0x00002600 := ⟨runs (by decide), runs (by decide)⟩

theorem witness_WriteThenRead : ((0 : Nibble) = 0 ∧ (254 : Half).toNat < 255) ∧ ((1 : Nibble) = 1 ∧ (514 : Half).toNat < 515) ∧
    ((0 : Nibble), (254 : Half)) ≠ (1, 514) := by decide

theorem witness_LoadPseudoInstructionsLoad : (List.replicate 255 (0x10 : Byte)).length ≤ 255 ∧
    (List.replicate 515 (0x10 : Byte)).length ≤ 515 ∧ sample.chan? 1 = some ended ∧
    (portTurn 0 .empty).transports[0]? = some [.empty, .empty] :=
  ⟨(List.length_replicate ..).le, (List.length_replicate ..).le, rfl, rfl⟩

theorem witness_ResetValues : State.reset.chan? 1 = some Channel.reset ∧ 2 ≤ BitVec.toNat (2 : Nibble) := by decide

theorem witness_InvariantHoldsAtReset : Config.legalParams 8 (65535 : Half).toNat = true := by decide

theorem witness_InvariantKeptByEveryStep : (portTurn 0 (.byte 0x03)).Inv ∧
    ∃ t, step (portTurn 0 (.byte 0x03)) = .next t ∧ t.rxDone 0 = true := ⟨failedSample_inv _ _ _ _, runs (by decide)⟩

theorem witness_StepNeverStopsButOnUndef : (hostTurn 0x00050007).Inv ∧ step (hostTurn 0x00050007) = .fault .undefByte :=
  ⟨failedSample_inv _ _ _ _, rfl⟩

theorem witness_FailedDecodeIsUnreadable : (sample.Inv ∧ sample.dvalid = true) ∧
    (hostTurn 0x0000000F).Inv ∧ (hostTurn 0x0000000F).dvalid = false :=
  ⟨⟨sample_inv, by decide⟩, failedSample_inv _ _ _ _, by decide⟩

theorem witness_GlobalRegistersHaveTheirWriters :
    (∃ t, exec (.rwr 0x00 9 0) sample = .next t ∧ t.plen ≠ sample.plen) ∧
    (∃ t, exec .enc sample2 = .next t ∧ t.wlen ≠ sample2.wlen ∧ t.csumR ≠ sample2.csumR) ∧
    (∃ t, exec (.decr 1) (hostTurn 0) = .next t ∧ t.dlen ≠ (hostTurn 0).dlen) ∧
    ∃ t, exec .reset { sample with fatal := true } = .next t ∧ t.fatal ≠ true :=
  ⟨runs (by decide), runs (by decide), runs (by decide), runs (by decide)⟩

theorem witness_ChannelRegistersHaveTheirWriters :
    (∃ t, exec (.rxb 0 0x10) sample = .next t ∧
      (t.chan? 0).map (fun ch => (ch.rxCnt, ch.esc)) = some (1, true) ∧ sample.chan? 0 = some (reading 2)) ∧
    (∃ t, exec (.rxe 0) sample = .next t ∧ (t.chan? 0).map Channel.rxAtt = some 1) ∧
    ∃ t, exec (.rwr 0x14 9 1) sample = .next t ∧ (t.chan? 1).map Channel.hintCfg = some 9 :=
  ⟨runs (by decide), runs (by decide), runs (by decide)⟩

theorem witness_SpacesHaveTheirWriters :
    (∃ t, exec (.mwr 0 254 0x5A) sample = .next t ∧
      Memory.read t.mem (pbufAddr 254) ≠ Memory.read sample.mem (pbufAddr 254)) ∧
    (∃ t, exec .enc sample2 = .next t ∧ Memory.read t.mem (wbufAddr 7) ≠ Memory.read sample2.mem (wbufAddr 7)) ∧
    ∃ t, exec (.rxb 0 0x02) sample = .next t ∧ Memory.read t.mem (rbufAddr 0 0) ≠ Memory.read sample.mem (rbufAddr 0 0) :=
  ⟨runs (by decide), runs (by decide), runs (by decide)⟩

theorem witness_OnlyEncReadsFatal : (∃ t, exec .csum sample = .next t ∧ t.csumR = 0x07) ∧
    exec (.mrd 0 5) sample = .fault .undefByte ∧
    ∃ t, exec .enc { sample with fatal := true } = .next t ∧ t.fatal = true := ⟨runs (by decide), rfl, runs (by decide)⟩

end Sys2Proof.Tests
end

section
/-! Reads of UNDEF bytes (00_scope.md R14): where a byte run that an operation reads has a byte with no value, and that
the operation faults there. -/

namespace Sys2Proof.Machine

/-! ### Addresses and the byte runs the codec reads -/

theorem spaceAddr_zero_add (sp i : Nat) : spaceAddr sp 0 + i = spaceAddr sp i := by simp [spaceAddr]

/-- The payload has no value exactly when a byte of PBUF[0..PLEN-1] is UNDEF. -/
theorem State.payload?_eq_none {s : State} :
    s.payload? = none ↔ ∃ k, k < s.plen.toNat ∧ Memory.read s.mem (pbufAddr k) = none := by
  unfold State.payload? pbufAddr
  simp only [Memory.readList_eq_none, spaceAddr_zero_add]

/-- The wire frame has no value exactly when a byte of WBUF[0..WLEN-1] is UNDEF. -/
theorem State.wire?_eq_none {s : State} :
    s.wire? = none ↔ ∃ k, k < s.wlen.toNat ∧ Memory.read s.mem (wbufAddr k) = none := by
  unfold State.wire? wbufAddr
  simp only [Memory.readList_eq_none, spaceAddr_zero_add]

/-! ### The operations that read an UNDEF byte -/

theorem exec_csum_undef {s : State} (h : s.payload? = none) : exec .csum s = .fault .undefByte := by
  simp [exec, execCsum, h]

/-- ENC that is not refused: neither halted nor given an empty payload (40_codec.md R407). -/
theorem exec_enc_undef {s : State} (hfatal : s.fatal = false) (hplen : s.plen ≠ 0) (h : s.payload? = none) :
    exec .enc s = .fault .undefByte := by
  simp only [exec, execEnc, hfatal, if_neg hplen, h, Bool.false_eq_true, if_false]

theorem exec_decw_undef {s : State} (h : s.wire? = none) : exec .decw s = .fault .undefByte := by
  simp [exec, execDecw, h]

/-- MRD of an index its space allows (42_access.md R500), whatever the space. -/
theorem exec_mrd_undef {s : State} {sp : Nibble} {idx : Half} {n : Nat} (hlimit : s.readLimit (spaceOf sp) = some n)
    (hidx : idx.toNat < n) (h : Memory.read s.mem (spaceAddr sp.toNat idx.toNat) = none) :
    exec (.mrd sp idx) s = .fault .undefByte := by
  have hrange : ¬ n ≤ idx.toNat := Nat.not_le.mpr hidx
  simp [exec, execMrd, hlimit, hrange, h]

/-- Settles O27. ENC's other refusal, an empty payload, cannot meet an UNDEF byte: an index below PLEN makes PLEN
nonzero. -/
theorem unwrittenByteFaults : Obligations.UnwrittenByteFaults := by
  unfold Obligations.UnwrittenByteFaults
  refine ⟨fun s k hk hundef => ?_, fun s k hk hundef => ?_, fun s idx hidx hundef => ?_, fun s idx hidx hundef => ?_⟩
  · have hpayload : s.payload? = none := State.payload?_eq_none.mpr ⟨k, hk, hundef⟩
    have hplen : s.plen ≠ 0 := fun h0 => by simp [h0] at hk
    exact ⟨exec_csum_undef hpayload, fun hfatal => exec_enc_undef hfatal hplen hpayload⟩
  · exact exec_decw_undef (State.wire?_eq_none.mpr ⟨k, hk, hundef⟩)
  · exact exec_mrd_undef (n := Config.pbufCap) rfl hidx hundef
  · exact exec_mrd_undef (n := Config.wbufCap) rfl hidx hundef

end Sys2Proof.Machine
end

section
/-! Decoding is total and unambiguous (30_encoding.md R326 to R329). The decoder and the opcode table are written apart; they are
held together here by three facts: an accepted word is the word of its instruction (so a row accepts it), a rejected word is
illegal by its fields, and no row accepts a word that is illegal by its fields. -/

namespace Sys2Proof

open Sys2Proof.Machine Sys2Proof.Laws

/-! ### A word and its fields -/

/-- A word is determined by its four fields (30_encoding.md R320). -/
theorem word_eq_iff_fields {v w : Word} :
    v = w ↔ fieldOp v = fieldOp w ∧ fieldCh v = fieldCh w ∧ fieldB v = fieldB w ∧ fieldIdx v = fieldIdx w := by
  constructor
  · rintro rfl
    exact ⟨rfl, rfl, rfl, rfl⟩
  · rintro ⟨hop, hch, hb, hidx⟩
    rw [← assemble_fields v, ← assemble_fields w, hop, hch, hb, hidx]

/-! ### The rows of the table -/

theorem OpRow.accepts_iff {r : OpRow} {w : Word} : r.accepts w = true ↔ w &&& r.mask = r.pattern := by
  rw [OpRow.accepts, beq_iff_eq]

/-- A row tests a word field by field. -/
theorem OpRow.accepts_iff_fields {r : OpRow} {w : Word} :
    r.accepts w = true ↔
      fieldOp w &&& fieldOp r.mask = fieldOp r.pattern ∧ fieldCh w &&& fieldCh r.mask = fieldCh r.pattern ∧
      fieldB w &&& fieldB r.mask = fieldB r.pattern ∧ fieldIdx w &&& fieldIdx r.mask = fieldIdx r.pattern := by
  rw [OpRow.accepts_iff, word_eq_iff_fields]
  simp only [fieldOp, fieldCh, fieldB, fieldIdx, BitVec.extractLsb'_and]

/-- Two rows whose patterns differ on the bits that both of them test. -/
def OpRow.Conflicts (r r' : OpRow) : Prop := r.pattern &&& r'.mask ≠ r'.pattern &&& r.mask

theorem OpRow.Conflicts.not_accepts {r r' : OpRow} (h : r.Conflicts r') {w : Word} (hr : r.accepts w = true) :
    r'.accepts w ≠ true := by
  intro hr'
  rw [OpRow.accepts_iff] at hr hr'
  apply h
  rw [← hr, ← hr', BitVec.and_assoc, BitVec.and_assoc, BitVec.and_comm r.mask]

theorem opcodeTable_conflicts : opcodeTable.Pairwise OpRow.Conflicts := by
  unfold OpRow.Conflicts; decide

/-- No two rows match the same word (30_encoding.md R329). -/
theorem matchingRows_length_le_one (w : Word) : (opcodeTable.filter (fun r => r.accepts w)).length ≤ 1 := by
  have hconf := opcodeTable_conflicts.filter (fun r => r.accepts w)
  have hacc : ∀ r ∈ opcodeTable.filter (fun r => r.accepts w), r.accepts w = true :=
    fun _ hr => (List.mem_filter.mp hr).2
  generalize opcodeTable.filter (fun r => r.accepts w) = rows at hconf hacc ⊢
  match rows with
  | [] => simp
  | [_] => simp
  | r :: r' :: _ =>
    have h : r.Conflicts r' := List.rel_of_pairwise_cons hconf List.mem_cons_self
    exact absurd (hacc r' (by simp)) (h.not_accepts (hacc r (by simp)))

/-- A legal word has exactly one row. -/
theorem matchingRows_length_of_legalWord {w : Word} (h : legalWord w = true) :
    (opcodeTable.filter (fun r => r.accepts w)).length = 1 := by
  obtain ⟨r, hr, hacc⟩ := List.any_eq_true.mp h
  have hpos : 0 < (opcodeTable.filter (fun r => r.accepts w)).length :=
    List.length_pos_of_mem (List.mem_filter.mpr ⟨hr, hacc⟩)
  exact le_antisymm (matchingRows_length_le_one w) hpos

/-- A word that a row accepts breaks no rule of R327 and R328: the row fixes OP, and its mask covers every field that those
rules test at this OP. -/
theorem not_illegalFields_of_accepts {r : OpRow} (hr : r ∈ opcodeTable) {w : Word} (h : r.accepts w = true) :
    ¬IllegalFields w := by
  have hfull4 : ∀ x : Nibble, x &&& 15#4 = x := fun _ => BitVec.and_allOnes
  have hfull8 : ∀ x : Byte, x &&& 255#8 = x := fun _ => BitVec.and_allOnes
  have hfull16 : ∀ x : Half, x &&& 65535#16 = x := fun _ => BitVec.and_allOnes
  rw [OpRow.accepts_iff_fields] at h
  unfold IllegalFields
  generalize fieldOp w = op, fieldCh w = ch, fieldB w = b, fieldIdx w = idx at h ⊢
  fin_cases hr <;> simp_all [fieldOp, fieldCh, fieldB, fieldIdx]

theorem not_illegalFields_of_legalWord {w : Word} (h : legalWord w = true) : ¬IllegalFields w := by
  obtain ⟨r, hr, hacc⟩ := List.any_eq_true.mp h
  exact not_illegalFields_of_accepts hr hacc

/-! ### What the decoder answers -/

theorem mbz_eq_ok {ok : Bool} {i j : Instr} : mbz ok i = .ok j ↔ ok = true ∧ i = j := by
  cases ok <;> simp [mbz]

theorem mbz_eq_error {ok : Bool} {i : Instr} {e : Illegal} : mbz ok i = .error e ↔ ok = false ∧ .mustBeZero = e := by
  cases ok <;> simp [mbz]

/-- The opcode map matches OP as a number. -/
theorem op_eq_of_toNat {op : Nibble} {n : Nat} (h : op.toNat = n) : op = BitVec.ofNat 4 n := by
  rw [← h, BitVec.ofNat_toNat, BitVec.setWidth_eq]

theorem encode_of_decodeOp2 {ch : Nibble} {b : Byte} {idx : Half} {i : Instr} (h : decodeOp2 ch b idx = .ok i) :
    encode i = assemble 0x2 ch b idx := by
  unfold decodeOp2 at h
  split_ifs at h with hb hb
  all_goals
    simp only [mbz_eq_ok, Bool.and_eq_true, decide_eq_true_eq] at h
    obtain ⟨hzero, rfl⟩ := h
    simp only [encode, hb, hzero]

/-- The decoder drops no bit of an accepted word: each field is an operand of the instruction or passed the test for 0. -/
theorem encode_of_decodeFields {op ch : Nibble} {b : Byte} {idx : Half} {i : Instr}
    (h : decodeFields op ch b idx = .ok i) : encode i = assemble op ch b idx := by
  unfold decodeFields at h
  split at h
  case h_2 hop => rw [op_eq_of_toNat hop, encode_of_decodeOp2 h]; rfl
  case h_8 hop | h_10 hop => rw [op_eq_of_toNat hop]; cases h; rfl
  case h_12 => cases h
  all_goals
    rename_i hop
    simp only [mbz_eq_ok, Bool.and_eq_true, decide_eq_true_eq] at h
    obtain ⟨hzero, rfl⟩ := h
    simp [op_eq_of_toNat hop, encode, hzero]

theorem encode_of_decode {w : Word} {i : Instr} (h : decode w = .ok i) : encode i = w := by
  rw [encode_of_decodeFields h, assemble_fields]

theorem legalWord_encode (i : Instr) : legalWord (encode i) = true := by
  cases i with
  | enc => exact EncodeLegal.enc
  | decw => exact EncodeLegal.decw
  | decr c => exact EncodeLegal.decr c
  | csum => exact EncodeLegal.csum
  | rdstart c => exact EncodeLegal.rdstart c
  | rxb c b => exact EncodeLegal.rxb c b
  | rxe c => exact EncodeLegal.rxe c
  | mrd sp idx => exact EncodeLegal.mrd sp idx
  | mwr sp idx b => exact EncodeLegal.mwr sp idx b
  | rrd r c => exact EncodeLegal.rrd r c
  | rwr r v c => exact EncodeLegal.rwr r v c
  | reset => exact EncodeLegal.reset

theorem legalWord_of_decode {w : Word} {i : Instr} (h : decode w = .ok i) : legalWord w = true :=
  encode_of_decode h ▸ legalWord_encode i

/-- What OP 2 rejects (30_encoding.md R327). -/
theorem fields_of_decodeOp2_error {ch : Nibble} {b : Byte} {idx : Half} {e : Illegal} (h : decodeOp2 ch b idx = .error e) :
    idx ≠ 0 ∨ (b ≠ 0 ∧ b ≠ 1) ∨ (b = 0 ∧ ch ≠ 0) := by
  unfold decodeOp2 at h
  split_ifs at h with hb hb'
  · have hzero : ¬(ch = 0 ∧ idx = 0) := by simpa using (mbz_eq_error.mp h).1
    tauto
  · exact .inl (of_decide_eq_false (mbz_eq_error.mp h).1)
  · exact .inr (.inl ⟨hb, hb'⟩)

/-- The decoder rejects only by the rules of R327 and R328. -/
theorem illegalFields_of_decode_error {w : Word} {e : Illegal} (h : decode w = .error e) : IllegalFields w := by
  unfold decode decodeFields at h
  unfold IllegalFields
  split at h
  case h_2 hop => simpa [op_eq_of_toNat hop] using fields_of_decodeOp2_error h
  case h_8 | h_10 => cases h
  case h_12 =>
    simp only [imp_false] at *
    have hlt : (fieldOp w).toNat < 16 := (fieldOp w).isLt
    by_cases h0 : (fieldOp w).toNat = 0
    · exact .inl (op_eq_of_toNat h0)
    · exact .inr (.inl (by omega))
  all_goals
    rename_i hop
    simp only [mbz_eq_error, Bool.and_eq_false_iff, decide_eq_false_iff_not] at h
    simpa [op_eq_of_toNat hop, or_assoc] using h.1

/-! ### Table and decoder together -/

/-- Settles O5. A word the decoder accepts is legal, so it has exactly one row and breaks no rule; a word it rejects is
illegal by its fields, so no row accepts it. The second half looks through the pairs of rows. -/
theorem decodingIsTotalAndUnambiguous : Obligations.DecodingIsTotalAndUnambiguous := by
  unfold Obligations.DecodingIsTotalAndUnambiguous
  refine ⟨fun w => ?_, by decide⟩
  cases hdec : decode w with
  | ok i =>
    have hlegal : legalWord w = true := legalWord_of_decode hdec
    exact .inl ⟨matchingRows_length_of_legalWord hlegal, not_illegalFields_of_legalWord hlegal, i, rfl⟩
  | error e =>
    have hillegal : IllegalFields w := illegalFields_of_decode_error hdec
    have hnone : opcodeTable.filter (fun r => r.accepts w) = [] :=
      List.filter_eq_nil_iff.mpr fun _ hr hacc => not_illegalFields_of_accepts hr hacc hillegal
    exact .inr ⟨hnone, hillegal, e, rfl⟩

end Sys2Proof
end

section
/-! The codec's round trip (40_codec.md R400, R401, R406, R412): the checksum as a number, what the scan of a built frame gives,
and that the frame validates. -/

namespace Sys2Proof.Machine

/-! ### The escape function and the checksum -/

theorem esc_of_special {b : Byte} (h : b = Config.endMarker ∨ b = Config.escape) : esc b = [Config.escape, b] := if_pos h

theorem esc_of_plain {b : Byte} (h : ¬(b = Config.endMarker ∨ b = Config.escape)) : esc b = [b] := if_neg h

/-- The checksum adds modulo 256 (40_codec.md R401). -/
theorem checksum_toNat (len : Byte) (p : List Byte) :
    (checksum len p).toNat = (len.toNat + (p.map BitVec.toNat).sum) % 256 := by
  induction p generalizing len with
  | nil => simp [checksum_nil, Nat.mod_eq_of_lt len.isLt]
  | cons b p ih =>
    rw [checksum_cons, ih, BitVec.toNat_add, List.map_cons, List.sum_cons]
    omega

theorem scanFrom_flatMap_esc (st : Bool) (l : List Byte) {k : Nat} (hk : 2 ≤ k) :
    scanFrom st k false (l.flatMap esc) = (l, none) := by
  simpa [scanFrom] using scanFrom_escaped st l [] hk

/-- Settles O15. The third clause is what the scan gives back over an escaped run. -/
theorem escapeAndChecksum : Obligations.EscapeAndChecksum := by
  unfold Obligations.EscapeAndChecksum
  refine ⟨fun b => ⟨esc_of_special, fun h₁ h₂ => esc_of_plain (not_or.mpr ⟨h₁, h₂⟩)⟩, checksum_toNat,
    fun st k len p hk => ?_, by decide, by decide, BitVec.eq_of_toNat_eq ?_⟩
  · rw [← List.flatMap_def, scanFrom_flatMap_esc st p hk]
  · rw [checksum_toNat, List.map_replicate, List.sum_replicate]; decide

/-! ### The built frame -/

theorem build_checksum (p : List Byte) : (build p).2 = checksum (BitVec.ofNat 8 p.length) p := rfl

/-- The checksum is escaped as the payload is, so the frame is one escaped run between its head and the end marker. -/
theorem build_frame (p : List Byte) :
    (build p).1 = Config.startMarker :: BitVec.ofNat 8 p.length ::
      ((p ++ [(build p).2]).flatMap esc ++ [Config.endMarker]) := by
  simp [build]

theorem build_head (p : List Byte) : (build p).1.head? = some Config.startMarker := by rw [build_frame]; rfl

theorem build_length (p : List Byte) : p.length + 4 ≤ (build p).1.length ∧ (build p).1.length ≤ 2 * p.length + 5 := by
  have := flatMap_esc_length (p ++ [(build p).2])
  simp only [build_frame, List.length_append, List.length_cons, List.length_nil] at this ⊢
  omega

/-- Settles O17. -/
theorem frameBuilder : Obligations.FrameBuilder := by
  unfold Obligations.FrameBuilder
  intro p _ hmax
  obtain ⟨hlo, hhi⟩ := build_length p
  refine ⟨build_checksum p, ?_, hlo, hhi, by omega⟩
  simp [build_frame, List.flatMap_def, Config.startMarker, Config.endMarker]

/-! ### The scan of the built frame -/

/-- The scan keeps the two head bytes of a started frame, whatever LEN is, and goes on past the LEN position. -/
theorem scanFrom_frame_head (len : Byte) (rest : List Byte) :
    scanFrom true 0 false (Config.startMarker :: len :: rest) =
      (Config.startMarker :: len :: (scanFrom true 2 false rest).1, (scanFrom true 2 false rest).2) := by
  rw [scanFrom_cons_kept _ (by simp [cls_start]) (by simp [cls_start]), cls_start,
    scanFrom_cons_kept _ (by simp [cls_len]) (by simp [cls_len]), cls_len]
  rfl

theorem scanFrom_endMarker (st : Bool) {k : Nat} (hk : 2 ≤ k) :
    scanFrom st k false [Config.endMarker] = ([Config.endMarker], some k) :=
  scanFrom_cons_endMark [] (by rw [cls_body hk]; decide)

/-- The scan of a built frame gives marker, LEN, payload, checksum and marker, and ends at its last byte. -/
theorem scan_build (p : List Byte) :
    scan (build p).1 =
      (Config.startMarker :: BitVec.ofNat 8 p.length :: (p ++ [(build p).2, Config.endMarker]),
        some ((build p).1.length - 1)) := by
  have hhead : ((build p).1.head? == some Config.startMarker) = true := by rw [build_head]; rfl
  rw [scan, hhead, build_frame, scanFrom_frame_head, scanFrom_escaped _ _ _ le_rfl, scanFrom_endMarker _ (by omega)]
  refine Prod.ext (by simp) (congrArg some ?_)
  simp only [List.length_cons, List.length_append, List.length_nil]
  omega

theorem slice_middle {a m z : List Byte} {i j : Nat} (hi : a.length = i) (hj : j + 1 = i + m.length) :
    slice (a ++ (m ++ z)) i j = m := by
  rw [slice, hj, Nat.add_sub_cancel_left, List.drop_left' hi, List.take_left]

/-- Every check of 40_codec.md R404 passed. -/
theorem validate_eq_ok {raw : List Byte} :
    validate raw = .ok ↔
      Config.minFrame ≤ (scan raw).1.length ∧ raw.head? = some Config.startMarker ∧
      (scan raw).2 = some (raw.length - 1) ∧
      (scan raw).1[(scan raw).1.length - 2]? = some (checksum 0 (slice (scan raw).1 1 ((scan raw).1.length - 3))) := by
  unfold validate
  simp only
  split_ifs with hshort hhead hend hsum
  · exact iff_of_false nofun fun ⟨h, _⟩ => Nat.not_le.mpr hshort h
  · exact iff_of_false nofun fun ⟨_, h, _⟩ => hhead h
  · exact iff_of_false nofun fun ⟨_, _, h, _⟩ => hend h
  · exact iff_of_false nofun fun ⟨_, _, _, h⟩ => hsum h.symm
  · exact iff_of_true rfl ⟨Nat.not_lt.mp hshort, not_not.mp hhead, not_not.mp hend, (not_not.mp hsum).symm⟩

theorem validate_build (p : List Byte) (hp : 1 ≤ p.length) : validate (build p).1 = .ok := by
  have hslice : slice (Config.startMarker :: BitVec.ofNat 8 p.length :: (p ++ [(build p).2, Config.endMarker])) 1
      (p.length + 1) = BitVec.ofNat 8 p.length :: p :=
    slice_middle (a := [Config.startMarker]) (m := BitVec.ofNat 8 p.length :: p) rfl (by simp; omega)
  have hsum : checksum 0 (BitVec.ofNat 8 p.length :: p) = (build p).2 := by
    rw [checksum_cons, build_checksum, show (0 : Byte) + _ = _ from BitVec.zero_add _]
  have hlen : (Config.startMarker :: BitVec.ofNat 8 p.length :: (p ++ [(build p).2, Config.endMarker])).length =
      p.length + 4 := by simp
  rw [validate_eq_ok, scan_build, hlen, show p.length + 4 - 3 = p.length + 1 from rfl, hslice, hsum]
  exact ⟨by simp only [Config.minFrame]; omega, build_head p, rfl, by simp⟩

/-- Settles O18, by what the scan gives of a built frame. -/
theorem buildScanRoundTrip : Obligations.BuildScanRoundTrip := by
  unfold Obligations.BuildScanRoundTrip
  intro p hmin _
  refine ⟨validate_build p hmin, ?_, ?_, ?_⟩
  · simp [scan_build, Config.startMarker, Config.endMarker]
  · rw [scan_build]
    exact slice_middle (a := [Config.startMarker, BitVec.ofNat 8 p.length]) rfl (by simp; omega)
  · rw [scan_build]

end Sys2Proof.Machine
end

section
/-! The receiver reads a frame as the scan does (40_codec.md R414): where the scan of a list of bytes ends, one RXB that appends
its byte, and what a channel holds while the bytes of a frame arrive. -/

namespace Sys2Proof.Machine

/-! ### Where a scan ends -/

/-- A scan goes on after a byte that is not an end marker, with the escape bit that its class leaves. -/
theorem scanFrom_cons_snd {st : Bool} {k : Nat} {e : Bool} {b : Byte} (bs : List Byte) (h : cls k st e b ≠ .endMark) :
    (scanFrom st k e (b :: bs)).2 = (scanFrom st (k + 1) (escAfter (cls k st e b) e) bs).2 := by
  by_cases hesc : cls k st e b = .esc
  · rw [scanFrom_cons_esc bs hesc, hesc]; rfl
  · rw [scanFrom_cons_kept bs hesc h]

/-- A scan that meets no end marker meets none in its first byte nor after it. -/
theorem scanFrom_cons_eq_none {st : Bool} {k : Nat} {e : Bool} {b : Byte} {bs : List Byte} :
    (scanFrom st k e (b :: bs)).2 = none ↔
      cls k st e b ≠ .endMark ∧ (scanFrom st (k + 1) (escAfter (cls k st e b) e) bs).2 = none := by
  by_cases h : cls k st e b = .endMark
  · simp [scanFrom_cons_endMark bs h, h]
  · simp [scanFrom_cons_snd bs h, h]

theorem scanFrom_eq_none_of_append {st : Bool} {k : Nat} {e : Bool} {a b : List Byte}
    (h : (scanFrom st k e (a ++ b)).2 = none) : (scanFrom st k e a).2 = none := by
  induction a generalizing k e with
  | nil => rfl
  | cons x a ih =>
    obtain ⟨hx, ha⟩ := scanFrom_cons_eq_none.mp h
    exact scanFrom_cons_eq_none.mpr ⟨hx, ih ha⟩

/-- A scan that ends does so at the first byte whose class is END. -/
theorem scanFrom_eq_some {st : Bool} {k j : Nat} {e : Bool} {l : List Byte} (h : (scanFrom st k e l).2 = some j) :
    ∃ a b rest, l = a ++ b :: rest ∧ j = k + a.length ∧ (scanFrom st k e a).2 = none ∧
      cls j st (scanEsc st k e a) b = .endMark := by
  induction l generalizing k e with
  | nil => cases h
  | cons x l ih =>
    by_cases hx : cls k st e x = .endMark
    · rw [scanFrom_cons_endMark l hx] at h
      obtain rfl := Option.some.inj h
      exact ⟨[], x, l, rfl, rfl, rfl, hx⟩
    · rw [scanFrom_cons_snd l hx] at h
      obtain ⟨a, b, rest, rfl, rfl, hnone, hend⟩ := ih h
      refine ⟨x :: a, b, rest, rfl, by simp only [List.length_cons]; omega, ?_, hend⟩
      exact scanFrom_cons_eq_none.mpr ⟨hx, hnone⟩

theorem scanEsc_append (st : Bool) (a b : List Byte) (k : Nat) (e : Bool) :
    scanEsc st k e (a ++ b) = scanEsc st (k + a.length) (scanEsc st k e a) b := by
  induction a generalizing k e with
  | nil => rfl
  | cons x a ih => simp only [List.cons_append, scanEsc, ih, List.length_cons, Nat.add_assoc, Nat.add_comm 1]

/-- STARTED makes no difference at position 0. -/
theorem cls_zero (st st' e : Bool) (b : Byte) : cls 0 st e b = cls 0 st' e b := by simp [cls]

/-! ### One RXB that appends its byte -/

theorem Memory.readList_write_end {m : Memory} {a n : Nat} {bs : List Byte} (b : Byte)
    (h : Memory.readList m a n = some bs) : Memory.readList (Memory.write m (a + n) b) a (n + 1) = some (bs ++ [b]) := by
  obtain ⟨rfl, hread⟩ := (Memory.readList_eq_some _ _ _ _).mp h
  refine (Memory.readList_eq_some _ _ _ _).mpr ⟨by simp, fun i hi => ?_⟩
  by_cases hlast : i = bs.length
  · rw [hlast, Memory.read_write_same, List.getElem?_concat_length]
  · have hlt : i < bs.length := by omega
    rw [Memory.read_write_ne _ _ (by omega), hread i hlt, List.getElem?_append_left hlt]

theorem Channel.appended_endMark_phase (ch : Channel) : (ch.appended .endMark).phase = .done := rfl
theorem Channel.appended_endMark_readEnd (ch : Channel) : (ch.appended .endMark).readEnd = .frame := rfl

theorem Channel.appended_of_ne {ch : Channel} {cl : ByteClass} (h : cl ≠ .endMark) :
    ch.appended cl = { ch with rxCnt := ch.rxCnt + 1, esc := escAfter cl ch.esc } := if_neg h

@[simp] theorem Channel.appended_rxCnt (ch : Channel) (cl : ByteClass) : (ch.appended cl).rxCnt = ch.rxCnt + 1 := by
  unfold Channel.appended; split_ifs <;> rfl

theorem State.raw?_length {s : State} {c : Nibble} {ch : Channel} {raw : List Byte} (h : s.raw? c ch = some raw) :
    raw.length = ch.rxCnt.toNat := ((Memory.readList_eq_some _ _ _ _).mp h).1

/-- STARTED by the bytes held (10_state.md R121). -/
theorem State.started?_of_raw {s : State} {c : Nibble} {ch : Channel} {raw : List Byte} (h : s.raw? c ch = some raw) :
    s.started? c ch = some (raw.head? == some Config.startMarker) := by
  obtain ⟨hlen, hread⟩ := (Memory.readList_eq_some _ _ _ _).mp h
  cases raw with
  | nil =>
    have hzero : ch.rxCnt = 0 := BitVec.eq_of_toNat_eq hlen.symm
    simp [State.started?, hzero]
  | cons b raw =>
    have hzero : ch.rxCnt ≠ 0 := fun h0 => by simp [h0] at hlen
    have hfirst : Memory.read s.mem (rbufAddr c.toNat 0) = some b := by
      simpa using hread 0 (hlen ▸ Nat.succ_pos _)
    rw [State.started?, if_neg hzero, hfirst]; simp

/-- The buffer after an append holds the byte last. -/
theorem State.raw?_rxAppend {s : State} {c : Nibble} {ch : Channel} {raw : List Byte} (st : Bool) (b : Byte)
    {cap : Half} (hroom : ch.rxCnt.toNat < cap.toNat) (h : s.raw? c ch = some raw) (cl : ByteClass) :
    (rxAppend c ch st b s).raw? c (ch.appended cl) = some (raw ++ [b]) := by
  have hcnt : (ch.rxCnt + 1).toNat = ch.rxCnt.toNat + 1 := by
    have := cap.isLt
    bv_omega
  have haddr : rbufAddr c.toNat ch.rxCnt.toNat = rbufAddr c.toNat 0 + ch.rxCnt.toNat := (spaceAddr_zero_add _ _).symm
  simp only [State.raw?, rxAppend, State.putChan_mem, State.putMem_mem, Channel.appended_rxCnt, hcnt, haddr]
  exact Memory.readList_write_end b h

/-- RXB on an ACTIVE channel that is not full and meets no resync (41_receiver.md R455). -/
theorem exec_rxb_append {s : State} {c : Nibble} {ch : Channel} {st : Bool} {b : Byte} (hch : s.chan? c = some ch)
    (hact : ch.phase = .active) (hst : s.started? c ch = some st)
    (hresync : ¬(b = Config.startMarker ∧ ch.rxCnt ≠ 0 ∧ st = false)) (hroom : ch.rxCnt.toNat < s.bufCap.toNat) :
    exec (.rxb c b) s = .next ((rxAppend c ch st b s).putResult (resultWord .ok 0)) := by
  have hcap : ch.rxCnt ≠ s.bufCap := fun h => by simp [h] at hroom
  have haccept : rxAccept c ch st b s = rxAppend c ch st b s := by rw [rxAccept, if_neg hresync, if_neg hcap]
  simp [exec, execRxb, hch, hact, hst, haccept, finish]

/-! ### A channel in the middle of a frame -/

/-- The first byte, if there is one, is the start marker. -/
def LedByStart (raw : List Byte) : Prop := raw = [] ∨ raw.head? = some Config.startMarker

theorem LedByStart.of_append {a b : List Byte} (h : LedByStart (a ++ b)) : LedByStart a := by
  cases a with
  | nil => exact .inl rfl
  | cons x a => exact .inr (by simpa [LedByStart] using h)

/-- Channel `c` is ACTIVE, holds `raw`, which is a beginning of a started frame, and its ESC is the escape bit that the scan
has after `raw`. -/
structure State.Receiving (s : State) (c : Nibble) (ch : Channel) (raw : List Byte) : Prop where
  chan : s.chan? c = some ch
  active : ch.phase = .active
  held : s.raw? c ch = some raw
  led : LedByStart raw
  escape : ch.esc = scanEsc true 0 false raw

/-- An ACTIVE channel with an empty buffer is at the start of a frame. -/
theorem State.Inv.receiving_nil {s : State} (hinv : s.Inv) {c : Nibble} {ch : Channel} (hch : s.chan? c = some ch)
    (hact : ch.phase = .active) (hempty : ch.rxCnt = 0) : s.Receiving c ch [] where
  chan := hch
  active := hact
  held := by rw [State.raw?, hempty]; rfl
  led := .inl rfl
  escape := (hinv.channels c ch hch).emptyEsc hempty

/-- The class of the next byte is the one the scan of a started frame gives it there. -/
theorem State.Receiving.cls_eq {s : State} {c : Nibble} {ch : Channel} {raw : List Byte} (h : s.Receiving c ch raw)
    (b : Byte) :
    cls ch.rxCnt.toNat (raw.head? == some Config.startMarker) ch.esc b =
      cls raw.length true (scanEsc true 0 false raw) b := by
  rw [h.escape, ← State.raw?_length h.held]
  rcases h.led with rfl | hled
  · exact cls_zero _ _ _ _
  · simp [hled]

/-- The receiver classifies the next byte as the scan does (40_codec.md R414). -/
theorem State.Receiving.classOnChannel_eq {s : State} {c : Nibble} {ch : Channel} {raw : List Byte}
    (h : s.Receiving c ch raw) (hroom : raw.length < s.bufCap.toNat) :
    ∃ st, s.started? c ch = some st ∧ ∀ b, classOnChannel s ch st b = cls raw.length true ch.esc b := by
  have hcap : ch.rxCnt ≠ s.bufCap := fun hfull => by rw [State.raw?_length h.held, hfull] at hroom; omega
  exact ⟨_, State.started?_of_raw h.held, fun b => by rw [classOnChannel, if_neg hcap, h.cls_eq, h.escape]⟩

/-- The next byte of a started frame is appended with the class the scan gives it. -/
theorem State.Receiving.exec_rxb {s : State} {c : Nibble} {ch : Channel} {raw : List Byte} (h : s.Receiving c ch raw)
    (hroom : raw.length < s.bufCap.toNat) (b : Byte) :
    ∃ t, exec (.rxb c b) s = .next t ∧ t.bufCap = s.bufCap ∧
      t.chan? c = some (ch.appended (cls raw.length true (scanEsc true 0 false raw) b)) ∧
      t.raw? c (ch.appended (cls raw.length true (scanEsc true 0 false raw) b)) = some (raw ++ [b]) := by
  have hlen := State.raw?_length h.held
  have hresync : ¬(b = Config.startMarker ∧ ch.rxCnt ≠ 0 ∧ (raw.head? == some Config.startMarker) = false) := by
    rintro ⟨-, hne, hst⟩
    rcases h.led with rfl | hraw
    · exact hne (BitVec.eq_of_toNat_eq hlen.symm)
    · simp [hraw] at hst
  have hexec := exec_rxb_append h.chan h.active (State.started?_of_raw h.held) hresync (hlen ▸ hroom)
  refine ⟨_, hexec, rfl, ?_, State.raw?_rxAppend (raw.head? == some Config.startMarker) b (hlen ▸ hroom) h.held _⟩
  rw [State.chan?_putResult, rxAppend, h.cls_eq]
  exact State.chan?_putChan_same _ (State.chan?_lt h.chan)

/-- Bytes in which the scan meets no end marker leave the channel in the middle of the frame. -/
theorem State.Receiving.execAll_rxs {bs raw : List Byte} {s : State} {c : Nibble} {ch : Channel}
    (h : s.Receiving c ch raw) (hroom : (raw ++ bs).length ≤ s.bufCap.toNat)
    (hled : LedByStart (raw ++ bs))
    (hscan : (scanFrom true raw.length (scanEsc true 0 false raw) bs).2 = none) :
    ∃ t ch', execAll (expandRxs c bs) s = .next t ∧ t.bufCap = s.bufCap ∧ t.Receiving c ch' (raw ++ bs) := by
  induction bs generalizing raw s ch with
  | nil => exact ⟨s, ch, rfl, rfl, by rwa [List.append_nil]⟩
  | cons b bs ih =>
    obtain ⟨hcls, hscan⟩ := scanFrom_cons_eq_none.mp hscan
    have hsplit : raw ++ b :: bs = (raw ++ [b]) ++ bs := by simp
    rw [hsplit] at hroom hled ⊢
    have hlt : raw.length < s.bufCap.toNat := by simp only [List.length_append, List.length_cons] at hroom; omega
    obtain ⟨u, hexec, hcap, hchan, hheld⟩ := h.exec_rxb hlt b
    have hesc : scanEsc true 0 false (raw ++ [b]) =
        escAfter (cls raw.length true (scanEsc true 0 false raw) b) (scanEsc true 0 false raw) := by
      rw [scanEsc_append, Nat.zero_add]; rfl
    have hnext : u.Receiving c (ch.appended (cls raw.length true (scanEsc true 0 false raw) b)) (raw ++ [b]) :=
      ⟨hchan, by rw [Channel.appended_of_ne hcls]; exact h.active, hheld, hled.of_append,
        by rw [Channel.appended_of_ne hcls, hesc, h.escape]⟩
    obtain ⟨t, ch', hrun, hcap', hrec⟩ := ih hnext (by rwa [hcap]) hled (by rwa [hesc, List.length_append])
    exact ⟨t, ch', execAll_cons_next.mpr ⟨u, hexec, hrun⟩, hcap'.trans hcap, hrec⟩

/-! ### A whole frame -/

/-- A list of bytes that the scan ends at its last byte is a part in which it meets no end marker, and that end marker. -/
theorem scanFrom_eq_some_last {st e : Bool} {w : List Byte} (hw : w ≠ [])
    (h : (scanFrom st 0 e w).2 = some (w.length - 1)) :
    ∃ body b, w = body ++ [b] ∧ (scanFrom st 0 e body).2 = none ∧
      cls body.length st (scanEsc st 0 e body) b = .endMark := by
  obtain ⟨body, b, rest, rfl, hj, hnone, hend⟩ := scanFrom_eq_some h
  have hrest : rest = [] := by
    rw [List.length_append, List.length_cons] at hj
    exact List.length_eq_zero_iff.mp (by omega)
  subst hrest
  rw [hj, Nat.zero_add] at hend
  exact ⟨body, b, rfl, hnone, hend⟩

/-- From an ACTIVE channel with an empty buffer, the beginning of a frame is received byte for byte. -/
theorem State.Inv.execAll_rxs {s : State} (hinv : s.Inv) {c : Nibble} {ch : Channel} (hch : s.chan? c = some ch)
    (hact : ch.phase = .active) (hempty : ch.rxCnt = 0) {bs : List Byte} (hled : LedByStart bs)
    (hroom : bs.length ≤ s.bufCap.toNat) (hscan : (scanFrom true 0 false bs).2 = none) :
    ∃ t ch', execAll (expandRxs c bs) s = .next t ∧ t.bufCap = s.bufCap ∧ t.Receiving c ch' bs :=
  (hinv.receiving_nil hch hact hempty).execAll_rxs hroom hled hscan

/-- The byte whose class is END completes the read (41_receiver.md R456). -/
theorem State.Receiving.exec_rxb_end {s : State} {c : Nibble} {ch : Channel} {raw : List Byte}
    (h : s.Receiving c ch raw) (hroom : raw.length < s.bufCap.toNat) {b : Byte}
    (hend : cls raw.length true (scanEsc true 0 false raw) b = .endMark) :
    ∃ t ch', exec (.rxb c b) s = .next t ∧ t.chan? c = some ch' ∧ ch'.phase = .done ∧ ch'.readEnd = .frame ∧
      t.raw? c ch' = some (raw ++ [b]) := by
  obtain ⟨t, hexec, -, hchan, hheld⟩ := h.exec_rxb hroom b
  rw [hend] at hchan hheld
  exact ⟨t, _, hexec, hchan, ch.appended_endMark_phase, ch.appended_endMark_readEnd, hheld⟩

theorem State.Inv.bufCap_ge {s : State} (hinv : s.Inv) : 515 ≤ s.bufCap.toNat := by
  have h := hinv.params
  simp only [Config.legalParams, Bool.and_eq_true, decide_eq_true_eq] at h
  exact h.1.2

/-- A part of a frame in which the scan meets no end marker is received byte for byte, each beginning of it too. -/
theorem State.Inv.execAll_rxs_take {s : State} (hinv : s.Inv) {c : Nibble} {ch : Channel} (hch : s.chan? c = some ch)
    (hact : ch.phase = .active) (hempty : ch.rxCnt = 0) {body : List Byte} (hled : LedByStart body)
    (hroom : body.length ≤ s.bufCap.toNat) (hscan : (scanFrom true 0 false body).2 = none) (k : Nat) :
    ∃ t ch', execAll (expandRxs c (body.take k)) s = .next t ∧ t.bufCap = s.bufCap ∧
      t.Receiving c ch' (body.take k) := by
  rw [← List.take_append_drop k body] at hled hscan
  exact hinv.execAll_rxs hch hact hempty hled.of_append ((List.length_take_le' _ _).trans hroom)
    (scanFrom_eq_none_of_append hscan)

/-- The built frame is a part in which the scan meets no end marker, and the end marker. -/
theorem build_eq_body_end (p : List Byte) :
    ∃ body b, (build p).1 = body ++ [b] ∧ LedByStart body ∧ (scanFrom true 0 false body).2 = none ∧
      cls body.length true (scanEsc true 0 false body) b = .endMark := by
  have hne : (build p).1 ≠ [] := fun hnil => by simpa [hnil] using build_head p
  have hscan : (scanFrom true 0 false (build p).1).2 = some ((build p).1.length - 1) := by
    have := congrArg Prod.snd (scan_build p)
    rwa [scan, build_head] at this
  obtain ⟨body, b, hw, hnone, hend⟩ := scanFrom_eq_some_last hne hscan
  have hled : LedByStart (body ++ [b]) := .inr (hw ▸ build_head p)
  exact ⟨body, b, hw, hled.of_append, hnone, hend⟩

/-- Settles O38. The channel is in the middle of the frame after every beginning of its part without an end marker, and the
frame's last byte has the class END. -/
theorem receiverAgreesWithTheCodec : Obligations.ReceiverAgreesWithTheCodec := by
  unfold Obligations.ReceiverAgreesWithTheCodec
  intro s c ch p hinv hch hact hempty _ hmax
  have hstarted : ((build p).1[0]? == some 0x02) = true := by rw [← List.head?_eq_getElem?, build_head]; rfl
  have hcap : (build p).1.length ≤ s.bufCap.toNat := by
    have := (build_length p).2
    have := hinv.bufCap_ge
    omega
  obtain ⟨body, b, hw, hled, hnone, hend⟩ := build_eq_body_end p
  simp only [hstarted]
  rw [hw] at hcap ⊢
  simp only [List.length_append, List.length_cons, List.length_nil] at hcap ⊢
  have hroom : body.length < s.bufCap.toNat := by omega
  refine ⟨fun k hk => ?_, ?_⟩
  · have hle : k ≤ body.length := by omega
    have hlen : (body.take k).length = k := List.length_take_of_le hle
    rw [List.take_append_of_le_length hle]
    obtain ⟨t, ch', hrun, hsame, hrec⟩ := hinv.execAll_rxs_take hch hact hempty hled hroom.le hnone k
    have hclass := hrec.classOnChannel_eq (by rw [hsame]; omega)
    have hcnt := State.raw?_length hrec.held
    rw [hlen] at hclass hcnt
    exact ⟨t, ch', hrun, hrec.chan, hrec.active, hcnt.symm, hrec.held, hrec.escape, hclass⟩
  · obtain ⟨u, ch₁, hrun, hsame, hrec⟩ := hinv.execAll_rxs hch hact hempty hled hroom.le hnone
    obtain ⟨t, ch', hexec, hlast⟩ := hrec.exec_rxb_end (hsame ▸ hroom) hend
    refine ⟨t, ch', ?_, hlast⟩
    rw [expandRxs, List.map_append]
    exact execAll_append_next.mpr ⟨u, hrun, execAll_cons_next.mpr ⟨t, hexec, rfl⟩⟩

end Sys2Proof.Machine
end

section
/-! What an operation of one channel does (41_receiver.md R464): one update of that channel, or one decode into DBUF, either of
them settled by what two states that agree on the channel have in common. -/

namespace Sys2Proof.Machine

/-! ### Addresses of different spaces -/

theorem rbufAddr_ne {c d : Nibble} {i j : Nat} (h : d ≠ c) (hi : i < 65536) (hj : j < 65536) :
    rbufAddr d.toNat i ≠ rbufAddr c.toNat j := by
  intro heq
  have hspace := ((spaceAddr_inj hi hj).mp heq).1
  exact h (BitVec.eq_of_toNat_eq (by omega))

theorem dbufAddr_ne_rbufAddr {c : Nibble} {i j : Nat} (hi : i < 65536) (hj : j < 65536) :
    dbufAddr i ≠ rbufAddr c.toNat j := by
  intro heq
  have hspace := ((spaceAddr_inj hi hj).mp heq).1
  omega

/-- A run of bytes in DBUF ends below every RBUF. -/
theorem dbufAddr_add_le_rbufAddr (c : Nibble) (i : Nat) {n : Nat} (hn : n < 65536) :
    dbufAddr 0 + n ≤ rbufAddr c.toNat i := by
  simp only [dbufAddr, rbufAddr, spaceAddr]; omega

/-! ### One byte written -/

theorem stores_write (m : Memory) (a : Nat) (b : Byte) : Stores m (Memory.write m a b) a [b] := by
  refine ⟨fun i hi => ?_, fun x hx => Memory.read_write_ne m b ?_⟩
  · obtain rfl : i = 0 := by simpa using hi
    exact Memory.read_write_same m a b
  · simp only [List.length_cons, List.length_nil] at hx; omega

theorem Memory.write_comm {m : Memory} (h : Memory.wf m = true) {a a' : Nat} (hne : a ≠ a') (b b' : Byte) :
    Memory.write (Memory.write m a b) a' b' = Memory.write (Memory.write m a' b') a b := by
  refine Memory.ext_of_wf (Memory.wf_write (Memory.wf_write h a b) a' b') (Memory.wf_write (Memory.wf_write h a' b') a b)
    fun x => ?_
  by_cases hx : x = a
  · rw [hx, Memory.read_write_same, Memory.read_write_ne _ _ hne, Memory.read_write_same]
  · rw [Memory.read_write_ne _ b hx]
    by_cases hx' : x = a'
    · rw [hx', Memory.read_write_same, Memory.read_write_same]
    · rw [Memory.read_write_ne _ b' hx', Memory.read_write_ne _ b' hx', Memory.read_write_ne _ b hx]

/-! ### The update of one channel -/

/-- What an operation of channel `c` other than an accepted DECR does: the word it answers, the channel's registers if it
writes them, and the index and value of the byte of RBUF[c] that it writes, if it writes one. -/
structure ChannelUpdate where
  word : Word
  regs : Option Channel := none
  cell : Option (Half × Byte) := none

/-- The channels after an update of channel `c`. -/
def ChannelUpdate.onChans (u : ChannelUpdate) (c : Nibble) (chs : List Channel) : List Channel :=
  match u.regs with
  | none => chs
  | some ch => chs.set c.toNat ch

/-- The memory after an update of channel `c`. -/
def ChannelUpdate.onMem (u : ChannelUpdate) (c : Nibble) (m : Memory) : Memory :=
  match u.cell with
  | none => m
  | some (k, b) => Memory.write m (rbufAddr c.toNat k.toNat) b

/-- The state after an update of channel `c`. -/
def State.update (s : State) (c : Nibble) (u : ChannelUpdate) : State :=
  { s with mem := u.onMem c s.mem, chans := u.onChans c s.chans, result := some u.word }

@[simp] theorem State.update_result (s : State) (c : Nibble) (u : ChannelUpdate) : (s.update c u).result = some u.word := rfl

@[simp] theorem ChannelUpdate.length_onChans (u : ChannelUpdate) (c : Nibble) (chs : List Channel) :
    (u.onChans c chs).length = chs.length := by
  unfold ChannelUpdate.onChans; split <;> simp

theorem ChannelUpdate.read_onMem_of_ne (u : ChannelUpdate) {c : Nibble} (m : Memory) {a : Nat}
    (h : ∀ k, k < 65536 → a ≠ rbufAddr c.toNat k) : Memory.read (u.onMem c m) a = Memory.read m a := by
  unfold ChannelUpdate.onMem
  split
  · rfl
  · next k b _ => exact Memory.read_write_ne m b (h k.toNat k.isLt)

/-- What an update of channel `c` leaves at an address depends on nothing but what stood there. -/
theorem ChannelUpdate.read_onMem_congr (u : ChannelUpdate) (c : Nibble) {m m' : Memory} {a : Nat}
    (h : Memory.read m a = Memory.read m' a) : Memory.read (u.onMem c m) a = Memory.read (u.onMem c m') a := by
  unfold ChannelUpdate.onMem
  split
  · exact h
  · next k b _ =>
    by_cases ha : a = rbufAddr c.toNat k.toNat
    · rw [ha, Memory.read_write_same, Memory.read_write_same]
    · rw [Memory.read_write_ne m b ha, Memory.read_write_ne m' b ha, h]

theorem State.chan?_update_of_ne (s : State) {c d : Nibble} (u : ChannelUpdate) (h : d ≠ c) :
    (s.update c u).chan? d = s.chan? d := by
  simp only [State.chan?, State.update, ChannelUpdate.onChans]
  split
  · rfl
  · exact State.chan?_putChan_ne _ h

theorem State.chan?_update_congr (c : Nibble) (u : ChannelUpdate) {s s' : State} (h : s.chan? c = s'.chan? c) :
    (s.update c u).chan? c = (s'.update c u).chan? c := by
  simp only [State.chan?, State.update, ChannelUpdate.onChans] at h ⊢
  split
  · exact h
  · rw [List.getElem?_set_self', List.getElem?_set_self', h]

theorem State.read_update_rbuf_of_ne (s : State) {c d : Nibble} (u : ChannelUpdate) (h : d ≠ c) {k : Nat}
    (hk : k < 65536) :
    Memory.read (s.update c u).mem (rbufAddr d.toNat k) = Memory.read s.mem (rbufAddr d.toNat k) :=
  u.read_onMem_of_ne s.mem fun _ hj => rbufAddr_ne h hk hj

theorem State.read_update_dbuf (s : State) (c : Nibble) (u : ChannelUpdate) {k : Nat} (hk : k < 65536) :
    Memory.read (s.update c u).mem (dbufAddr k) = Memory.read s.mem (dbufAddr k) :=
  u.read_onMem_of_ne s.mem fun _ hj => dbufAddr_ne_rbufAddr hk hj

/-- Updates of two channels may be taken in either order. The canonical form of memory turns equal reads into equal data. -/
theorem State.update_comm {s : State} (hwf : Memory.wf s.mem = true) {c d : Nibble} (h : c ≠ d) (u v : ChannelUpdate) :
    ((s.update c u).update d v).noResult = ((s.update d v).update c u).noResult := by
  have hchans : v.onChans d (u.onChans c s.chans) = u.onChans c (v.onChans d s.chans) := by
    have hne : c.toNat ≠ d.toNat := fun e => h (BitVec.eq_of_toNat_eq e)
    unfold ChannelUpdate.onChans
    cases u.regs <;> cases v.regs <;> simp only [List.set_comm _ _ hne]
  have hmem : v.onMem d (u.onMem c s.mem) = u.onMem c (v.onMem d s.mem) := by
    unfold ChannelUpdate.onMem
    cases u.cell with
    | none => rfl
    | some p =>
      cases v.cell with
      | none => rfl
      | some q => exact Memory.write_comm hwf (rbufAddr_ne h p.1.isLt q.1.isLt) p.2 q.2
  simp only [State.update, State.noResult, hchans, hmem]

/-! ### The update of a decode -/

/-- What a decode does: the word it answers, the bytes it stores in DBUF (none if it fails), DSTAT and DFIELD (40_codec.md
R405). -/
structure DecodeUpdate where
  word : Word
  bytes : List Byte
  dstat : BitVec 9
  dfield : Half

/-- The state after a decode. -/
def State.commit (s : State) (u : DecodeUpdate) : State :=
  { s with
    mem := Memory.writeList s.mem (dbufAddr 0) u.bytes
    dlen := BitVec.ofNat 16 u.bytes.length, dstat := u.dstat, dfield := u.dfield, result := some u.word }

theorem State.commit_dlen_toNat (s : State) {u : DecodeUpdate} (h : u.bytes.length < 65536) :
    (s.commit u).dlen.toNat = u.bytes.length := by
  simpa [State.commit] using h

theorem State.read_commit_rbuf (s : State) {u : DecodeUpdate} (h : u.bytes.length < 65536) (c : Nibble) (k : Nat) :
    Memory.read (s.commit u).mem (rbufAddr c.toNat k) = Memory.read s.mem (rbufAddr c.toNat k) :=
  Memory.read_writeList_outside _ _ _ _ (.inr (dbufAddr_add_le_rbufAddr c k h))

theorem State.read_commit_dbuf (s : State) {u : DecodeUpdate} {k : Nat} (h : k < u.bytes.length) :
    Memory.read (s.commit u).mem (dbufAddr k) = u.bytes[k]? := by
  rw [dbufAddr, ← spaceAddr_zero_add]
  exact Memory.read_writeList_inside _ _ _ _ h

theorem State.read_commit_dbuf_of_le (s : State) {u : DecodeUpdate} {k : Nat} (h : u.bytes.length ≤ k) :
    Memory.read (s.commit u).mem (dbufAddr k) = Memory.read s.mem (dbufAddr k) := by
  rw [dbufAddr, ← spaceAddr_zero_add]
  exact Memory.read_writeList_outside _ _ _ _ (.inr (Nat.add_le_add_left h _))

/-- What a decode does is settled by the raw bytes alone. -/
theorem decodeCommit_eq_commit (raw : List Byte) :
    ∃ u : DecodeUpdate, u.bytes.length ≤ raw.length ∧ ∀ s, decodeCommit raw s = .next (s.commit u) := by
  by_cases hok : validate raw = .ok
  · exact ⟨⟨resultWord .ok (BitVec.ofNat 16 (scan raw).1.length), (scan raw).1, dstatOf .ok,
      dfieldOf ((scan raw).1.getD 1 0) ((scan raw).1.getD ((scan raw).1.length - 2) 0)⟩, scan_length_le raw,
      fun s => by rw [decodeCommit, if_pos hok]; rfl⟩
  · exact ⟨⟨resultWord (validate raw) 0, [], dstatOf (validate raw), 0⟩, Nat.zero_le _,
      fun s => by rw [decodeCommit, if_neg hok]; rfl⟩

/-! ### States that agree on a channel -/

theorem AgreeOn.refl (c : Nibble) (s : State) : AgreeOn c s s := ⟨rfl, rfl, fun _ _ => rfl⟩

theorem AgreeOn.started?_eq {c : Nibble} {s s' : State} (h : AgreeOn c s s') (ch : Channel) :
    s'.started? c ch = s.started? c ch := by
  obtain ⟨-, -, hbuf⟩ := h
  simp only [State.started?, hbuf 0 (by decide)]

theorem AgreeOn.raw?_eq {c : Nibble} {s s' : State} (h : AgreeOn c s s') (ch : Channel) :
    s'.raw? c ch = s.raw? c ch := by
  obtain ⟨-, -, hbuf⟩ := h
  refine Memory.readList_congr _ _ fun i hi => ?_
  rw [rbufAddr, spaceAddr_zero_add]
  exact (hbuf i (hi.trans ch.rxCnt.isLt)).symm

theorem AgreeOn.chanValue?_eq {c : Nibble} {s s' : State} (h : AgreeOn c s s') (ch : Channel) (r : ChanReg) :
    s'.chanValue? c ch r = s.chanValue? c ch r := by
  cases r with
  | rxState => simp only [State.chanValue?, h.started?_eq]
  | rxCnt | rxAtt | rxHint | rxHintCfg | rxNattCfg => rfl

theorem AgreeOn.update {c : Nibble} {s s' : State} (h : AgreeOn c s s') (u : ChannelUpdate) :
    AgreeOn c (s.update c u) (s'.update c u) := by
  obtain ⟨hcap, hchan, hbuf⟩ := h
  exact ⟨hcap, State.chan?_update_congr c u hchan, fun i hi => u.read_onMem_congr c (hbuf i hi)⟩

theorem AgreeOn.commit {c : Nibble} {s s' : State} (h : AgreeOn c s s') {u : DecodeUpdate} (hlen : u.bytes.length < 65536) :
    AgreeOn c (s.commit u) (s'.commit u) := by
  obtain ⟨hcap, hchan, hbuf⟩ := h
  refine ⟨hcap, hchan, fun i hi => ?_⟩
  rw [State.read_commit_rbuf s hlen, State.read_commit_rbuf s' hlen, hbuf i hi]

/-- An update of one channel is not seen from another. -/
theorem agreeOn_update_of_ne (s : State) {c d : Nibble} (u : ChannelUpdate) (h : d ≠ c) : AgreeOn d s (s.update c u) :=
  ⟨rfl, (s.chan?_update_of_ne u h).symm, fun _ hi => (s.read_update_rbuf_of_ne u h hi).symm⟩

/-! ### What each operation of a channel does -/

/-- In every state that agrees with `s` on channel `c`, the operation `i` answers the state that `f` makes of it. -/
def State.RunsAs (s : State) (c : Nibble) (i : Instr) (f : State → State) : Prop :=
  ∀ s', AgreeOn c s s' → exec i s' = .next (f s')

theorem State.RunsAs.next_eq {s t : State} {c : Nibble} {i : Instr} {f : State → State} (h : s.RunsAs c i f)
    (hrun : exec i s = .next t) : t = f s := by
  have hf := h s (.refl c s)
  rw [hrun] at hf
  injection hf

/-- The operation `i` is an update of channel `c`, one and the same in all the states that agree with `s` on it. -/
def State.RunsAsUpdate (s : State) (c : Nibble) (i : Instr) : Prop :=
  ∃ u : ChannelUpdate, s.RunsAs c i (·.update c u)

/-- A result that changes no register and no byte. -/
theorem runsAsUpdate_of_finish {s : State} {c : Nibble} {i : Instr} (st : Status) (data : Half)
    (h : ∀ s', AgreeOn c s s' → exec i s' = finish st data s') : s.RunsAsUpdate c i :=
  ⟨{ word := resultWord st data }, h⟩

theorem runsAsUpdate_of_raise {s : State} {c : Nibble} {i : Instr} (st : Status)
    (h : ∀ s', AgreeOn c s s' → exec i s' = raise st s') : s.RunsAsUpdate c i :=
  runsAsUpdate_of_finish st 0 h

/-- A result that changes the channel's registers. -/
theorem runsAsUpdate_of_finish_putChan {s : State} {c : Nibble} {i : Instr} (st : Status) (data : Half) (ch : Channel)
    (h : ∀ s', AgreeOn c s s' → exec i s' = finish st data (s'.putChan c ch)) : s.RunsAsUpdate c i :=
  ⟨{ word := resultWord st data, regs := some ch }, h⟩

theorem runsAsUpdate_rdstart (s : State) (c : Nibble) : s.RunsAsUpdate c (.rdstart c) := by
  cases hch : s.chan? c with
  | none => exact runsAsUpdate_of_raise .rangeError fun s' ⟨_, hchan, _⟩ => by simp only [exec, execRdstart, ← hchan, hch]
  | some ch =>
    by_cases hact : ch.phase = .active
    · exact runsAsUpdate_of_raise .busy fun s' ⟨_, hchan, _⟩ => by
        simp only [exec, execRdstart, ← hchan, hch, if_pos hact]
    · exact runsAsUpdate_of_finish_putChan .ok 0 ch.beginRead fun s' ⟨_, hchan, _⟩ => by
        simp only [exec, execRdstart, ← hchan, hch, if_neg hact]

/-- An event offered to a present channel that is not ACTIVE is refused (41_receiver.md R451). -/
theorem exec_event_notReady {s : State} {c : Nibble} {ch : Channel} (hch : s.chan? c = some ch) (hact : ch.phase ≠ .active)
    (e : RxEvent) : exec (e.instr c) s = raise .notReady s := by
  cases e <;> simp [RxEvent.instr, exec, execRxb, execRxe, hch, hact]

/-- An event of an absent channel is out of range. -/
theorem exec_event_absent {s : State} {c : Nibble} (hch : s.chan? c = none) (e : RxEvent) :
    exec (e.instr c) s = raise .rangeError s := by
  cases e <;> simp [RxEvent.instr, exec, execRxb, execRxe, hch]

theorem exec_rxe_active {s : State} {c : Nibble} {ch : Channel} (hch : s.chan? c = some ch) (hact : ch.phase = .active) :
    exec (.rxe c) s = finish .ok 0 (s.putChan c ch.emptyRead) := by
  simp [exec, execRxe, hch, hact]

theorem exec_rxb_active {s : State} {c : Nibble} {ch : Channel} {st : Bool} (hch : s.chan? c = some ch)
    (hact : ch.phase = .active) (hst : s.started? c ch = some st) (b : Byte) :
    exec (.rxb c b) s = finish .ok 0 (rxAccept c ch st b s) := by
  simp [exec, execRxb, hch, hact, hst]

theorem exec_rxb_undef {s : State} {c : Nibble} {ch : Channel} (hch : s.chan? c = some ch)
    (hact : ch.phase = .active) (hst : s.started? c ch = none) (b : Byte) : exec (.rxb c b) s = .fault .undefByte := by
  simp [exec, execRxb, hch, hact, hst]

/-- An accepted byte is one update of the channel (41_receiver.md R453 to R455), settled by BUF_CAP, the channel and STARTED. -/
theorem finish_rxAccept_eq_update (c : Nibble) (ch : Channel) (st : Bool) (b : Byte) (cap : Half) :
    ∃ u : ChannelUpdate, u.word = resultWord .ok 0 ∧
      ∀ s : State, s.bufCap = cap → finish .ok 0 (rxAccept c ch st b s) = .next (s.update c u) := by
  by_cases hresync : b = Config.startMarker ∧ ch.rxCnt ≠ 0 ∧ st = false
  · exact ⟨⟨resultWord .ok 0, some ch.resynced, some (0, Config.startMarker)⟩, rfl, fun s _ => by
      rw [rxAccept, if_pos hresync]; rfl⟩
  · by_cases hfull : ch.rxCnt = cap
    · exact ⟨⟨resultWord .ok 0, some (ch.overflowed.appended (cls 0 false false b)), some (0, b)⟩, rfl, fun s hcap => by
        rw [rxAccept, if_neg hresync, if_pos (hfull.trans hcap.symm)]; rfl⟩
    · exact ⟨⟨resultWord .ok 0, some (ch.appended (cls ch.rxCnt.toNat st ch.esc b)), some (ch.rxCnt, b)⟩, rfl,
        fun s hcap => by rw [rxAccept, if_neg hresync, if_neg (fun h => hfull (h.trans hcap))]; rfl⟩

/-- An event of a channel, unless it reads an UNDEF byte. -/
theorem runsAsUpdate_event {s t : State} {c : Nibble} (e : RxEvent) (h : exec (e.instr c) s = .next t) :
    s.RunsAsUpdate c (e.instr c) := by
  cases hch : s.chan? c with
  | none => exact runsAsUpdate_of_raise .rangeError fun s' ⟨_, hchan, _⟩ => exec_event_absent (hchan ▸ hch) e
  | some ch =>
    by_cases hact : ch.phase = .active
    · cases e with
      | empty =>
        exact runsAsUpdate_of_finish_putChan .ok 0 ch.emptyRead fun s' ⟨_, hchan, _⟩ => exec_rxe_active (hchan ▸ hch) hact
      | byte b =>
        cases hst : s.started? c ch with
        | none => rw [RxEvent.instr, exec_rxb_undef hch hact hst] at h; cases h
        | some st =>
          obtain ⟨u, -, hu⟩ := finish_rxAccept_eq_update c ch st b s.bufCap
          refine ⟨u, fun s' hagree => ?_⟩
          have hst' : s'.started? c ch = some st := (hagree.started?_eq ch).trans hst
          obtain ⟨hcap, hchan, -⟩ := hagree
          exact (exec_rxb_active (hchan ▸ hch) hact hst' b).trans (hu s' hcap.symm)
    · exact runsAsUpdate_of_raise .notReady fun s' ⟨_, hchan, _⟩ => exec_event_notReady (hchan ▸ hch) hact e

/-- From 0x10 on a register number names a register of a channel or nothing (10_state.md R104). -/
theorem regOf_channel {reg : Byte} (h : 0x10 ≤ reg.toNat) : regOf reg = none ∨ ∃ r, regOf reg = some (.chan r) := by
  cases hreg : regOf reg with
  | none => exact .inl rfl
  | some name =>
    cases name with
    | chan r => exact .inr ⟨r, rfl⟩
    | global r => rw [regOf_eq_some.mp hreg] at h; cases r <;> exact absurd h (by decide)

/-- RRD of a register of channel `c`, unless it reads an UNDEF byte. -/
theorem runsAsUpdate_rrd {s t : State} {c : Nibble} {reg : Byte} (hreg : 0x10 ≤ reg.toNat)
    (h : exec (.rrd reg c) s = .next t) : s.RunsAsUpdate c (.rrd reg c) := by
  rcases regOf_channel hreg with hr | ⟨r, hr⟩
  · exact runsAsUpdate_of_raise .rangeError fun s' _ => by simp only [exec, execRrd, hr]
  · cases hch : s.chan? c with
    | none => exact runsAsUpdate_of_raise .rangeError fun s' ⟨_, hchan, _⟩ => by simp only [exec, execRrd, hr, ← hchan, hch]
    | some ch =>
      cases hv : s.chanValue? c ch r with
      | none => simp [exec, execRrd, hr, hch, hv] at h
      | some v =>
        refine runsAsUpdate_of_finish .ok v fun s' hagree => ?_
        have hv' : s'.chanValue? c ch r = some v := (hagree.chanValue?_eq ch r).trans hv
        obtain ⟨-, hchan, -⟩ := hagree
        simp only [exec, execRrd, hr, ← hchan, hch, hv']

theorem runsAsUpdate_rwr (s : State) (c : Nibble) {reg : Byte} (v : Half) (hreg : 0x10 ≤ reg.toNat) :
    s.RunsAsUpdate c (.rwr reg v c) := by
  rcases regOf_channel hreg with hr | ⟨r, hr⟩
  · exact runsAsUpdate_of_raise .rangeError fun s' _ => by simp only [exec, execRwr, hr]
  · cases hch : s.chan? c with
    | none =>
      exact runsAsUpdate_of_raise .rangeError fun s' ⟨_, hchan, _⟩ => by
        simp only [exec, execRwr, hr, writeChanReg, ← hchan, hch]
    | some ch =>
      cases r with
      | rxHintCfg =>
        exact runsAsUpdate_of_finish_putChan .ok 0 { ch with hintCfg := v } fun s' ⟨_, hchan, _⟩ => by
          simp only [exec, execRwr, hr, writeChanReg, ← hchan, hch]
      | rxNattCfg =>
        exact runsAsUpdate_of_finish_putChan .ok 0 { ch with nattCfg := v } fun s' ⟨_, hchan, _⟩ => by
          simp only [exec, execRwr, hr, writeChanReg, ← hchan, hch]
      | rxState | rxCnt | rxAtt | rxHint =>
        exact runsAsUpdate_of_raise .rangeError fun s' ⟨_, hchan, _⟩ => by
          simp only [exec, execRwr, hr, writeChanReg, ← hchan, hch]

/-- The space number 8 + c names RBUF[c] (20_memory.md R200). -/
theorem spaceOf_rbuf {sp c : Nibble} (h : sp.toNat = 8 + c.toNat) : spaceOf sp = .rbuf c := by
  have hne : ∀ n : Nibble, n.toNat < 8 → sp ≠ n := by rintro n hn rfl; omega
  have hc : sp - 8 = c := by bv_omega
  rw [spaceOf, if_neg (hne 0 (by decide)), if_neg (hne 1 (by decide)), if_neg (hne 2 (by decide)), if_pos (by omega), hc]

/-- MRD of RBUF[c], unless it reads an UNDEF byte. -/
theorem runsAsUpdate_mrd {s t : State} {c sp : Nibble} {idx : Half} (hsp : sp.toNat = 8 + c.toNat)
    (h : exec (.mrd sp idx) s = .next t) : s.RunsAsUpdate c (.mrd sp idx) := by
  have haddr : spaceAddr sp.toNat idx.toNat = rbufAddr c.toNat idx.toNat := by rw [hsp, rbufAddr]
  simp only [exec, execMrd, spaceOf_rbuf hsp, State.readLimit, haddr] at h
  cases hch : s.chan? c with
  | none =>
    exact runsAsUpdate_of_raise .rangeError fun s' ⟨_, hchan, _⟩ => by
      simp only [exec, execMrd, spaceOf_rbuf hsp, State.readLimit, ← hchan, hch, Option.map_none]
  | some ch =>
    by_cases hidx : ch.rxCnt.toNat ≤ idx.toNat
    · exact runsAsUpdate_of_raise .rangeError fun s' ⟨_, hchan, _⟩ => by
        simp only [exec, execMrd, spaceOf_rbuf hsp, State.readLimit, ← hchan, hch, Option.map_some, if_pos hidx]
    · cases hv : Memory.read s.mem (rbufAddr c.toNat idx.toNat) with
      | none => simp [hch, hidx, hv] at h
      | some v =>
        exact runsAsUpdate_of_finish .ok (v.setWidth 16) fun s' ⟨_, hchan, hbuf⟩ => by
          have hv' := (hbuf idx.toNat idx.isLt).symm.trans hv
          simp only [exec, execMrd, spaceOf_rbuf hsp, State.readLimit, ← hchan, hch, Option.map_some, if_neg hidx, haddr, hv']

/-- DECR of a channel that is absent or ACTIVE. -/
theorem runsAsUpdate_decr {s : State} {c : Nibble} (h : ∀ ch, s.chan? c = some ch → ch.phase = .active) :
    s.RunsAsUpdate c (.decr c) := by
  cases hch : s.chan? c with
  | none => exact runsAsUpdate_of_raise .rangeError fun s' ⟨_, hchan, _⟩ => by simp only [exec, execDecr, ← hchan, hch]
  | some ch =>
    exact runsAsUpdate_of_raise .busy fun s' ⟨_, hchan, _⟩ => by
      simp only [exec, execDecr, ← hchan, hch, if_pos (h ch hch)]

/-- An accepted DECR, unless it reads an UNDEF byte. -/
theorem runsAs_decr {s t : State} {c : Nibble} {ch : Channel} (hch : s.chan? c = some ch) (hact : ch.phase ≠ .active)
    (h : exec (.decr c) s = .next t) :
    ∃ u : DecodeUpdate, u.bytes.length < 65536 ∧ s.RunsAs c (.decr c) (·.commit u) := by
  cases hraw : s.raw? c ch with
  | none => simp [exec, execDecr, hch, hact, hraw] at h
  | some raw =>
    obtain ⟨u, hlen, hu⟩ := decodeCommit_eq_commit raw
    refine ⟨u, ?_, fun s' hagree => ?_⟩
    · rw [State.raw?_length hraw] at hlen
      exact hlen.trans_lt ch.rxCnt.isLt
    · have hraw' : s'.raw? c ch = some raw := (hagree.raw?_eq ch).trans hraw
      obtain ⟨-, hchan, -⟩ := hagree
      simp only [exec, execDecr, ← hchan, hch, if_neg hact, hraw', hu]

/-- Everything an operation of channel `c` can do: an accepted DECR decodes, and every other one updates the channel. -/
theorem exec_onChannel_cases {i : Instr} {s t : State} {c : Nibble} (hi : OnChannel c i) (h : exec i s = .next t) :
    (s.RunsAsUpdate c i ∧ ¬(i = .decr c ∧ ∃ ch, s.chan? c = some ch ∧ ch.phase ≠ .active)) ∨
    (i = .decr c ∧ ∃ u : DecodeUpdate, u.bytes.length < 65536 ∧ s.RunsAs c i (·.commit u)) := by
  cases i with
  | decr d =>
    obtain rfl : d = c := hi
    by_cases hacc : ∃ ch, s.chan? d = some ch ∧ ch.phase ≠ .active
    · obtain ⟨ch, hch, hact⟩ := hacc
      exact .inr ⟨rfl, runsAs_decr hch hact h⟩
    · refine .inl ⟨runsAsUpdate_decr fun ch hch => ?_, fun ⟨_, hacc'⟩ => hacc hacc'⟩
      by_contra hact
      exact hacc ⟨ch, hch, hact⟩
  | rdstart d =>
    obtain rfl : d = c := hi
    exact .inl ⟨runsAsUpdate_rdstart s d, nofun⟩
  | rxb d b =>
    obtain rfl : d = c := hi
    exact .inl ⟨runsAsUpdate_event (.byte b) h, nofun⟩
  | rxe d =>
    obtain rfl : d = c := hi
    exact .inl ⟨runsAsUpdate_event .empty h, nofun⟩
  | mrd sp idx => exact .inl ⟨runsAsUpdate_mrd hi h, nofun⟩
  | rrd reg d =>
    obtain ⟨rfl, hreg⟩ := hi
    exact .inl ⟨runsAsUpdate_rrd hreg h, nofun⟩
  | rwr reg v d =>
    obtain ⟨rfl, hreg⟩ := hi
    exact .inl ⟨runsAsUpdate_rwr s d v hreg, nofun⟩
  | enc | decw | csum | mwr _ _ _ | reset => cases hi

/-! ### The channels are independent -/

/-- No register and no byte of another channel is written (41_receiver.md R464). -/
theorem exec_onChannel_frame {i : Instr} {s t : State} {c d : Nibble} (hi : OnChannel c i) (hd : d ≠ c)
    (h : exec i s = .next t) :
    t.chan? d = s.chan? d ∧
    ∀ k, k < 65536 → Memory.read t.mem (rbufAddr d.toNat k) = Memory.read s.mem (rbufAddr d.toNat k) := by
  rcases exec_onChannel_cases hi h with ⟨⟨u, hu⟩, -⟩ | ⟨-, u, hlen, hu⟩
  · obtain rfl := hu.next_eq h
    exact ⟨s.chan?_update_of_ne u hd, fun k hk => s.read_update_rbuf_of_ne u hd hk⟩
  · obtain rfl := hu.next_eq h
    exact ⟨rfl, fun k _ => s.read_commit_rbuf hlen d k⟩

/-- Only a DECR writes DBUF and its registers (40_codec.md R405, R409). -/
theorem exec_onChannel_keeps_decode {i : Instr} {s t : State} {c : Nibble} (hi : OnChannel c i) (h : exec i s = .next t)
    (hdecr : i ≠ .decr c) :
    t.dlen = s.dlen ∧ t.dstat = s.dstat ∧ t.dfield = s.dfield ∧
    ∀ k, k < 65536 → Memory.read t.mem (dbufAddr k) = Memory.read s.mem (dbufAddr k) := by
  rcases exec_onChannel_cases hi h with ⟨⟨u, hu⟩, -⟩ | ⟨hdecr', -⟩
  · obtain rfl := hu.next_eq h
    exact ⟨rfl, rfl, rfl, fun k hk => s.read_update_dbuf c u hk⟩
  · exact absurd hdecr' hdecr

/-- Settles O40. Whatever the other channels hold, the operation makes the same update of both states, or decodes the same
raw bytes in both. -/
theorem channelsAreIndependent : Obligations.ChannelsAreIndependent := by
  unfold Obligations.ChannelsAreIndependent
  refine ⟨fun i s t c d hi hd h => exec_onChannel_frame hi hd h, fun i s t s' c hi hagree h => ?_,
    fun i s t c hi h hdecr => exec_onChannel_keeps_decode hi h hdecr⟩
  rcases exec_onChannel_cases hi h with ⟨⟨u, hu⟩, hacc⟩ | ⟨-, u, hlen, hu⟩
  · obtain rfl := hu.next_eq h
    exact ⟨_, hu s' hagree, rfl, hagree.update u, fun hdecr hch => absurd ⟨hdecr, hch⟩ hacc⟩
  · obtain rfl := hu.next_eq h
    refine ⟨_, hu s' hagree, rfl, hagree.commit hlen, fun _ _ => ⟨rfl, rfl, rfl, fun k hk => ?_, fun k hk _ => ?_⟩⟩
    all_goals rw [State.commit_dlen_toNat s hlen] at hk
    · rw [State.read_commit_dbuf s hk, State.read_commit_dbuf s' hk]
    · exact ⟨s.read_commit_dbuf_of_le hk, s'.read_commit_dbuf_of_le hk⟩

/-! ### Events of two channels -/

/-- A buffer that the invariant speaks of shows whether it is started. -/
theorem State.Inv.started? {s : State} (hinv : s.Inv) {c : Nibble} {ch : Channel} (hch : s.chan? c = some ch) :
    ∃ st, s.started? c ch = some st := by
  obtain ⟨raw, hraw⟩ := (hinv.channels c ch hch).readable
  exact ⟨_, State.started?_of_raw hraw⟩

/-- An ACTIVE channel accepts every event. -/
theorem State.Inv.exec_event_active {s : State} (hinv : s.Inv) {c : Nibble} {ch : Channel} (hch : s.chan? c = some ch)
    (hact : ch.phase = .active) (e : RxEvent) :
    ∃ u : ChannelUpdate, u.word = resultWord .ok 0 ∧ exec (e.instr c) s = .next (s.update c u) := by
  cases e with
  | empty => exact ⟨{ word := resultWord .ok 0, regs := some ch.emptyRead }, rfl, exec_rxe_active hch hact⟩
  | byte b =>
    obtain ⟨st, hst⟩ := hinv.started? hch
    obtain ⟨u, hword, hu⟩ := finish_rxAccept_eq_update c ch st b s.bufCap
    exact ⟨u, hword, (exec_rxb_active hch hact hst b).trans (hu s rfl)⟩

/-- An event always runs. -/
theorem State.Inv.exec_event {s : State} (hinv : s.Inv) (c : Nibble) (e : RxEvent) :
    ∃ t, exec (e.instr c) s = .next t := by
  cases hch : s.chan? c with
  | none => exact ⟨_, exec_event_absent hch e⟩
  | some ch =>
    by_cases hact : ch.phase = .active
    · obtain ⟨u, -, hu⟩ := hinv.exec_event_active hch hact e
      exact ⟨_, hu⟩
    · exact ⟨_, exec_event_notReady hch hact e⟩

/-- Settles O41. Each event makes the same update before and after the other channel's, and updates of two channels
commute. -/
theorem channelEventsCommute : Obligations.ChannelEventsCommute := by
  unfold Obligations.ChannelEventsCommute
  intro s c d e f hinv hcd
  obtain ⟨t, ht⟩ := hinv.exec_event c e
  obtain ⟨u, hu⟩ := runsAsUpdate_event e ht
  obtain ⟨t', ht'⟩ := hinv.exec_event d f
  obtain ⟨v, hv⟩ := runsAsUpdate_event f ht'
  refine ⟨(s.update c u).update d v, (s.update d v).update c u, ?_, ?_, State.update_comm hinv.memWf hcd u v⟩
  · exact execAll_cons_next.mpr ⟨_, hu s (.refl c s), execAll_cons_next.mpr ⟨_, hv _ (agreeOn_update_of_ne s u hcd.symm), rfl⟩⟩
  · exact execAll_cons_next.mpr ⟨_, hv s (.refl d s), execAll_cons_next.mpr ⟨_, hu _ (agreeOn_update_of_ne s v hcd), rfl⟩⟩

end Sys2Proof.Machine
end

section
/-! A start marker that meets a buffer that is not empty (41_receiver.md R453). -/

namespace Sys2Proof.Machine

/-- STARTED of a buffer that is not empty, by its first byte (10_state.md R121). -/
theorem State.started?_of_read {s : State} {c : Nibble} {ch : Channel} {x : Byte} (hcnt : ch.rxCnt ≠ 0)
    (hx : Memory.read s.mem (rbufAddr c.toNat 0) = some x) : s.started? c ch = some (x == Config.startMarker) := by
  rw [State.started?, if_neg hcnt, hx, Option.map_some]

/-- A start marker never ends a read. -/
theorem cls_startMarker_ne_endMark (k : Nat) (st e : Bool) : cls k st e Config.startMarker ≠ .endMark := by
  intro h
  obtain ⟨hb, -, -⟩ := cls_endMark h
  exact absurd hb (by decide)

/-- Settles O31. -/
theorem rxbResyncsGarbage : Obligations.RxbResyncsGarbage := by
  unfold Obligations.RxbResyncsGarbage
  refine ⟨fun s c ch x hch hact hcnt hx hne => ?_, fun s c ch hch hact hcnt hroom hx => ?_⟩
  · have hst : s.started? c ch = some false :=
      (State.started?_of_read hcnt hx).trans (congrArg some (beq_eq_false_iff_ne.mpr hne))
    have haccept : rxAccept c ch false Config.startMarker s = rxResync c ch s := if_pos ⟨rfl, hcnt, rfl⟩
    refine ⟨_, ?_, stores_write s.mem (rbufAddr c.toNat 0) Config.startMarker⟩
    exact (exec_rxb_active hch hact hst Config.startMarker).trans (congrArg (finish .ok 0) haccept)
  · have hst : s.started? c ch = some true := State.started?_of_read hcnt hx
    have hexec := exec_rxb_append (b := Config.startMarker) hch hact hst (by simp) hroom
    have hcls := cls_startMarker_ne_endMark ch.rxCnt.toNat true ch.esc
    refine ⟨_, _, hexec, State.chan?_putChan_same _ (State.chan?_lt hch), ch.appended_rxCnt _, ?_, ?_,
      stores_write s.mem _ _⟩
    all_goals rw [Channel.appended_of_ne hcls]
    exact hact

end Sys2Proof.Machine
end

section
/-! The channel ports (41_receiver.md R451): a turn of a transport runs the command of its first event, and whether that event
leaves the transport. -/

namespace Sys2Proof.Machine

/-! ### The word of an event -/

@[simp] theorem fieldOp_assemble (op ch : Nibble) (b : Byte) (idx : Half) : fieldOp (assemble op ch b idx) = op := by
  refine BitVec.eq_of_getLsbD_eq fun i hi => ?_
  simp only [fieldOp, assemble, BitVec.getLsbD_extractLsb', BitVec.getLsbD_append]
  simp [hi]

@[simp] theorem fieldCh_assemble (op ch : Nibble) (b : Byte) (idx : Half) : fieldCh (assemble op ch b idx) = ch := by
  refine BitVec.eq_of_getLsbD_eq fun i hi => ?_
  simp only [fieldCh, assemble, BitVec.getLsbD_extractLsb', BitVec.getLsbD_append]
  simp [hi]

@[simp] theorem fieldB_assemble (op ch : Nibble) (b : Byte) (idx : Half) : fieldB (assemble op ch b idx) = b := by
  refine BitVec.eq_of_getLsbD_eq fun i hi => ?_
  simp only [fieldB, assemble, BitVec.getLsbD_extractLsb', BitVec.getLsbD_append]
  rw [if_neg (by omega), if_neg (by omega), if_pos (by omega), show 8 + i - 4 - 4 = i by omega]
  simp [hi]

@[simp] theorem fieldIdx_assemble (op ch : Nibble) (b : Byte) (idx : Half) : fieldIdx (assemble op ch b idx) = idx := by
  refine BitVec.eq_of_getLsbD_eq fun i hi => ?_
  simp only [fieldIdx, assemble, BitVec.getLsbD_extractLsb', BitVec.getLsbD_append]
  rw [if_neg (by omega), if_neg (by omega), if_neg (by omega), show 16 + i - 4 - 4 - 8 = i by omega]
  simp [hi]

theorem decode_assemble (op ch : Nibble) (b : Byte) (idx : Half) :
    decode (assemble op ch b idx) = decodeFields op ch b idx := by
  simp only [decode, fieldOp_assemble, fieldCh_assemble, fieldB_assemble, fieldIdx_assemble]

/-- The word a transport offers for an event is the command of that event (60_exceptions.md R631). -/
theorem execWord_event (e : RxEvent) (c : Nibble) (s : State) : execWord (e.word c) s = exec (e.instr c) s := by
  have hdec : decode (e.word c) = .ok (e.instr c) := by
    cases e with
    | byte b => exact decode_assemble 0x5 c b 0
    | empty => exact decode_assemble 0x6 c 0 0
  rw [execWord, hdec]

/-! ### A turn of a transport -/

theorem State.rxReady_iff {s : State} {c : Nibble} {ch : Channel} (hch : s.chan? c = some ch) :
    s.rxReady c = true ↔ ch.phase = .active := by
  rw [State.rxReady, hch, beq_iff_eq]

/-- A ready channel is a present one that is ACTIVE. -/
theorem State.chan?_of_rxReady {s : State} {c : Nibble} (h : s.rxReady c = true) :
    ∃ ch, s.chan? c = some ch ∧ ch.phase = .active := by
  cases hch : s.chan? c with
  | none => rw [State.rxReady, hch] at h; cases h
  | some ch => exact ⟨ch, rfl, (State.rxReady_iff hch).mp h⟩

theorem State.pending_eq_cons {s : State} {c : Nibble} {e : RxEvent} {es : List RxEvent} (hc : c.toNat < s.chans.length)
    (h : s.transports[c.toNat]? = some (e :: es)) : s.pending c = e :: es := by
  rw [State.pending, if_pos hc, List.getD_eq_getElem?_getD, h, Option.getD_some]

/-- A turn of a transport with an event `e` first runs the command of `e`. -/
theorem step_event {s : State} {c : Nibble} {rest : List Turn} {e : RxEvent} {es : List RxEvent}
    (hturn : s.schedule = .grant (.transport c) :: rest) (hpend : s.pending c = e :: es) :
    step s = endTurn (.transport c) (exec (e.instr c) s) := by
  have hoffer : s.offered (.transport c) = some (e.word c) := by rw [State.offered, hpend]; rfl
  simp only [step, hturn, takeTurn, grantTurn, hoffer, execWord_event]

/-- An event leaves its transport unless it is a byte that met NotReady. -/
theorem State.retire_transport {s : State} {c : Nibble} {e : RxEvent} {es : List RxEvent} (hpend : s.pending c = e :: es) :
    s.retire (.transport c) =
      if notConsumed e s = true then s else { s with transports := s.transports.set c.toNat es } := by
  simp only [State.retire, hpend]

theorem State.resultStatus_of_result {s : State} {st : Status} {data : Half} (h : s.result = some (resultWord st data)) :
    s.resultStatus = some st.code := by
  rw [State.resultStatus, h, Option.map_some, resultWord_status]

/-- A result other than NotReady consumes every event. -/
theorem notConsumed_eq_false {s : State} {st : Status} {data : Half} (h : s.result = some (resultWord st data))
    (hst : st ≠ .notReady) (e : RxEvent) : notConsumed e s = false := by
  cases e with
  | empty => rfl
  | byte b =>
    rw [notConsumed, State.resultStatus_of_result h]
    exact beq_eq_false_iff_ne.mpr fun heq => hst (Status.code_injective (Option.some.inj heq))

/-- NotReady keeps a byte with its transport. -/
theorem notConsumed_byte {s : State} {data : Half} (h : s.result = some (resultWord .notReady data)) (b : Byte) :
    notConsumed (.byte b) s = true := by
  rw [notConsumed, State.resultStatus_of_result h, beq_self_eq_true]

/-- A turn of the transport of a channel that is not ACTIVE. -/
theorem step_event_notReady {s : State} {c : Nibble} {ch : Channel} {rest : List Turn} {e : RxEvent} {es : List RxEvent}
    (hturn : s.schedule = .grant (.transport c) :: rest) (hch : s.chan? c = some ch) (hready : s.rxReady c = false)
    (hpend : s.pending c = e :: es) :
    step s = .next ((s.putResult (resultWord .notReady 0)).retire (.transport c)).nextTurn := by
  have hact : ch.phase ≠ .active := fun h => by simp [(State.rxReady_iff hch).mpr h] at hready
  rw [step_event hturn hpend, exec_event_notReady hch hact]
  rfl

/-- A turn of the transport of an ACTIVE channel consumes the event. -/
theorem State.Inv.step_event_ready {s : State} (hinv : s.Inv) {c : Nibble} {rest : List Turn} {e : RxEvent}
    {es : List RxEvent} (hturn : s.schedule = .grant (.transport c) :: rest) (hready : s.rxReady c = true)
    (hpend : s.pending c = e :: es) :
    ∃ u : ChannelUpdate, step s = .next { s.update c u with transports := s.transports.set c.toNat es, schedule := rest } := by
  obtain ⟨ch, hch, hact⟩ := State.chan?_of_rxReady hready
  obtain ⟨u, hword, hexec⟩ := hinv.exec_event_active hch hact e
  have hpend' : (s.update c u).pending c = e :: es := by
    rw [← hpend]; simp only [State.pending, State.update, ChannelUpdate.length_onChans]
  have hok : (s.update c u).result = some (resultWord .ok 0) := by rw [State.update_result, hword]
  refine ⟨u, ?_⟩
  rw [step_event hturn hpend, hexec, endTurn, State.retire_transport hpend',
    if_neg (by simp [notConsumed_eq_false hok (by decide) e])]
  simp only [State.nextTurn, State.update, hturn, List.tail_cons]

/-- Settles O11. -/
theorem portAcceptance : Obligations.PortAcceptance := by
  unfold Obligations.PortAcceptance
  refine ⟨fun s c ch hch => State.rxReady_iff hch, fun s c ch rest b es hturn hch hready hev => ?_,
    fun s c ch rest es hturn hch hready hev => ?_, fun s c rest e es hinv hturn hready hev => ?_⟩
  · have hpend := State.pending_eq_cons (State.chan?_lt hch) hev
    rw [step_event_notReady hturn hch hready hpend, State.retire_transport (s := s.putResult _) hpend,
      if_pos (notConsumed_byte rfl b)]
    simp only [State.nextTurn, State.putResult, hturn, List.tail_cons]
  · have hpend := State.pending_eq_cons (State.chan?_lt hch) hev
    rw [step_event_notReady hturn hch hready hpend, State.retire_transport (s := s.putResult _) hpend,
      if_neg (by simp [notConsumed])]
    simp only [State.nextTurn, State.putResult, hturn, List.tail_cons]
  · obtain ⟨ch, hch, -⟩ := State.chan?_of_rxReady hready
    obtain ⟨u, hstep⟩ := hinv.step_event_ready hturn hready (State.pending_eq_cons (State.chan?_lt hch) hev)
    exact ⟨_, hstep, rfl, rfl, rfl⟩

end Sys2Proof.Machine
end

section
/-! What a refused operation answers (60_exceptions.md R608, R610, R612): one result word, and no other change of the state. -/

namespace Sys2Proof.Machine

/-- A failing status is the one thing `raise` writes. -/
theorem raise_eq_next {st : Status} {w : Word} (hw : resultWord st 0 = w) (s : State) :
    raise st s = .next { s with result := some w } := by
  rw [← hw]; rfl

/-! ### Words that are illegal by their fields -/

/-- The fields and the opcode table call the same words illegal (30_encoding.md R327). -/
theorem illegalFields_iff {w : Word} : IllegalFields w ↔ ∀ r ∈ opcodeTable, w &&& r.mask ≠ r.pattern := by
  constructor
  · intro hillegal r hr haccepts
    exact not_illegalFields_of_accepts hr (OpRow.accepts_iff.mpr haccepts) hillegal
  · intro hnone
    cases hdec : decode w with
    | error e => exact illegalFields_of_decode_error hdec
    | ok i =>
      obtain ⟨r, hr, haccepts⟩ := List.any_eq_true.mp (legalWord_of_decode hdec)
      exact absurd (OpRow.accepts_iff.mp haccepts) (hnone r hr)

theorem execWord_illegal {w : Word} (h : IllegalFields w) (s : State) : execWord w s = raise .illegalOp s := by
  cases hdec : decode w with
  | ok i => exact absurd h (not_illegalFields_of_legalWord (legalWord_of_decode hdec))
  | error e => rw [execWord, hdec, illegalOp]

/-- Settles O6. -/
theorem illegalWordRaisesIllegalOp : Obligations.IllegalWordRaisesIllegalOp := by
  unfold Obligations.IllegalWordRaisesIllegalOp
  exact ⟨fun s w h => (execWord_illegal h s).trans (raise_eq_next (by decide) s), fun _ => illegalFields_iff⟩

/-! ### ENC while FATAL = 1, and with no payload -/

theorem exec_enc_halted {s : State} (hfatal : s.fatal = true) : exec .enc s = raise .halted s := by
  rw [exec, execEnc, if_pos hfatal]

theorem exec_enc_empty {s : State} (hfatal : s.fatal = false) (hplen : s.plen = 0) :
    exec .enc s = raise .encodeInputInvalid s := by
  rw [exec, execEnc, if_neg (by simp [hfatal]), if_pos hplen]

/-- Settles O20. -/
theorem encRefusesWhenHaltedOrEmpty : Obligations.EncRefusesWhenHaltedOrEmpty := by
  unfold Obligations.EncRefusesWhenHaltedOrEmpty
  exact ⟨fun s hfatal => (exec_enc_halted hfatal).trans (raise_eq_next (by decide) s),
    fun s hfatal hplen => (exec_enc_empty hfatal hplen).trans (raise_eq_next (by decide) s)⟩

/-! ### Channels in the wrong phase -/

theorem exec_rdstart_busy {s : State} {c : Nibble} {ch : Channel} (hch : s.chan? c = some ch) (hact : ch.phase = .active) :
    exec (.rdstart c) s = raise .busy s := by
  simp [exec, execRdstart, hch, hact]

theorem exec_decr_busy {s : State} {c : Nibble} {ch : Channel} (hch : s.chan? c = some ch) (hact : ch.phase = .active) :
    exec (.decr c) s = raise .busy s := by
  simp [exec, execDecr, hch, hact]

/-- Settles O29. RXB and RXE are the two events a transport can offer. -/
theorem busyAndNotReady : Obligations.BusyAndNotReady := by
  unfold Obligations.BusyAndNotReady
  refine ⟨fun s c ch hch hact => ?_, fun s c ch hch hact => ?_⟩
  · have hbusy := raise_eq_next (st := .busy) (w := 0x0000000A) (by decide) s
    exact ⟨(exec_rdstart_busy hch hact).trans hbusy, (exec_decr_busy hch hact).trans hbusy⟩
  · have hrefused : ∀ e : RxEvent, exec (e.instr c) s = .next { s with result := some 0x00000009 } :=
      fun e => (exec_event_notReady hch hact e).trans (raise_eq_next (by decide) s)
    exact ⟨fun b => hrefused (.byte b), hrefused .empty⟩

end Sys2Proof.Machine
end

section
/-! A failing decode (60_exceptions.md R602 to R604): which check of 40_codec.md R404 fails first, and what the decode then
writes. -/

namespace Sys2Proof.Machine

/-! ### The first check that fails -/

theorem validate_eq_frameTooShort {raw : List Byte} (hshort : (scan raw).1.length < Config.minFrame) :
    validate raw = .frameTooShort := if_pos hshort

/-- Long enough, and one of the two marker checks fails. -/
theorem validate_eq_frameMalformed {raw : List Byte} (hlong : Config.minFrame ≤ (scan raw).1.length)
    (hmarker : raw.head? ≠ some Config.startMarker ∨ (scan raw).2 ≠ some (raw.length - 1)) :
    validate raw = .frameMalformed := by
  simp only [validate, if_neg (Nat.not_lt.mpr hlong)]
  split_ifs with hhead hend hsum
  · rfl
  · rfl
  all_goals exact absurd hmarker (not_or.mpr ⟨hhead, hend⟩)

theorem validate_eq_checksumMismatch {raw : List Byte} (hlong : Config.minFrame ≤ (scan raw).1.length)
    (hhead : raw.head? = some Config.startMarker) (hend : (scan raw).2 = some (raw.length - 1))
    (hsum : some (checksum 0 (slice (scan raw).1 1 ((scan raw).1.length - 3))) ≠
      (scan raw).1[(scan raw).1.length - 2]?) :
    validate raw = .checksumMismatch := by
  simp only [validate, if_neg (Nat.not_lt.mpr hlong), if_neg (not_not.mpr hhead), if_neg (not_not.mpr hend), if_pos hsum]

/-- No end marker, or bytes after it: the scan does not end at the last raw byte. A scan that kept a byte had one to read. -/
theorem scan_not_at_last {raw : List Byte} (hkept : 0 < (scan raw).1.length)
    (hend : (scan raw).2 = none ∨ ∃ e, (scan raw).2 = some e ∧ e + 1 ≠ raw.length) :
    (scan raw).2 ≠ some (raw.length - 1) := by
  intro hlast
  rcases hend with hnone | ⟨e, he, hne⟩
  · cases hnone.symm.trans hlast
  · have he_last : e = raw.length - 1 := Option.some.inj (he.symm.trans hlast)
    have := scan_length_le raw
    omega

/-! ### What a decode runs -/

theorem exec_of_decodesRaw {i : Instr} {s : State} {raw : List Byte} (h : DecodesRaw i s raw) :
    exec i s = decodeCommit raw s := by
  rcases h with ⟨rfl, hwire⟩ | ⟨c, ch, rfl, hch, hact, hraw⟩
  · simp [exec, execDecw, hwire]
  · simp [exec, execDecr, hch, hact, hraw]

/-- A decode that fails a check records its status and leaves nothing readable (40_codec.md R405). -/
theorem exec_of_validate_fails {i : Instr} {s : State} {raw : List Byte} {st : Status} (h : DecodesRaw i s raw)
    (hst : validate raw = st) (hfail : st ≠ .ok) :
    exec i s =
      .next { s with dstat := dstatOf st, dlen := 0, dfield := 0, result := some (resultWord st 0) } := by
  rw [exec_of_decodesRaw h]
  rcases decodeCommit_cases raw s with ⟨hok, -⟩ | ⟨-, hcommit⟩
  · exact absurd (hst.symm.trans hok) hfail
  · rw [hcommit, hst]

/-- Settles O24. -/
theorem failedDecodeRecordsItsStatus : Obligations.FailedDecodeRecordsItsStatus := by
  unfold Obligations.FailedDecodeRecordsItsStatus
  intro i s raw hdec de endpos
  refine ⟨fun hshort => ?_, fun hlong hmarker => ?_, fun hlong hhead hend hsum => ?_⟩
  · exact exec_of_validate_fails hdec (validate_eq_frameTooShort hshort) (by decide)
  · have hbad : raw.head? ≠ some Config.startMarker ∨ (scan raw).2 ≠ some (raw.length - 1) := by
      rw [List.head?_eq_getElem?]
      exact hmarker.imp_right (scan_not_at_last (Nat.lt_of_lt_of_le (by decide) hlong))
    exact exec_of_validate_fails hdec (validate_eq_frameMalformed hlong hbad) (by decide)
  · exact exec_of_validate_fails hdec
      (validate_eq_checksumMismatch hlong (List.head?_eq_getElem?.trans hhead) hend hsum) (by decide)

end Sys2Proof.Machine
end

section
/-! RangeError (60_exceptions.md R611): for each operation, the branches of its meaning are held against the cases of
`OutOfRange`, once for both directions. -/

namespace Sys2Proof.Machine

/-! ### Outcomes without a RangeError -/

/-- The outcome is no next state that reports RangeError. -/
def ReportsNoRangeError (o : Outcome) : Prop :=
  ∀ t, o = .next t → t.result ≠ some (resultWord .rangeError 0)

theorem reportsNoRangeError_finish {st : Status} (hst : st ≠ .rangeError) (d : Half) (s : State) :
    ReportsNoRangeError (finish st d s) := by
  intro t ht hresult
  rw [finish_next.mp ht, State.putResult_result] at hresult
  exact hst (resultWord_inj (Option.some.inj hresult)).1

theorem reportsNoRangeError_raise {st : Status} (hst : st ≠ .rangeError) (s : State) : ReportsNoRangeError (raise st s) :=
  reportsNoRangeError_finish hst 0 s

theorem reportsNoRangeError_fault (f : Fault) : ReportsNoRangeError (.fault f) := nofun

theorem reportsNoRangeError_decodeCommit (raw : List Byte) (s : State) : ReportsNoRangeError (decodeCommit raw s) := by
  unfold decodeCommit
  split_ifs with hok
  · exact reportsNoRangeError_finish (by decide) _ _
  · have hst : validate raw ≠ .rangeError := by rcases validate_cases raw with h | h | h | h <;> simp [h]
    exact reportsNoRangeError_raise hst _

theorem reportsNoRangeError_enc (s : State) : ReportsNoRangeError (exec .enc s) := by
  simp only [exec, execEnc]
  split_ifs
  · exact reportsNoRangeError_raise (by decide) s
  · exact reportsNoRangeError_raise (by decide) s
  · cases s.payload? with
    | none => exact reportsNoRangeError_fault _
    | some p =>
      simp only [encFinish]
      split_ifs
      · exact reportsNoRangeError_finish (by decide) _ _
      · exact reportsNoRangeError_raise (by decide) _

theorem reportsNoRangeError_decw (s : State) : ReportsNoRangeError (exec .decw s) := by
  simp only [exec, execDecw]
  cases s.wire? with
  | none => exact reportsNoRangeError_fault _
  | some raw => exact reportsNoRangeError_decodeCommit raw s

theorem reportsNoRangeError_csum (s : State) : ReportsNoRangeError (exec .csum s) := by
  simp only [exec, execCsum]
  cases s.payload? with
  | none => exact reportsNoRangeError_fault _
  | some p => exact reportsNoRangeError_finish (by decide) _ _

/-! ### The two sides of a range check -/

/-- The operation `i` raises RangeError in state `s` if it is out of range there, and reports no RangeError if it is not. -/
def State.ChecksRange (s : State) (i : Instr) : Prop :=
  (OutOfRange s i ∧ exec i s = raise .rangeError s) ∨ (¬OutOfRange s i ∧ ReportsNoRangeError (exec i s))

/-! ### Operations that name a channel -/

theorem checksRange_decr (s : State) (c : Nibble) : s.ChecksRange (.decr c) := by
  cases hch : s.chan? c with
  | none => exact .inl ⟨State.chan?_eq_none.mp hch, by simp only [exec, execDecr, hch]⟩
  | some ch =>
    refine .inr ⟨Nat.not_le.mpr (State.chan?_lt hch), ?_⟩
    simp only [exec, execDecr, hch]
    split_ifs
    · exact reportsNoRangeError_raise (by decide) s
    · cases s.raw? c ch with
      | none => exact reportsNoRangeError_fault _
      | some raw => exact reportsNoRangeError_decodeCommit raw s

theorem checksRange_rdstart (s : State) (c : Nibble) : s.ChecksRange (.rdstart c) := by
  cases hch : s.chan? c with
  | none => exact .inl ⟨State.chan?_eq_none.mp hch, by simp only [exec, execRdstart, hch]⟩
  | some ch =>
    refine .inr ⟨Nat.not_le.mpr (State.chan?_lt hch), ?_⟩
    simp only [exec, execRdstart, hch]
    split_ifs
    · exact reportsNoRangeError_raise (by decide) s
    · exact reportsNoRangeError_finish (by decide) _ _

theorem outOfRange_event {s : State} {c : Nibble} (e : RxEvent) :
    OutOfRange s (e.instr c) ↔ s.chans.length ≤ c.toNat := by
  cases e <;> rfl

theorem reportsNoRangeError_event_active {s : State} {c : Nibble} {ch : Channel} (hch : s.chan? c = some ch)
    (hact : ch.phase = .active) (e : RxEvent) : ReportsNoRangeError (exec (e.instr c) s) := by
  cases e with
  | empty => rw [RxEvent.instr, exec_rxe_active hch hact]; exact reportsNoRangeError_finish (by decide) _ _
  | byte b =>
    cases hst : s.started? c ch with
    | none => rw [RxEvent.instr, exec_rxb_undef hch hact hst]; exact reportsNoRangeError_fault _
    | some st => rw [RxEvent.instr, exec_rxb_active hch hact hst]; exact reportsNoRangeError_finish (by decide) _ _

/-- RXB and RXE. -/
theorem checksRange_event (s : State) (c : Nibble) (e : RxEvent) : s.ChecksRange (e.instr c) := by
  cases hch : s.chan? c with
  | none => exact .inl ⟨(outOfRange_event e).mpr (State.chan?_eq_none.mp hch), exec_event_absent hch e⟩
  | some ch =>
    refine .inr ⟨mt (outOfRange_event e).mp (Nat.not_le.mpr (State.chan?_lt hch)), ?_⟩
    by_cases hact : ch.phase = .active
    · exact reportsNoRangeError_event_active hch hact e
    · rw [exec_event_notReady hch hact e]; exact reportsNoRangeError_raise (by decide) s

/-! ### MRD and MWR -/

/-- MRD is out of range where its space has no readable index, or none so high. -/
theorem outOfRange_mrd {s : State} {sp : Nibble} {idx : Half} :
    OutOfRange s (.mrd sp idx) ↔ ∀ n, s.readLimit (spaceOf sp) = some n → n ≤ idx.toNat := by
  simp only [OutOfRange]
  rcases spaceOf_cases sp with ⟨rfl, h⟩ | ⟨rfl, h⟩ | ⟨rfl, h⟩ | ⟨hlo, hhi, h⟩ | ⟨hlo, h, hsub⟩ <;> rw [h, State.readLimit]
  · simp [Config.pbufCap]
  · simp [Config.wbufCap]
  · simp
  · simp [hlo, hhi]
  · have hne : sp.toNat ≠ 0 ∧ sp.toNat ≠ 1 ∧ sp.toNat ≠ 2 ∧ ¬sp.toNat ≤ 7 := by omega
    rw [State.chan?, hsub]
    simp [hlo, hne]

/-- MWR is out of range where its space has no writable index, or none so high. -/
theorem outOfRange_mwr {s : State} {sp : Nibble} {idx : Half} {b : Byte} :
    OutOfRange s (.mwr sp idx b) ↔ ∀ n, writeLimit (spaceOf sp) = some n → n ≤ idx.toNat := by
  simp only [OutOfRange]
  rcases spaceOf_cases sp with ⟨rfl, h⟩ | ⟨rfl, h⟩ | ⟨rfl, h⟩ | ⟨hlo, -, h⟩ | ⟨hlo, h, -⟩ <;> rw [h, writeLimit]
  · simp [Config.pbufCap]
  · simp [Config.wbufCap]
  · simp
  · simp [Nat.le_of_succ_le hlo]
  · simp [Nat.le_trans (by decide : 2 ≤ 8) hlo]

theorem checksRange_mrd (s : State) (sp : Nibble) (idx : Half) : s.ChecksRange (.mrd sp idx) := by
  rw [State.ChecksRange, outOfRange_mrd]
  simp only [exec, execMrd]
  cases s.readLimit (spaceOf sp) with
  | none => exact .inl ⟨nofun, rfl⟩
  | some n =>
    by_cases hidx : n ≤ idx.toNat
    · exact .inl ⟨fun _ hn => Option.some.inj hn ▸ hidx, if_pos hidx⟩
    · refine .inr ⟨fun h => hidx (h n rfl), ?_⟩
      simp only [if_neg hidx]
      cases Memory.read s.mem (spaceAddr sp.toNat idx.toNat) with
      | none => exact reportsNoRangeError_fault _
      | some v => exact reportsNoRangeError_finish (by decide) _ _

theorem checksRange_mwr (s : State) (sp : Nibble) (idx : Half) (b : Byte) : s.ChecksRange (.mwr sp idx b) := by
  rw [State.ChecksRange, outOfRange_mwr]
  simp only [exec, execMwr]
  cases writeLimit (spaceOf sp) with
  | none => exact .inl ⟨nofun, rfl⟩
  | some n =>
    by_cases hidx : n ≤ idx.toNat
    · exact .inl ⟨fun _ hn => Option.some.inj hn ▸ hidx, if_pos hidx⟩
    · refine .inr ⟨fun h => hidx (h n rfl), ?_⟩
      simp only [if_neg hidx]
      exact reportsNoRangeError_finish (by decide) _ _

/-! ### RRD and RWR -/

/-- The numbers of the global registers stand below every case of R611. -/
theorem not_outOfRange_rrd_global (s : State) (r : GlobalReg) (c : Nibble) :
    ¬OutOfRange s (.rrd (RegName.global r).number c) := by
  cases r <;> simp [OutOfRange, RegName.number]

theorem outOfRange_rrd_chan {s : State} {c : Nibble} (r : ChanReg) :
    OutOfRange s (.rrd (RegName.chan r).number c) ↔ s.chan? c = none := by
  rw [State.chan?_eq_none]
  cases r <;> simp [OutOfRange, RegName.number]

theorem checksRange_rrd (s : State) (reg : Byte) (c : Nibble) : s.ChecksRange (.rrd reg c) := by
  cases hreg : regOf reg with
  | none =>
    have hout : OutOfRange s (.rrd reg c) := (regOf_eq_none.mp hreg).imp_right .inl
    exact .inl ⟨hout, by simp only [exec, execRrd, hreg]⟩
  | some name =>
    obtain rfl := regOf_eq_some.mp hreg
    cases name with
    | global r =>
      refine .inr ⟨not_outOfRange_rrd_global s r c, ?_⟩
      simp only [exec, execRrd, hreg]
      exact reportsNoRangeError_finish (by decide) _ _
    | chan r =>
      rw [State.ChecksRange, outOfRange_rrd_chan]
      simp only [exec, execRrd, hreg]
      cases hch : s.chan? c with
      | none => exact .inl ⟨rfl, rfl⟩
      | some ch =>
        refine .inr ⟨nofun, ?_⟩
        cases hv : s.chanValue? c ch r with
        | none => simp only [hv]; exact reportsNoRangeError_fault _
        | some v => simp only [hv]; exact reportsNoRangeError_finish (by decide) _ _

theorem exec_rwr_global (s : State) (r : GlobalReg) (v : Half) (c : Nibble) :
    exec (.rwr (RegName.global r).number v c) s = writeGlobalReg r v s := by
  simp only [exec, execRwr, regOf_number]

theorem exec_rwr_chan (s : State) (r : ChanReg) (v : Half) (c : Nibble) :
    exec (.rwr (RegName.chan r).number v c) s = writeChanReg r v c s := by
  simp only [exec, execRwr, regOf_number]

/-- PLEN and WLEN are the writable global registers, each up to its own bound (42_access.md R503). -/
theorem outOfRange_rwr_global {s : State} {r : GlobalReg} {v : Half} {c : Nibble} :
    OutOfRange s (.rwr (RegName.global r).number v c) ↔
      (r = .plen ∧ Config.lenMax < v.toNat) ∨ (r = .wlen ∧ Config.wbufCap < v.toNat) ∨ (r ≠ .plen ∧ r ≠ .wlen) := by
  cases r <;> simp [OutOfRange, RegName.number, Config.lenMax, Config.wbufCap]

/-- RX_HINT_CFG and RX_NATT_CFG are the writable registers of a channel, where it is present (42_access.md R503). -/
theorem outOfRange_rwr_chan {s : State} {r : ChanReg} {v : Half} {c : Nibble} :
    OutOfRange s (.rwr (RegName.chan r).number v c) ↔
      s.chan? c = none ∨ (r ≠ .rxHintCfg ∧ r ≠ .rxNattCfg) := by
  rw [State.chan?_eq_none]
  cases r <;> simp [OutOfRange, RegName.number]

theorem checksRange_rwr_global (s : State) (r : GlobalReg) (v : Half) (c : Nibble) :
    s.ChecksRange (.rwr (RegName.global r).number v c) := by
  rw [State.ChecksRange, outOfRange_rwr_global, exec_rwr_global]
  cases r with
  | plen =>
    by_cases hv : Config.lenMax < v.toNat
    · exact .inl ⟨.inl ⟨rfl, hv⟩, if_pos hv⟩
    · refine .inr ⟨by simp [hv], ?_⟩
      rw [writeGlobalReg, if_neg hv]
      exact reportsNoRangeError_finish (by decide) _ _
  | wlen =>
    by_cases hv : Config.wbufCap < v.toNat
    · exact .inl ⟨.inr (.inl ⟨rfl, hv⟩), if_pos hv⟩
    · refine .inr ⟨by simp [hv], ?_⟩
      rw [writeGlobalReg, if_neg hv]
      exact reportsNoRangeError_finish (by decide) _ _
  | dlen | dstat | dfield | csumR | fatal | nch | bufcap => exact .inl ⟨.inr (.inr ⟨nofun, nofun⟩), rfl⟩

theorem checksRange_rwr_chan (s : State) (r : ChanReg) (v : Half) (c : Nibble) :
    s.ChecksRange (.rwr (RegName.chan r).number v c) := by
  rw [State.ChecksRange, outOfRange_rwr_chan, exec_rwr_chan, writeChanReg]
  cases s.chan? c with
  | none => exact .inl ⟨.inl rfl, rfl⟩
  | some ch =>
    cases r with
    | rxHintCfg | rxNattCfg => exact .inr ⟨by simp, reportsNoRangeError_finish (by decide) _ _⟩
    | rxState | rxCnt | rxAtt | rxHint => exact .inl ⟨.inr ⟨nofun, nofun⟩, rfl⟩

theorem checksRange_rwr (s : State) (reg : Byte) (v : Half) (c : Nibble) : s.ChecksRange (.rwr reg v c) := by
  cases hreg : regOf reg with
  | none =>
    have hout : OutOfRange s (.rwr reg v c) := by
      have := regOf_eq_none.mp hreg
      simp only [OutOfRange]
      omega
    exact .inl ⟨hout, by simp only [exec, execRwr, hreg]⟩
  | some name =>
    obtain rfl := regOf_eq_some.mp hreg
    cases name with
    | global r => exact checksRange_rwr_global s r v c
    | chan r => exact checksRange_rwr_chan s r v c

/-! ### All operations -/

/-- ENC, DECW, CSUM and RESET have no case in R611. -/
theorem checksRange (s : State) (i : Instr) : s.ChecksRange i := by
  cases i with
  | enc => exact .inr ⟨id, reportsNoRangeError_enc s⟩
  | decw => exact .inr ⟨id, reportsNoRangeError_decw s⟩
  | csum => exact .inr ⟨id, reportsNoRangeError_csum s⟩
  | reset => exact .inr ⟨id, reportsNoRangeError_finish (by decide) 0 s.resetBlock⟩
  | decr c => exact checksRange_decr s c
  | rdstart c => exact checksRange_rdstart s c
  | rxb c b => exact checksRange_event s c (.byte b)
  | rxe c => exact checksRange_event s c .empty
  | mrd sp idx => exact checksRange_mrd s sp idx
  | mwr sp idx b => exact checksRange_mwr s sp idx b
  | rrd reg c => exact checksRange_rrd s reg c
  | rwr reg v c => exact checksRange_rwr s reg v c

/-- Settles O30. Each direction rules out the other side of the operation's range check. -/
theorem rangeErrorExactlyWhenOutOfRange : Obligations.RangeErrorExactlyWhenOutOfRange := by
  unfold Obligations.RangeErrorExactlyWhenOutOfRange
  refine ⟨fun s i hout => ?_, fun s t i hexec hresult => ?_⟩
  · rcases checksRange s i with ⟨-, hraise⟩ | ⟨hin, -⟩
    · exact hraise.trans (raise_eq_next (by decide) s)
    · exact absurd hout hin
  · rcases checksRange s i with ⟨hout, -⟩ | ⟨-, hother⟩
    · exact hout
    · exact absurd hresult (hother t hexec)

end Sys2Proof.Machine
end

section
/-! The encoder against the decoder (30_encoding.md R326, R332): the decoder gives back what the encoder was given, and a word is
the sum of its shifted fields. -/

namespace Sys2Proof.Machine

/-- Settles O1. Each word is one assembled from its operands, and the opcode map reads them back. -/
theorem encodedInstructionDecodesBack : Obligations.EncodedInstructionDecodesBack := by
  unfold Obligations.EncodedInstructionDecodesBack
  intro i
  cases i with
  | enc => exact decode_assemble 0x1 0 0 0
  | decw => exact decode_assemble 0x2 0 0 0
  | decr c => exact decode_assemble 0x2 c 1 0
  | csum => exact decode_assemble 0x3 0 0 0
  | rdstart c => exact decode_assemble 0x4 c 0 0
  | rxb c b => exact decode_assemble 0x5 c b 0
  | rxe c => exact decode_assemble 0x6 c 0 0
  | mrd sp idx => exact decode_assemble 0x7 sp 0 idx
  | mwr sp idx b => exact decode_assemble 0x8 sp b idx
  | rrd reg c => exact decode_assemble 0x9 c reg 0
  | rwr reg v c => exact decode_assemble 0xA c reg v
  | reset => exact decode_assemble 0xF 0 0 0

/-- Settles O2. -/
theorem decodedWordEncodesBack : Obligations.DecodedWordEncodesBack := by
  unfold Obligations.DecodedWordEncodesBack
  exact fun _ _ h => encode_of_decode h

/-- The layout of R320, as the assembler table writes it. -/
theorem assemble_eq_or (op ch : Nibble) (b : Byte) (idx : Half) :
    assemble op ch b idx =
      (idx.setWidth 32 <<< 16) ||| (b.setWidth 32 <<< 8) ||| (ch.setWidth 32 <<< 4) ||| op.setWidth 32 := by
  refine BitVec.eq_of_getLsbD_eq fun i hi => ?_
  have hop : 4 ≤ i → op.getLsbD i = false := BitVec.getLsbD_of_ge op i
  have hch : 4 ≤ i - 4 → ch.getLsbD (i - 4) = false := BitVec.getLsbD_of_ge ch (i - 4)
  have hb : 8 ≤ i - 8 → b.getLsbD (i - 8) = false := BitVec.getLsbD_of_ge b (i - 8)
  simp only [assemble, BitVec.getLsbD_append, BitVec.getLsbD_or, BitVec.getLsbD_shiftLeft, BitVec.getLsbD_setWidth,
    Nat.sub_sub]
  split_ifs with h₁ h₂ h₃
  · simp [h₁, hi, show i < 8 by omega, show i < 16 by omega]
  · simp [h₁, hi, hop (by omega), show i < 8 by omega, show i < 16 by omega, show i - 4 < 32 by omega]
  · simp [h₁, hi, hop (by omega), hch (by omega), show ¬i < 8 by omega, show i < 16 by omega, show i - 8 < 32 by omega]
  · simp [h₁, hi, hop (by omega), hch (by omega), hb (by omega), show ¬i < 8 by omega, show ¬i < 16 by omega,
      show i - 16 < 32 by omega]

/-- Settles O3. Each formula of the word column is the general layout with the fields that are 0 left out. -/
theorem wordsOfTheAssemblerTable : Obligations.WordsOfTheAssemblerTable := by
  unfold Obligations.WordsOfTheAssemblerTable
  refine ⟨by decide, by decide, by decide, by decide, by decide, by decide, fun c b => ?_, by decide, fun sp i => ?_,
    fun sp i b => ?_, fun r c => ?_, fun r v c => ?_, fun _ => rfl⟩
  · simpa [encode] using assemble_eq_or 0x5 c b 0
  · simpa [encode] using assemble_eq_or 0x7 sp 0 i
  · simpa [encode] using assemble_eq_or 0x8 sp b i
  · simpa [encode] using assemble_eq_or 0x9 c r 0
  · simpa [encode] using assemble_eq_or 0xA c r v

/-- Settles O4. -/
theorem writtenOutWordsDecode : Obligations.WrittenOutWordsDecode := by
  unfold Obligations.WrittenOutWordsDecode
  decide

theorem resultWord_top (st : Status) (d : Half) : (resultWord st d).extractLsb' 24 8 = 0 := by
  refine BitVec.eq_of_getLsbD_eq fun i hi => ?_
  simp only [resultWord, BitVec.getLsbD_extractLsb', BitVec.getLsbD_append]
  rw [if_neg (by omega), if_neg (by omega)]
  simp

/-- Settles O7. -/
theorem statusCodesAndResultWord : Obligations.StatusCodesAndResultWord := by
  unfold Obligations.StatusCodesAndResultWord
  exact ⟨fun st d => ⟨resultWord_status st d, resultWord_data st d, resultWord_top st d⟩, by decide⟩

end Sys2Proof.Machine
end

section
/-! Everything an operation can do: each operation that answers a next state has one of the effects listed in `State.Effect`. The
statements about what operations leave alone go through this list, not through the meanings of the operations. -/

namespace Sys2Proof.Machine

/-! ### The result of a decode -/

/-- What a decode of the raw bytes `raw` writes (40_codec.md R405). -/
def decodeUpdate (raw : List Byte) : DecodeUpdate :=
  if validate raw = .ok then
    { word := resultWord .ok (BitVec.ofNat 16 (scan raw).1.length), bytes := (scan raw).1, dstat := dstatOf .ok
      dfield := dfieldOf ((scan raw).1.getD 1 0) ((scan raw).1.getD ((scan raw).1.length - 2) 0) }
  else { word := resultWord (validate raw) 0, bytes := [], dstat := dstatOf (validate raw), dfield := 0 }

theorem decodeCommit_eq (raw : List Byte) (s : State) : decodeCommit raw s = .next (s.commit (decodeUpdate raw)) := by
  unfold decodeCommit decodeUpdate
  split_ifs <;> rfl

theorem decodeUpdate_of_ok {raw : List Byte} (hok : validate raw = .ok) :
    decodeUpdate raw =
      { word := resultWord .ok (BitVec.ofNat 16 (scan raw).1.length), bytes := (scan raw).1, dstat := dstatOf .ok
        dfield := dfieldOf ((scan raw).1.getD 1 0) ((scan raw).1.getD ((scan raw).1.length - 2) 0) } := if_pos hok

theorem decodeUpdate_of_fail {raw : List Byte} (hfail : validate raw ≠ .ok) :
    decodeUpdate raw =
      { word := resultWord (validate raw) 0, bytes := [], dstat := dstatOf (validate raw), dfield := 0 } := if_neg hfail

theorem decodeUpdate_length_le (raw : List Byte) : (decodeUpdate raw).bytes.length ≤ raw.length := by
  unfold decodeUpdate
  split_ifs
  · exact scan_length_le raw
  · exact Nat.zero_le _

/-! ### An accepted byte -/

/-- The channel's registers after an ACTIVE channel took byte `b` (41_receiver.md R453 to R455). -/
def Channel.received (ch : Channel) (cap : Half) (st : Bool) (b : Byte) : Channel :=
  if b = Config.startMarker ∧ ch.rxCnt ≠ 0 ∧ st = false then ch.resynced
  else if ch.rxCnt = cap then ch.overflowed.appended (cls 0 false false b)
  else ch.appended (cls ch.rxCnt.toNat st ch.esc b)

/-- The index of RBUF at which that byte is stored. -/
def Channel.slot (ch : Channel) (cap : Half) (st : Bool) (b : Byte) : Nat :=
  if b = Config.startMarker ∧ ch.rxCnt ≠ 0 ∧ st = false then 0
  else if ch.rxCnt = cap then 0
  else ch.rxCnt.toNat

theorem rxAccept_eq (c : Nibble) (ch : Channel) (st : Bool) (b : Byte) (s : State) :
    rxAccept c ch st b s =
      (s.putMem (Memory.write s.mem (rbufAddr c.toNat (ch.slot s.bufCap st b)) b)).putChan c
        (ch.received s.bufCap st b) := by
  unfold Channel.received Channel.slot
  rcases rxAccept_cases c ch st b s with ⟨rfl, hcnt, hst, h⟩ | ⟨hresync, hfull, h⟩ | ⟨hresync, hroom, h⟩
  · rw [h, if_pos ⟨rfl, hcnt, hst⟩, if_pos ⟨rfl, hcnt, hst⟩]; rfl
  · rw [h, if_neg hresync, if_neg hresync, if_pos hfull, if_pos hfull]; rfl
  · rw [h, if_neg hresync, if_neg hresync, if_neg hroom, if_neg hroom]; rfl

/-- Everything an accepted byte can do to the channel, and where it is stored. -/
theorem Channel.received_cases (ch : Channel) (cap : Half) (st : Bool) (b : Byte) :
    (ch.slot cap st b = 0 ∧ ch.received cap st b = ch.resynced) ∨
    (ch.slot cap st b = 0 ∧ ch.rxCnt = cap ∧ ch.received cap st b = ch.overflowed.appended (cls 0 false false b)) ∨
    (ch.slot cap st b = ch.rxCnt.toNat ∧ ch.rxCnt ≠ cap ∧
      ch.received cap st b = ch.appended (cls ch.rxCnt.toNat st ch.esc b)) := by
  unfold Channel.received Channel.slot
  split_ifs with hresync hfull
  · exact .inl ⟨rfl, rfl⟩
  · exact .inr (.inl ⟨rfl, hfull, rfl⟩)
  · exact .inr (.inr ⟨rfl, hfull, rfl⟩)

/-! ### ENC of a readable payload -/

theorem State.payload?_length {s : State} {p : List Byte} (hp : s.payload? = some p) : p.length = s.plen.toNat :=
  ((Memory.readList_eq_some _ _ _ _).mp hp).1

theorem State.payload?_pos {s : State} {p : List Byte} (hplen : s.plen ≠ 0) (hp : s.payload? = some p) :
    1 ≤ p.length := by
  have hpos : s.plen.toNat ≠ 0 := fun h => hplen (BitVec.eq_of_toNat_eq h)
  have := State.payload?_length hp
  omega

theorem State.payload?_le {s : State} {p : List Byte} (hp : s.payload? = some p) : p.length ≤ 255 := by
  have := State.payload?_length hp
  have := s.plen.isLt
  omega

/-- The self-check never fails (40_codec.md R413). -/
theorem selfCheck_build {p : List Byte} (hp : 1 ≤ p.length) : selfCheck p (build p).1 = true := by
  have hslice : slice (scan (build p).1).1 2 ((scan (build p).1).1.length - 3) = p := by
    rw [scan_build]
    exact slice_middle (a := [Config.startMarker, BitVec.ofNat 8 p.length]) rfl (by simp; omega)
  simp [selfCheck, validate_build p hp, hslice]

theorem exec_enc_ok {s : State} {p : List Byte} (hfatal : s.fatal = false) (hplen : s.plen ≠ 0)
    (hp : s.payload? = some p) : exec .enc s = encCommit (build p).1 (build p).2 s := by
  simp only [exec, execEnc, hfatal, if_neg hplen, hp, encFinish, selfCheck_build (State.payload?_pos hplen hp),
    Bool.false_eq_true, if_false, if_true]

/-- Everything ENC can do. The branch in which its self-check fails is not among it. -/
theorem exec_enc_cases {s t : State} (h : exec .enc s = .next t) :
    (s.fatal = true ∧ t = s.putResult (resultWord .halted 0)) ∨
    (s.plen = 0 ∧ t = s.putResult (resultWord .encodeInputInvalid 0)) ∨
    (∃ p, s.payload? = some p ∧ 1 ≤ p.length ∧ t =
      { s with
        mem := Memory.writeList s.mem (wbufAddr 0) (build p).1, wlen := BitVec.ofNat 10 (build p).1.length
        csumR := (build p).2, result := some (resultWord .ok (BitVec.ofNat 16 (build p).1.length)) }) := by
  by_cases hhalted : s.fatal = true
  · exact .inl ⟨hhalted, raise_next.mp ((exec_enc_halted hhalted).symm.trans h)⟩
  · have hfatal : s.fatal = false := Bool.eq_false_iff.mpr hhalted
    by_cases hplen : s.plen = 0
    · exact .inr (.inl ⟨hplen, raise_next.mp ((exec_enc_empty hfatal hplen).symm.trans h)⟩)
    · cases hp : s.payload? with
      | none => exact nomatch (exec_enc_undef hfatal hplen hp).symm.trans h
      | some p =>
        have ht := finish_next.mp ((exec_enc_ok hfatal hplen hp).symm.trans h)
        exact .inr (.inr ⟨p, rfl, State.payload?_pos hplen hp, ht⟩)

/-! ### The effects -/

/-- What an operation that answers a next state has done. -/
inductive State.Effect (s : State) : Instr → State → Prop
  /-- It raised a failing status. -/
  | refused {i : Instr} {st : Status} (hst : st ∈ raisedBy i) (hfail : st ≠ .ok) :
      Effect s i (s.putResult (resultWord st 0))
  /-- It answered a byte or a register. -/
  | answered {i : Instr} (d : Half) (hread : (∃ sp idx, i = .mrd sp idx) ∨ ∃ r c, i = .rrd r c) :
      Effect s i (s.putResult (resultWord .ok d))
  | encoded {p : List Byte} (hp : s.payload? = some p) (hpos : 1 ≤ p.length) :
      Effect s .enc
        { s with
          mem := Memory.writeList s.mem (wbufAddr 0) (build p).1, wlen := BitVec.ofNat 10 (build p).1.length
          csumR := (build p).2, result := some (resultWord .ok (BitVec.ofNat 16 (build p).1.length)) }
  | summed {p : List Byte} (hp : s.payload? = some p) :
      Effect s .csum
        { s with csumR := checksum s.plen p, result := some (resultWord .ok ((checksum s.plen p).setWidth 16)) }
  | decoded {i : Instr} {raw : List Byte} (hraw : DecodesRaw i s raw) : Effect s i (s.commit (decodeUpdate raw))
  | begun {c : Nibble} {ch : Channel} (hch : s.chan? c = some ch) (hact : ch.phase ≠ .active) :
      Effect s (.rdstart c) ((s.putChan c ch.beginRead).putResult (resultWord .ok 0))
  | received {c : Nibble} {ch : Channel} {st : Bool} (b : Byte) (hch : s.chan? c = some ch) (hact : ch.phase = .active)
      (hst : s.started? c ch = some st) :
      Effect s (.rxb c b)
        (((s.putMem (Memory.write s.mem (rbufAddr c.toNat (ch.slot s.bufCap st b)) b)).putChan c
          (ch.received s.bufCap st b)).putResult (resultWord .ok 0))
  | spent {c : Nibble} {ch : Channel} (hch : s.chan? c = some ch) (hact : ch.phase = .active) :
      Effect s (.rxe c) ((s.putChan c ch.emptyRead).putResult (resultWord .ok 0))
  | storedP {idx : Half} (b : Byte) (hidx : idx.toNat < 255) :
      Effect s (.mwr 0 idx b) ((s.putMem (Memory.write s.mem (pbufAddr idx.toNat) b)).putResult (resultWord .ok 0))
  | storedW {idx : Half} (b : Byte) (hidx : idx.toNat < 515) :
      Effect s (.mwr 1 idx b) ((s.putMem (Memory.write s.mem (wbufAddr idx.toNat) b)).putResult (resultWord .ok 0))
  | plenSet {v : Half} (c : Nibble) (hv : v.toNat ≤ 255) :
      Effect s (.rwr 0x00 v c) { s with plen := v.setWidth 8, result := some (resultWord .ok 0) }
  | wlenSet {v : Half} (c : Nibble) (hv : v.toNat ≤ 515) :
      Effect s (.rwr 0x01 v c) { s with wlen := v.setWidth 10, result := some (resultWord .ok 0) }
  | hintSet {c : Nibble} {ch : Channel} (v : Half) (hch : s.chan? c = some ch) :
      Effect s (.rwr 0x14 v c) ((s.putChan c { ch with hintCfg := v }).putResult (resultWord .ok 0))
  | nattSet {c : Nibble} {ch : Channel} (v : Half) (hch : s.chan? c = some ch) :
      Effect s (.rwr 0x15 v c) ((s.putChan c { ch with nattCfg := v }).putResult (resultWord .ok 0))
  | cleared : Effect s .reset (s.resetBlock.putResult (resultWord .ok 0))

theorem State.Effect.of_raise {i : Instr} {s t : State} {st : Status} (h : raise st s = .next t) (hst : st ∈ raisedBy i)
    (hfail : st ≠ .ok) : s.Effect i t :=
  raise_next.mp h ▸ .refused hst hfail

/-! ### The effects of each operation -/

theorem effect_enc {s t : State} (h : exec .enc s = .next t) : s.Effect .enc t := by
  rcases exec_enc_cases h with ⟨-, rfl⟩ | ⟨-, rfl⟩ | ⟨p, hp, hpos, rfl⟩
  · exact .refused (by decide) (by decide)
  · exact .refused (by decide) (by decide)
  · exact .encoded hp hpos

theorem effect_decw {s t : State} (h : exec .decw s = .next t) : s.Effect .decw t := by
  cases hw : s.wire? with
  | none => rw [exec_decw_undef hw] at h; cases h
  | some raw =>
    have hdec : DecodesRaw .decw s raw := .inl ⟨rfl, hw⟩
    rw [exec_of_decodesRaw hdec, decodeCommit_eq] at h
    cases h
    exact .decoded hdec

theorem effect_decr {s t : State} {c : Nibble} (h : exec (.decr c) s = .next t) : s.Effect (.decr c) t := by
  cases hch : s.chan? c with
  | none => simp only [exec, execDecr, hch] at h; exact .of_raise h (by simp [raisedBy]) (by decide)
  | some ch =>
    by_cases hact : ch.phase = .active
    · rw [exec_decr_busy hch hact] at h; exact .of_raise h (by simp [raisedBy]) (by decide)
    · cases hraw : s.raw? c ch with
      | none => simp [exec, execDecr, hch, hact, hraw] at h
      | some raw =>
        have hdec : DecodesRaw (.decr c) s raw := .inr ⟨c, ch, rfl, hch, hact, hraw⟩
        rw [exec_of_decodesRaw hdec, decodeCommit_eq] at h
        cases h
        exact .decoded hdec

theorem effect_csum {s t : State} (h : exec .csum s = .next t) : s.Effect .csum t := by
  cases hp : s.payload? with
  | none => rw [exec_csum_undef hp] at h; cases h
  | some p =>
    simp only [exec, execCsum, hp] at h
    exact finish_next.mp h ▸ .summed hp

theorem effect_rdstart {s t : State} {c : Nibble} (h : exec (.rdstart c) s = .next t) : s.Effect (.rdstart c) t := by
  cases hch : s.chan? c with
  | none => simp only [exec, execRdstart, hch] at h; exact .of_raise h (by simp [raisedBy]) (by decide)
  | some ch =>
    by_cases hact : ch.phase = .active
    · rw [exec_rdstart_busy hch hact] at h; exact .of_raise h (by simp [raisedBy]) (by decide)
    · simp only [exec, execRdstart, hch, if_neg hact] at h
      exact finish_next.mp h ▸ .begun hch hact

theorem effect_event {s t : State} {c : Nibble} (e : RxEvent) (h : exec (e.instr c) s = .next t) :
    s.Effect (e.instr c) t := by
  cases hch : s.chan? c with
  | none => rw [exec_event_absent hch] at h; exact .of_raise h (by cases e <;> simp [RxEvent.instr, raisedBy]) (by decide)
  | some ch =>
    by_cases hact : ch.phase = .active
    · cases e with
      | empty => exact finish_next.mp ((exec_rxe_active hch hact).symm.trans h) ▸ .spent hch hact
      | byte b =>
        cases hst : s.started? c ch with
        | none => exact nomatch (exec_rxb_undef hch hact hst b).symm.trans h
        | some st =>
          have ht := finish_next.mp ((exec_rxb_active hch hact hst b).symm.trans h)
          rw [rxAccept_eq] at ht
          exact ht ▸ .received b hch hact hst
    · rw [exec_event_notReady hch hact] at h
      exact .of_raise h (by cases e <;> simp [RxEvent.instr, raisedBy]) (by decide)

theorem effect_mrd {s t : State} {sp : Nibble} {idx : Half} (h : exec (.mrd sp idx) s = .next t) :
    s.Effect (.mrd sp idx) t := by
  simp only [exec, execMrd] at h
  split at h
  · exact .of_raise h (by simp [raisedBy]) (by decide)
  · split_ifs at h
    · exact .of_raise h (by simp [raisedBy]) (by decide)
    · split at h
      · cases h
      · exact finish_next.mp h ▸ .answered _ (.inl ⟨sp, idx, rfl⟩)

theorem effect_mwr {s t : State} {sp : Nibble} {idx : Half} {b : Byte} (h : exec (.mwr sp idx b) s = .next t) :
    s.Effect (.mwr sp idx b) t := by
  simp only [exec, execMwr] at h
  rcases spaceOf_cases sp with ⟨rfl, hsp⟩ | ⟨rfl, hsp⟩ | ⟨rfl, hsp⟩ | ⟨-, -, hsp⟩ | ⟨-, hsp, -⟩ <;>
    simp only [hsp, writeLimit] at h
  · split_ifs at h with hidx
    · exact .of_raise h (by simp [raisedBy]) (by decide)
    · exact finish_next.mp h ▸ .storedP b (Nat.not_le.mp hidx)
  · split_ifs at h with hidx
    · exact .of_raise h (by simp [raisedBy]) (by decide)
    · exact finish_next.mp h ▸ .storedW b (Nat.not_le.mp hidx)
  all_goals exact .of_raise h (by simp [raisedBy]) (by decide)

theorem effect_rrd {s t : State} {reg : Byte} {c : Nibble} (h : exec (.rrd reg c) s = .next t) :
    s.Effect (.rrd reg c) t := by
  simp only [exec, execRrd] at h
  split at h
  · exact .of_raise h (by simp [raisedBy]) (by decide)
  · exact finish_next.mp h ▸ .answered _ (.inr ⟨reg, c, rfl⟩)
  · split at h
    · exact .of_raise h (by simp [raisedBy]) (by decide)
    · split at h
      · cases h
      · exact finish_next.mp h ▸ .answered _ (.inr ⟨reg, c, rfl⟩)

theorem effect_rwr_global {s t : State} {r : GlobalReg} {v : Half} {c : Nibble} (h : writeGlobalReg r v s = .next t) :
    s.Effect (.rwr (RegName.global r).number v c) t := by
  cases r with
  | plen =>
    simp only [writeGlobalReg] at h
    split_ifs at h with hv
    · exact .of_raise h (by simp [raisedBy]) (by decide)
    · exact finish_next.mp h ▸ .plenSet c (Nat.not_lt.mp hv)
  | wlen =>
    simp only [writeGlobalReg] at h
    split_ifs at h with hv
    · exact .of_raise h (by simp [raisedBy]) (by decide)
    · exact finish_next.mp h ▸ .wlenSet c (Nat.not_lt.mp hv)
  | dlen | dstat | dfield | csumR | fatal | nch | bufcap => exact .of_raise h (by simp [raisedBy]) (by decide)

theorem effect_rwr_chan {s t : State} {r : ChanReg} {v : Half} {c : Nibble} (h : writeChanReg r v c s = .next t) :
    s.Effect (.rwr (RegName.chan r).number v c) t := by
  cases hch : s.chan? c with
  | none => simp only [writeChanReg, hch] at h; exact .of_raise h (by simp [raisedBy]) (by decide)
  | some ch =>
    simp only [writeChanReg, hch] at h
    cases r with
    | rxHintCfg => exact finish_next.mp h ▸ .hintSet v hch
    | rxNattCfg => exact finish_next.mp h ▸ .nattSet v hch
    | rxState | rxCnt | rxAtt | rxHint => exact .of_raise h (by simp [raisedBy]) (by decide)

theorem effect_rwr {s t : State} {reg : Byte} {v : Half} {c : Nibble} (h : exec (.rwr reg v c) s = .next t) :
    s.Effect (.rwr reg v c) t := by
  cases hreg : regOf reg with
  | none => simp only [exec, execRwr, hreg] at h; exact .of_raise h (by simp [raisedBy]) (by decide)
  | some name =>
    obtain rfl := regOf_eq_some.mp hreg
    cases name with
    | global r => exact effect_rwr_global ((exec_rwr_global s r v c).symm.trans h)
    | chan r => exact effect_rwr_chan ((exec_rwr_chan s r v c).symm.trans h)

/-- Every operation that answers a next state has one of the effects. -/
theorem exec_effect {i : Instr} {s t : State} (h : exec i s = .next t) : s.Effect i t := by
  cases i with
  | enc => exact effect_enc h
  | decw => exact effect_decw h
  | decr c => exact effect_decr h
  | csum => exact effect_csum h
  | rdstart c => exact effect_rdstart h
  | rxb c b => exact effect_event (.byte b) h
  | rxe c => exact effect_event .empty h
  | mrd sp idx => exact effect_mrd h
  | mwr sp idx b => exact effect_mwr h
  | rrd reg c => exact effect_rrd h
  | rwr reg v c => exact effect_rwr h
  | reset => exact finish_next.mp h ▸ .cleared

end Sys2Proof.Machine
end

section
/-! What operations change and what they leave alone (10_state.md sections 4 to 6, 20_memory.md section 1), read off the list of
effects: the result word, the registers, the bytes, and one channel's registers. -/

namespace Sys2Proof.Machine

/-! ### The result word and the outside -/

theorem decodeUpdate_word (raw : List Byte) :
    ∃ st d, (decodeUpdate raw).word = resultWord st d ∧
      st ∈ [Status.ok, .frameTooShort, .checksumMismatch, .frameMalformed] ∧ (st ≠ .ok → d = 0) := by
  by_cases hok : validate raw = .ok
  · exact ⟨.ok, _, congrArg DecodeUpdate.word (decodeUpdate_of_ok hok), by simp, fun h => absurd rfl h⟩
  · refine ⟨validate raw, 0, congrArg DecodeUpdate.word (decodeUpdate_of_fail hok), ?_, fun _ => rfl⟩
    rcases validate_cases raw with h | h | h | h <;> simp [h]

theorem raisedBy_of_decodesRaw {i : Instr} {s : State} {raw : List Byte} (h : DecodesRaw i s raw) {st : Status}
    (hst : st ∈ [Status.ok, .frameTooShort, .checksumMismatch, .frameMalformed]) : st ∈ raisedBy i := by
  rcases h with ⟨rfl, -⟩ | ⟨c, -, rfl, -⟩
  · exact hst
  · exact List.mem_append_left [.busy, .rangeError] hst

/-- Settles O8. -/
theorem everyResultIsARaisableStatus : Obligations.EveryResultIsARaisableStatus := by
  unfold Obligations.EveryResultIsARaisableStatus
  intro i s t h
  cases exec_effect h with
  | refused hst _ => exact ⟨_, 0, rfl, hst, fun _ => rfl⟩
  | answered d hread =>
    refine ⟨.ok, d, rfl, ?_, fun hfail => absurd rfl hfail⟩
    rcases hread with ⟨sp, idx, rfl⟩ | ⟨r, c, rfl⟩ <;> simp [raisedBy]
  | decoded hraw =>
    obtain ⟨st, d, hword, hst, hzero⟩ := decodeUpdate_word _
    exact ⟨st, d, congrArg some hword, raisedBy_of_decodesRaw hraw hst, hzero⟩
  | _ => exact ⟨.ok, _, rfl, by simp [raisedBy], fun hfail => absurd rfl hfail⟩

/-- Settles O14. -/
theorem operationsLeaveTheOutsideAlone : Obligations.OperationsLeaveTheOutsideAlone := by
  unfold Obligations.OperationsLeaveTheOutsideAlone
  intro i s t h
  cases exec_effect h with
  | _ => exact ⟨rfl, rfl, rfl⟩

/-! ### Global registers -/

section
variable {s t : State} {i : Instr} (h : s.Effect i t)
include h

theorem State.Effect.plen_writers : t.plen = s.plen ∨ i = .reset ∨ ∃ v c, i = .rwr 0x00 v c := by
  cases h with
  | plenSet c hv => exact .inr (.inr ⟨_, c, rfl⟩)
  | cleared => exact .inr (.inl rfl)
  | _ => exact .inl rfl

theorem State.Effect.wlen_writers : t.wlen = s.wlen ∨ i = .enc ∨ i = .reset ∨ ∃ v c, i = .rwr 0x01 v c := by
  cases h with
  | encoded => exact .inr (.inl rfl)
  | wlenSet c hv => exact .inr (.inr (.inr ⟨_, c, rfl⟩))
  | cleared => exact .inr (.inr (.inl rfl))
  | _ => exact .inl rfl

theorem State.Effect.decode_writers :
    (t.dlen = s.dlen ∧ t.dstat = s.dstat ∧ t.dfield = s.dfield) ∨ i = .decw ∨ i = .reset ∨ ∃ c, i = .decr c := by
  cases h with
  | decoded hraw =>
    rcases hraw with ⟨rfl, -⟩ | ⟨c, -, rfl, -⟩
    · exact .inr (.inl rfl)
    · exact .inr (.inr (.inr ⟨c, rfl⟩))
  | cleared => exact .inr (.inr (.inl rfl))
  | _ => exact .inl ⟨rfl, rfl, rfl⟩

theorem State.Effect.csumR_writers : t.csumR = s.csumR ∨ i = .enc ∨ i = .csum ∨ i = .reset := by
  cases h with
  | encoded => exact .inr (.inl rfl)
  | summed => exact .inr (.inr (.inl rfl))
  | cleared => exact .inr (.inr (.inr rfl))
  | _ => exact .inl rfl

/-- ENC is no writer of FATAL: its self-check never fails (40_codec.md R413). -/
theorem State.Effect.fatal_writers : t.fatal = s.fatal ∨ (i = .reset ∧ t.fatal = false) := by
  cases h with
  | cleared => exact .inr ⟨rfl, rfl⟩
  | _ => exact .inl rfl

theorem State.Effect.chans_length : t.chans.length = s.chans.length := by
  cases h with
  | begun | received | spent | hintSet | nattSet => exact List.length_set
  | cleared => exact List.length_replicate
  | _ => rfl

theorem State.Effect.bufCap_eq : t.bufCap = s.bufCap := by
  cases h with
  | _ => rfl

end

/-- Settles O57. -/
theorem globalRegistersHaveTheirWriters : Obligations.GlobalRegistersHaveTheirWriters := by
  unfold Obligations.GlobalRegistersHaveTheirWriters
  intro i s t hexec
  have h := exec_effect hexec
  refine ⟨fun hne => h.plen_writers.resolve_left hne, fun hne => h.wlen_writers.resolve_left hne, fun hne => ?_,
    fun hne => h.csumR_writers.resolve_left hne, fun hne => ?_, h.chans_length, h.bufCap_eq⟩
  · refine h.decode_writers.resolve_left ?_
    rintro ⟨hdlen, hdstat, hdfield⟩
    rcases hne with hne | hne | hne
    · exact hne hdlen
    · exact hne hdstat
    · exact hne hdfield
  · exact .inr (h.fatal_writers.resolve_left hne).1

/-! ### Bytes -/

/-- The operation `i` may write the byte at address `a` (20_memory.md R200). -/
inductive MayWrite : Instr → Nat → Prop
  | enc {a k : Nat} (ha : a = wbufAddr k) (hk : k < 515) : MayWrite .enc a
  | mwrP {a : Nat} {idx : Half} {b : Byte} (ha : a = pbufAddr idx.toNat) (hk : idx.toNat < 255) : MayWrite (.mwr 0 idx b) a
  | mwrW {a : Nat} {idx : Half} {b : Byte} (ha : a = wbufAddr idx.toNat) (hk : idx.toNat < 515) : MayWrite (.mwr 1 idx b) a
  | dec {i : Instr} {a k : Nat} (ha : a = dbufAddr k) (hk : k < 65536) (hi : i = .decw ∨ ∃ c, i = .decr c) : MayWrite i a
  | rxb {a k : Nat} {c : Nibble} {b : Byte} (ha : a = rbufAddr c.toNat k) (hk : k < 65536) : MayWrite (.rxb c b) a

/-- An address that a written run of bytes changes lies in that run. -/
theorem Memory.read_writeList_cases (m : Memory) (a : Nat) (bs : List Byte) (x : Nat) :
    Memory.read (Memory.writeList m a bs) x = Memory.read m x ∨ ∃ k, k < bs.length ∧ x = a + k := by
  by_cases hx : x < a ∨ a + bs.length ≤ x
  · exact .inl (Memory.read_writeList_outside bs m a x hx)
  · exact .inr ⟨x - a, by omega, by omega⟩

theorem Memory.read_write_cases (m : Memory) (a : Nat) (b : Byte) (x : Nat) :
    Memory.read (Memory.write m a b) x = Memory.read m x ∨ x = a := by
  by_cases hx : x = a
  · exact .inr hx
  · exact .inl (Memory.read_write_ne m b hx)

theorem build_length_le {s : State} {p : List Byte} (hp : s.payload? = some p) : (build p).1.length ≤ 515 := by
  have := (build_length p).2
  have := State.payload?_le hp
  omega

/-- The raw bytes of a decode stand in WBUF or in an RBUF. -/
theorem DecodesRaw.length_lt {i : Instr} {s : State} {raw : List Byte} (h : DecodesRaw i s raw) :
    raw.length < 65536 := by
  rcases h with ⟨-, hraw⟩ | ⟨c, ch, -, -, -, hraw⟩
  · have := ((Memory.readList_eq_some _ _ _ _).mp hraw).1
    have := s.wlen.isLt
    omega
  · have := State.raw?_length hraw
    have := ch.rxCnt.isLt
    omega

theorem DecodesRaw.instr {i : Instr} {s : State} {raw : List Byte} (h : DecodesRaw i s raw) :
    i = .decw ∨ ∃ c, i = .decr c := by
  rcases h with ⟨rfl, -⟩ | ⟨c, -, rfl, -⟩
  · exact .inl rfl
  · exact .inr ⟨c, rfl⟩

theorem Channel.slot_lt (ch : Channel) (cap : Half) (st : Bool) (b : Byte) : ch.slot cap st b < 65536 := by
  have := ch.rxCnt.isLt
  rcases ch.received_cases cap st b with ⟨h, -⟩ | ⟨h, -⟩ | ⟨h, -⟩ <;> omega

theorem State.Effect.byte_writers {s t : State} {i : Instr} (h : s.Effect i t) (a : Nat) :
    Memory.read t.mem a = Memory.read s.mem a ∨ i = .reset ∨ MayWrite i a := by
  cases h with
  | encoded hp hpos =>
    refine (Memory.read_writeList_cases s.mem (wbufAddr 0) _ a).imp_right fun ⟨k, hk, ha⟩ => .inr (.enc (k := k) ?_ ?_)
    · exact ha.trans (spaceAddr_zero_add 1 k)
    · exact hk.trans_le (build_length_le hp)
  | decoded hraw =>
    refine (Memory.read_writeList_cases s.mem (dbufAddr 0) _ a).imp_right fun ⟨k, hk, ha⟩ =>
      .inr (.dec (k := k) ?_ ?_ hraw.instr)
    · exact ha.trans (spaceAddr_zero_add 2 k)
    · exact hk.trans (lt_of_le_of_lt (decodeUpdate_length_le _) hraw.length_lt)
  | received b _ _ _ =>
    exact (Memory.read_write_cases s.mem _ b a).imp_right fun ha => .inr (.rxb ha (Channel.slot_lt _ _ _ _))
  | storedP b hidx => exact (Memory.read_write_cases s.mem _ b a).imp_right fun ha => .inr (.mwrP ha hidx)
  | storedW b hidx => exact (Memory.read_write_cases s.mem _ b a).imp_right fun ha => .inr (.mwrW ha hidx)
  | cleared => exact .inr (.inl rfl)
  | _ => exact .inl rfl

theorem MayWrite.pbuf {i : Instr} {k : Nat} (h : MayWrite i (pbufAddr k)) (hk : k < 65536) :
    ∃ idx b, i = .mwr 0 idx b ∧ idx.toNat = k ∧ k < 255 := by
  cases h with
  | mwrP ha hlt =>
    obtain ⟨-, rfl⟩ := (spaceAddr_inj hk (by omega)).mp ha
    exact ⟨_, _, rfl, rfl, hlt⟩
  | enc ha hlt | mwrW ha hlt | dec ha hlt | rxb ha hlt =>
    obtain ⟨hsp, -⟩ := (spaceAddr_inj hk (by omega)).mp ha
    omega

theorem MayWrite.wbuf {i : Instr} {k : Nat} (h : MayWrite i (wbufAddr k)) (hk : k < 65536) :
    (i = .enc ∨ ∃ idx b, i = .mwr 1 idx b ∧ idx.toNat = k) ∧ k < 515 := by
  cases h with
  | enc ha hlt =>
    obtain ⟨-, rfl⟩ := (spaceAddr_inj hk (by omega)).mp ha
    exact ⟨.inl rfl, hlt⟩
  | mwrW ha hlt =>
    obtain ⟨-, rfl⟩ := (spaceAddr_inj hk (by omega)).mp ha
    exact ⟨.inr ⟨_, _, rfl, rfl⟩, hlt⟩
  | mwrP ha hlt | dec ha hlt | rxb ha hlt =>
    obtain ⟨hsp, -⟩ := (spaceAddr_inj hk (by omega)).mp ha
    omega

theorem MayWrite.dbuf {i : Instr} {k : Nat} (h : MayWrite i (dbufAddr k)) (hk : k < 65536) :
    i = .decw ∨ ∃ c, i = .decr c := by
  cases h with
  | dec _ _ hi => exact hi
  | enc ha hlt | mwrP ha hlt | mwrW ha hlt | rxb ha hlt =>
    obtain ⟨hsp, -⟩ := (spaceAddr_inj hk (by omega)).mp ha
    omega

theorem MayWrite.rbuf {i : Instr} {c : Nibble} {k : Nat} (h : MayWrite i (rbufAddr c.toNat k)) (hk : k < 65536) :
    ∃ b, i = .rxb c b := by
  cases h with
  | rxb ha hlt =>
    obtain ⟨hsp, -⟩ := (spaceAddr_inj hk hlt).mp ha
    obtain rfl := BitVec.eq_of_toNat_eq (Nat.add_left_cancel hsp)
    exact ⟨_, rfl⟩
  | enc ha hlt | mwrP ha hlt | mwrW ha hlt | dec ha hlt =>
    obtain ⟨hsp, -⟩ := (spaceAddr_inj hk (by omega)).mp ha
    omega

/-- Settles O59. -/
theorem spacesHaveTheirWriters : Obligations.SpacesHaveTheirWriters := by
  unfold Obligations.SpacesHaveTheirWriters
  intro i s t k hexec hreset hk
  have hwrite : ∀ a, Memory.read t.mem a ≠ Memory.read s.mem a → MayWrite i a := fun a hne =>
    (((exec_effect hexec).byte_writers a).resolve_left hne).resolve_left hreset
  exact ⟨fun hne => (hwrite _ hne).pbuf hk, fun hne => (hwrite _ hne).wbuf hk, fun hne => (hwrite _ hne).dbuf hk,
    fun c hne => (hwrite _ hne).rbuf hk⟩

/-! ### One channel's registers -/

/-- What an operation that answers a next state has done to the registers `ch` of channel `c`. -/
inductive State.ChanEffect (s : State) (c : Nibble) (ch : Channel) : Instr → Channel → Prop
  | kept (i : Instr) : ChanEffect s c ch i ch
  | begun (hact : ch.phase ≠ .active) : ChanEffect s c ch (.rdstart c) ch.beginRead
  | received {st : Bool} (b : Byte) (hact : ch.phase = .active) (hst : s.started? c ch = some st) :
      ChanEffect s c ch (.rxb c b) (ch.received s.bufCap st b)
  | spent (hact : ch.phase = .active) : ChanEffect s c ch (.rxe c) ch.emptyRead
  | hintSet (v : Half) : ChanEffect s c ch (.rwr 0x14 v c) { ch with hintCfg := v }
  | nattSet (v : Half) : ChanEffect s c ch (.rwr 0x15 v c) { ch with nattCfg := v }
  | cleared : ChanEffect s c ch .reset Channel.reset

theorem State.chan?_putChan_cases {s : State} {c d : Nibble} {ch ch' x y : Channel} (hch : s.chan? c = some ch)
    (hd : s.chan? d = some x) (h : (s.putChan d y).chan? c = some ch') : (d = c ∧ x = ch ∧ y = ch') ∨ ch = ch' := by
  rcases State.chan?_putChan h with ⟨rfl, rfl⟩ | ⟨-, hsame⟩
  · exact .inl ⟨rfl, Option.some.inj (hd.symm.trans hch), rfl⟩
  · exact .inr (Option.some.inj (hch.symm.trans hsame))

theorem State.Effect.chan {s t : State} {i : Instr} {c : Nibble} {ch ch' : Channel} (h : s.Effect i t)
    (hch : s.chan? c = some ch) (hch' : t.chan? c = some ch') : s.ChanEffect c ch i ch' := by
  cases h with
  | begun hd hact =>
    obtain ⟨rfl, rfl, rfl⟩ | rfl := State.chan?_putChan_cases hch hd hch'
    · exact .begun hact
    · exact .kept _
  | received b hd hact hst =>
    obtain ⟨rfl, rfl, rfl⟩ | rfl := State.chan?_putChan_cases (s := s.putMem _) hch hd hch'
    · exact .received b hact hst
    · exact .kept _
  | spent hd hact =>
    obtain ⟨rfl, rfl, rfl⟩ | rfl := State.chan?_putChan_cases hch hd hch'
    · exact .spent hact
    · exact .kept _
  | hintSet v hd =>
    obtain ⟨rfl, rfl, rfl⟩ | rfl := State.chan?_putChan_cases hch hd hch'
    · exact .hintSet v
    · exact .kept _
  | nattSet v hd =>
    obtain ⟨rfl, rfl, rfl⟩ | rfl := State.chan?_putChan_cases hch hd hch'
    · exact .nattSet v
    · exact .kept _
  | cleared =>
    obtain ⟨rfl, -⟩ := State.chan?_resetBlock hch'
    exact .cleared
  | _ =>
    obtain rfl := Option.some.inj (hch.symm.trans hch')
    exact .kept _

/-- A byte leaves the attempts, the hint and the configuration alone. -/
theorem Channel.appended_frame (ch : Channel) (cl : ByteClass) :
    (ch.appended cl).rxAtt = ch.rxAtt ∧ (ch.appended cl).rxHint = ch.rxHint ∧
    (ch.appended cl).hintCfg = ch.hintCfg ∧ (ch.appended cl).nattCfg = ch.nattCfg := by
  unfold Channel.appended
  split_ifs <;> exact ⟨rfl, rfl, rfl, rfl⟩

theorem Channel.received_frame (ch : Channel) (cap : Half) (st : Bool) (b : Byte) :
    (ch.received cap st b).rxAtt = ch.rxAtt ∧ (ch.received cap st b).rxHint = ch.rxHint ∧
    (ch.received cap st b).hintCfg = ch.hintCfg ∧ (ch.received cap st b).nattCfg = ch.nattCfg := by
  rcases ch.received_cases cap st b with ⟨-, h⟩ | ⟨-, -, h⟩ | ⟨-, -, h⟩ <;> rw [h]
  · exact ⟨rfl, rfl, rfl, rfl⟩
  · exact ch.overflowed.appended_frame _
  · exact ch.appended_frame _

theorem Channel.emptyRead_frame (ch : Channel) :
    ch.emptyRead.rxCnt = ch.rxCnt ∧ ch.emptyRead.esc = ch.esc ∧ ch.emptyRead.fHint = ch.fHint ∧
    ch.emptyRead.fOvf = ch.fOvf ∧ ch.emptyRead.fResync = ch.fResync ∧ ch.emptyRead.rxHint = ch.rxHint ∧
    ch.emptyRead.hintCfg = ch.hintCfg ∧ ch.emptyRead.nattCfg = ch.nattCfg := by
  unfold Channel.emptyRead
  dsimp only
  split_ifs <;> exact ⟨rfl, rfl, rfl, rfl, rfl, rfl, rfl, rfl⟩

/-- Settles O58. -/
theorem channelRegistersHaveTheirWriters : Obligations.ChannelRegistersHaveTheirWriters := by
  unfold Obligations.ChannelRegistersHaveTheirWriters
  intro i s t c ch ch' hexec hreset hch hch'
  cases (exec_effect hexec).chan hch hch' with
  | kept => simp
  | begun hact => simp
  | received b hact hst =>
    simpa using ch.received_frame s.bufCap _ b
  | spent hact =>
    obtain ⟨hcnt, hesc, hfHint, hfOvf, hfResync, hhint, hhintCfg, hnattCfg⟩ := ch.emptyRead_frame
    simp [hcnt, hesc, hfHint, hfOvf, hfResync, hhint, hhintCfg, hnattCfg]
  | hintSet v => simp
  | nattSet v => simp
  | cleared => exact absurd rfl hreset

/-! ### The end of a read -/

/-- A byte ends the read or leaves its phase alone, and it ends the read only by the class END at the position it takes. -/
theorem Channel.appended_phase_cases (ch : Channel) (cl : ByteClass) :
    (cl = .endMark ∧ (ch.appended cl).phase = .done ∧ (ch.appended cl).readEnd = .frame) ∨
    (cl ≠ .endMark ∧ (ch.appended cl).phase = ch.phase ∧ (ch.appended cl).readEnd = ch.readEnd) := by
  by_cases h : cl = .endMark
  · exact .inl ⟨h, h ▸ ch.appended_endMark_phase, h ▸ ch.appended_endMark_readEnd⟩
  · exact .inr ⟨h, by rw [Channel.appended_of_ne h], by rw [Channel.appended_of_ne h]⟩

theorem Channel.received_phase_cases (s : State) (ch : Channel) (st : Bool) (b : Byte) :
    (classOnChannel s ch st b = .endMark ∧ (ch.received s.bufCap st b).phase = .done ∧
      (ch.received s.bufCap st b).readEnd = .frame) ∨
    ((ch.received s.bufCap st b).phase = ch.phase ∧ (ch.received s.bufCap st b).readEnd = ch.readEnd) := by
  unfold classOnChannel
  rcases ch.received_cases s.bufCap st b with ⟨-, h⟩ | ⟨-, hfull, h⟩ | ⟨-, hroom, h⟩ <;> rw [h]
  · exact .inr ⟨rfl, rfl⟩
  · rw [if_pos hfull]
    exact (ch.overflowed.appended_phase_cases _).imp_right And.right
  · rw [if_neg hroom]
    exact (ch.appended_phase_cases _).imp_right And.right

theorem Channel.emptyRead_phase_cases (ch : Channel) :
    (ch.rxAtt = 1 ∧ ch.emptyRead = { ch with rxAtt := 0, phase := .done, readEnd := .timeout }) ∨
    (ch.rxAtt ≠ 1 ∧ ch.emptyRead = { ch with rxAtt := ch.rxAtt - 1 }) := by
  have hlast : ch.rxAtt - 1 = 0 ↔ ch.rxAtt = 1 := by bv_omega
  unfold Channel.emptyRead
  dsimp only
  split_ifs with h
  · exact .inl ⟨hlast.mp h, by rw [h]⟩
  · exact .inr ⟨mt hlast.mpr h, rfl⟩

theorem classOnChannel_endMark {s : State} {ch : Channel} {st : Bool} {b : Byte}
    (h : classOnChannel s ch st b = .endMark) : b = Config.endMarker := by
  unfold classOnChannel at h
  split_ifs at h
  · exact (cls_endMark h).1
  · exact (cls_endMark h).1

/-- Settles O36. -/
theorem readEndsOnlyByEndMarkerOrTimeout : Obligations.ReadEndsOnlyByEndMarkerOrTimeout := by
  unfold Obligations.ReadEndsOnlyByEndMarkerOrTimeout
  intro i s t c ch ch' hexec hch hch' hact hend
  cases (exec_effect hexec).chan hch hch' with
  | kept => exact absurd hact hend
  | begun hidle => exact absurd hact hidle
  | received b _ hst =>
    rcases Channel.received_phase_cases s ch _ b with ⟨hcls, hdone, hframe⟩ | ⟨hsame, -⟩
    · obtain rfl := classOnChannel_endMark hcls
      exact .inl ⟨rfl, ⟨_, hst, hcls⟩, hdone, hframe⟩
    · exact absurd (hsame.trans hact) hend
  | spent _ =>
    rcases ch.emptyRead_phase_cases with ⟨hone, h⟩ | ⟨-, h⟩
    · exact .inr (.inl ⟨rfl, hone, by rw [h], by rw [h]⟩)
    · exact absurd (h ▸ hact) hend
  | hintSet v => exact absurd hact hend
  | nattSet v => exact absurd hact hend
  | cleared => exact .inr (.inr ⟨rfl, rfl⟩)

/-! ### rx_done -/

theorem State.rxDone_iff {s : State} {c : Nibble} {ch : Channel} (hch : s.chan? c = some ch) :
    s.rxDone c = true ↔ ch.phase = .done := by
  rw [State.rxDone, hch, beq_iff_eq]

theorem State.chan?_of_rxDone {s : State} {c : Nibble} (h : s.rxDone c = true) :
    ∃ ch, s.chan? c = some ch ∧ ch.phase = .done := by
  cases hch : s.chan? c with
  | none => rw [State.rxDone, hch] at h; cases h
  | some ch => exact ⟨ch, rfl, (State.rxDone_iff hch).mp h⟩

theorem State.rxDone_eq_false {s : State} {c : Nibble} {ch : Channel} (hch : s.chan? c = some ch)
    (h : s.rxDone c = false) : ch.phase ≠ .done := fun hdone => by
  simp [(State.rxDone_iff hch).mpr hdone] at h

/-- Channels are present before and after an operation alike. -/
theorem State.Effect.present_iff {s t : State} {i : Instr} (h : s.Effect i t) (c : Nibble) :
    (∃ ch, s.chan? c = some ch) ↔ ∃ ch', t.chan? c = some ch' := by
  simp only [← Option.isSome_iff_exists, ← Option.ne_none_iff_isSome, ne_eq, State.chan?_eq_none, h.chans_length]

/-- What makes a channel DONE. -/
theorem State.ChanEffect.becomes_done {s : State} {c : Nibble} {ch ch' : Channel} {i : Instr}
    (h : s.ChanEffect c ch i ch') (hbefore : ch.phase ≠ .done) (hdone : ch'.phase = .done) :
    ((∃ b, i = .rxb c b) ∨ i = .rxe c ∨ i = .rdstart c) ∧ (ch'.readEnd = .frame ∨ ch'.readEnd = .timeout) := by
  cases h with
  | kept | hintSet | nattSet => exact absurd hdone hbefore
  | begun _ =>
    refine ⟨.inr (.inr rfl), .inr ?_⟩
    rw [Channel.beginRead_phase] at hdone
    split_ifs at hdone with hzero
    rw [Channel.beginRead_readEnd, if_pos hzero]
  | received b _ _ =>
    rcases Channel.received_phase_cases s ch _ b with ⟨-, -, hframe⟩ | ⟨hsame, -⟩
    · exact ⟨.inl ⟨b, rfl⟩, .inl hframe⟩
    · exact absurd (hsame.symm.trans hdone) hbefore
  | spent _ =>
    rcases ch.emptyRead_phase_cases with ⟨-, h⟩ | ⟨-, h⟩
    · exact ⟨.inr (.inl rfl), .inr (by rw [h])⟩
    · rw [h] at hdone
      exact absurd hdone hbefore
  | cleared => cases hdone

/-- What takes a channel out of DONE. -/
theorem State.ChanEffect.leaves_done {s : State} {c : Nibble} {ch ch' : Channel} {i : Instr}
    (h : s.ChanEffect c ch i ch') (hdone : ch.phase = .done) (hafter : ch'.phase ≠ .done) :
    i = .reset ∨ (i = .rdstart c ∧ ch'.phase = .active) := by
  cases h with
  | kept | hintSet | nattSet => exact absurd hdone hafter
  | begun _ =>
    refine .inr ⟨rfl, ?_⟩
    rw [Channel.beginRead_phase] at hafter ⊢
    split_ifs at hafter ⊢ with hzero
    · exact absurd rfl hafter
    · rfl
  | received _ hact _ | spent hact => simp [hact] at hdone
  | cleared => exact .inl rfl

/-- Settles O42. -/
theorem rxDoneLine : Obligations.RxDoneLine := by
  unfold Obligations.RxDoneLine
  refine ⟨fun s c ch hch => State.rxDone_iff hch, fun i s t c hexec hlow hhigh => ?_, fun i s t c hexec hhigh hlow => ?_⟩
  · have h := exec_effect hexec
    obtain ⟨ch', hch', hdone⟩ := State.chan?_of_rxDone hhigh
    obtain ⟨ch, hch⟩ := (h.present_iff c).mpr ⟨ch', hch'⟩
    obtain ⟨hinstr, hend⟩ := (h.chan hch hch').becomes_done (State.rxDone_eq_false hch hlow) hdone
    exact ⟨hinstr, ch', hch', hend⟩
  · have h := exec_effect hexec
    obtain ⟨ch, hch, hdone⟩ := State.chan?_of_rxDone hhigh
    obtain ⟨ch', hch'⟩ := (h.present_iff c).mp ⟨ch, hch⟩
    exact ((h.chan hch hch').leaves_done hdone (State.rxDone_eq_false hch' hlow)).imp_right fun ⟨hi, hact⟩ =>
      ⟨hi, ch', hch', hact⟩

end Sys2Proof.Machine
end

section
/-! The codec operations (40_codec.md R402, R405, R407 to R413): ENC and its self-check, a decode that passes every check, and a
built frame decoded again, from WBUF or from a channel's buffer. -/

namespace Sys2Proof.Machine

/-! ### The scanner's classes -/

/-- Settles O16. -/
theorem scannerClassification : Obligations.ScannerClassification := by
  unfold Obligations.ScannerClassification
  refine ⟨cls_len, cls_start, fun k st b hlen hstart => ?_, fun k e b hk => ?_, fun st k e b rest => ?_, fun _ _ _ => rfl,
    fun st k rest hk => ?_, fun raw => by rw [scan, List.head?_eq_getElem?]; rfl⟩
  · have hstart' : ¬(k = 0 ∧ b = Config.startMarker) := hstart
    simp only [cls, if_neg hlen, if_neg hstart']
    exact ⟨rfl, rfl⟩
  · have hzero : k ≠ 0 := by omega
    simp [cls, hzero]
  · refine ⟨scanFrom_cons_esc rest, fun h => ?_, scanFrom_cons_endMark rest, fun h => ?_⟩
    · rw [scanFrom_cons_kept rest (by simp [h]) (by simp [h]), h]; rfl
    · rcases h with h | h | h <;> (rw [scanFrom_cons_kept rest (by simp [h]) (by simp [h]), h]; rfl)
  · have hrun : ([0x10, 0x10] : List Byte).flatMap esc = [0x10, 0x10, 0x10, 0x10] := by decide
    have h := scanFrom_escaped st [0x10, 0x10] rest hk
    rw [hrun] at h
    exact h

/-! ### CSUM -/

/-- Settles O26. -/
theorem csumComputes : Obligations.CsumComputes := by
  unfold Obligations.CsumComputes
  have hsum : ∀ (s : State) (p : List Byte), s.payload? = some p → exec .csum s = .next
      { s with csumR := checksum s.plen p, result := some (resultWord .ok ((checksum s.plen p).setWidth 16)) } :=
    fun s p hp => by simp only [exec, execCsum, hp]; rfl
  refine ⟨hsum, fun s hplen => ?_, by decide⟩
  have hp : s.payload? = some [] := by rw [State.payload?, hplen]; rfl
  rw [hsum s [] hp, hplen]
  rfl

/-! ### ENC -/

theorem stores_writeList (m : Memory) (a : Nat) (bs : List Byte) : Stores m (Memory.writeList m a bs) a bs :=
  ⟨fun i hi => Memory.read_writeList_inside bs m a i hi, fun x hx => Memory.read_writeList_outside bs m a x hx⟩

/-- WLEN holds the length of every frame ENC builds. -/
theorem wlen_build {s : State} {p : List Byte} (hp : s.payload? = some p) :
    (BitVec.ofNat 10 (build p).1.length).toNat = (build p).1.length := by
  have := build_length_le hp
  rw [BitVec.toNat_ofNat]
  omega

/-- Settles O19. -/
theorem encWritesTheFrame : Obligations.EncWritesTheFrame := by
  unfold Obligations.EncWritesTheFrame
  intro s p hfatal hplen hp
  exact ⟨_, exec_enc_ok hfatal hplen hp, stores_writeList s.mem (wbufAddr 0) (build p).1, wlen_build hp⟩

/-! ### FATAL -/

theorem State.retire_fatal (a : Agent) (s : State) : (s.retire a).fatal = s.fatal := by rw [State.retire_block]

theorem execWord_fatal {w : Word} {s t : State} (h : execWord w s = .next t) (hlow : s.fatal = false) :
    t.fatal = false := by
  rcases execWord_next h with ⟨i, -, hexec⟩ | ⟨-, rfl⟩
  · rcases (exec_effect hexec).fatal_writers with hsame | ⟨-, hclear⟩
    · exact hsame.trans hlow
    · exact hclear
  · exact hlow

theorem step_fatal {s t : State} (h : step s = .next t) (hlow : s.fatal = false) : t.fatal = false := by
  rcases step_next h with ⟨-, rfl⟩ | ⟨-, -, rfl⟩ | ⟨-, -, -, -, rfl⟩ | ⟨a, -, w, u, -, -, hexec, rfl⟩
  · exact hlow
  · rfl
  · exact hlow
  · exact (u.retire_fatal a).trans (execWord_fatal hexec hlow)

/-- Settles O22. ENC has three effects, none of them the failed self-check. -/
theorem selfCheckNeverFails : Obligations.SelfCheckNeverFails := by
  unfold Obligations.SelfCheckNeverFails
  refine ⟨fun s t h => ?_, fun s t hlow h hhigh => ?_⟩
  · have hother : ∀ {st : Status} {d : Half}, st ≠ .encodeSelfCheckFailed →
        some (resultWord st d) ≠ some (resultWord .encodeSelfCheckFailed 0) :=
      fun hne heq => hne (resultWord_inj (Option.some.inj heq)).1
    rcases exec_enc_cases h with ⟨-, rfl⟩ | ⟨-, rfl⟩ | ⟨p, -, -, rfl⟩ <;> exact ⟨rfl, hother (by decide)⟩
  · exact Bool.false_ne_true ((step_fatal h (Bool.eq_false_iff.mpr hlow)).symm.trans hhigh)

theorem execAll_fatal {is : List Instr} {s t : State} (hreset : .reset ∉ is) (h : execAll is s = .next t)
    (hhigh : s.fatal = true) : t.fatal = true := by
  induction is generalizing s with
  | nil => cases h; exact hhigh
  | cons i is ih =>
    obtain ⟨u, hexec, hrest⟩ := execAll_cons_next.mp h
    have hi : i ≠ .reset := fun hi => hreset (hi ▸ List.mem_cons_self)
    have hu : u.fatal = s.fatal := (exec_effect hexec).fatal_writers.resolve_right fun hclear => hi hclear.1
    exact ih (fun hmem => hreset (List.mem_cons_of_mem i hmem)) hrest (hu.trans hhigh)

/-- Settles O21. Only RESET clears FATAL, and a halted ENC is refused. -/
theorem failedSelfCheckHaltsEncoding : Obligations.FailedSelfCheckHaltsEncoding := by
  unfold Obligations.FailedSelfCheckHaltsEncoding
  refine fun s p w c => ⟨fun hbad => ?_, fun hok hpayload => ?_⟩
  · have hcheck : ¬selfCheck p w = true := by
      simp only [selfCheck, Bool.and_eq_true, decide_eq_true_eq]
      exact fun ⟨hok, hpayload⟩ => hbad.elim (fun h => h hok) fun h => h hpayload
    refine ⟨_, (if_neg hcheck).trans (raise_eq_next (w := 0x00000006) (by decide) _), rfl, fun is u hreset hrun => ?_⟩
    have hhalted : u.fatal = true := execAll_fatal hreset hrun rfl
    exact (exec_enc_halted hhalted).trans (raise_eq_next (by decide) u)
  · have hcheck : selfCheck p w = true := by simp [selfCheck, hok, hpayload]
    exact ⟨_, if_pos hcheck, rfl⟩

/-! ### A decode that passes every check -/

theorem State.decoded?_commit (s : State) {u : DecodeUpdate} (h : u.bytes.length < 65536) :
    (s.commit u).decoded? = some u.bytes := by
  rw [State.decoded?, State.commit_dlen_toNat s h]
  exact Memory.readList_writeList s.mem (dbufAddr 0) u.bytes

/-- While DVALID = 1 the decoded bytes may be consumed (10_state.md R114). -/
theorem State.consumable_commit (s : State) {u : DecodeUpdate} (hok : u.dstat = dstatOf .ok)
    (h : u.bytes.length < 65536) : (s.commit u).consumable = some u.bytes := by
  have hvalid : (s.commit u).dvalid = true := (congrArg (BitVec.getLsbD · 8) hok).trans (by decide)
  rw [State.consumable, if_pos hvalid, State.decoded?_commit s h]

theorem exec_decode {i : Instr} {s : State} {raw : List Byte} (h : DecodesRaw i s raw) :
    exec i s = .next (s.commit (decodeUpdate raw)) :=
  (exec_of_decodesRaw h).trans (decodeCommit_eq raw s)

theorem DecodesRaw.scan_length_lt {i : Instr} {s : State} {raw : List Byte} (h : DecodesRaw i s raw) :
    (scan raw).1.length < 65536 :=
  (scan_length_le raw).trans_lt h.length_lt

/-- Settles O25. -/
theorem goodFrameDecodes : Obligations.GoodFrameDecodes := by
  unfold Obligations.GoodFrameDecodes
  intro i s raw hdec de hlong hhead hend hsum
  have hok : validate raw = .ok := validate_eq_ok.mpr ⟨hlong, List.head?_eq_getElem?.trans hhead, hend, hsum.symm⟩
  have hlong' : 5 ≤ (scan raw).1.length := hlong
  have hlen : (scan raw).1[1]? = some ((scan raw).1.getD 1 0) := by
    rw [List.getD_eq_getElem?_getD, List.getElem?_eq_getElem (by omega), Option.getD_some]
  have hchk : (scan raw).1[(scan raw).1.length - 2]? = some ((scan raw).1.getD ((scan raw).1.length - 2) 0) := by
    rw [List.getD_eq_getElem?_getD, List.getElem?_eq_getElem (by omega), Option.getD_some]
  have hexec := exec_decode hdec
  rw [decodeUpdate_of_ok hok] at hexec
  refine ⟨_, _, _, hexec, hlen, hchk, stores_writeList s.mem (dbufAddr 0) _, ?_⟩
  exact Nat.mod_eq_of_lt hdec.scan_length_lt

/-! ### The round trip -/

/-- A decode over a built frame answers OK, and what may be consumed is the frame with its payload unescaped. -/
theorem exec_decode_build {i : Instr} {s : State} {p : List Byte} (hdec : DecodesRaw i s (build p).1)
    (hmin : 1 ≤ p.length) :
    ∃ u, exec i s = .next u ∧
      u.consumable = some ([0x02, BitVec.ofNat 8 p.length] ++ p ++ [(build p).2, 0x03]) ∧
      u.dlen.toNat = p.length + 4 ∧ u.dstat = 0x100 ∧
      u.result = some (resultWord .ok (BitVec.ofNat 16 (p.length + 4))) := by
  have hlen : (scan (build p).1).1.length = p.length + 4 := by simp [scan_build]
  have hlt := hdec.scan_length_lt
  have hexec := exec_decode hdec
  rw [decodeUpdate_of_ok (validate_build p hmin), hlen] at hexec
  refine ⟨_, hexec, ?_, (s.commit_dlen_toNat hlt).trans hlen, rfl, rfl⟩
  rw [State.consumable_commit s rfl hlt, scan_build]
  simp [Config.startMarker, Config.endMarker]

theorem exec_enc_wire {s : State} {p : List Byte} (hfatal : s.fatal = false) (hplen : s.plen ≠ 0)
    (hp : s.payload? = some p) :
    ∃ t, exec .enc s = .next t ∧ t.csumR = (build p).2 ∧ t.wire? = some (build p).1 := by
  refine ⟨_, exec_enc_ok hfatal hplen hp, rfl, ?_⟩
  rw [State.wire?, State.putResult_wlen, wlen_build hp]
  exact Memory.readList_writeList s.mem (wbufAddr 0) (build p).1

/-- Settles O23. The frame that ENC wrote is what DECW reads. -/
theorem encodeThenDecode : Obligations.EncodeThenDecode := by
  unfold Obligations.EncodeThenDecode
  intro s p hfatal hplen hp
  have hlen : BitVec.ofNat 8 p.length = s.plen := by
    rw [State.payload?_length hp, BitVec.ofNat_toNat, BitVec.setWidth_eq]
  obtain ⟨t, hexec, hcsum, hwire⟩ := exec_enc_wire hfatal hplen hp
  obtain ⟨u, hdecode, hcons, hdlen, hdstat, hresult⟩ :=
    exec_decode_build (i := .decw) (.inl ⟨rfl, hwire⟩) (State.payload?_pos hplen hp)
  exact ⟨t, u, hexec, hdecode, by rwa [hcsum, ← hlen], hdlen, hdstat, hresult⟩

/-- Settles O39. After the last byte of the frame the channel is DONE and its buffer is the frame. -/
theorem receivedFrameDecodes : Obligations.ReceivedFrameDecodes := by
  unfold Obligations.ReceivedFrameDecodes
  intro s c ch p hinv hch hact hempty hmin hmax
  obtain ⟨-, t, ch', hrun, hch', hdone, -, hraw⟩ := receiverAgreesWithTheCodec s c ch p hinv hch hact hempty hmin hmax
  have hdec : DecodesRaw (.decr c) t (build p).1 := .inr ⟨c, ch', rfl, hch', by simp [hdone], hraw⟩
  obtain ⟨u, hexec, hcons, -, -, hresult⟩ := exec_decode_build hdec hmin
  exact ⟨u, execAll_append_next.mpr ⟨t, hrun, execAll_cons_next.mpr ⟨u, hexec, rfl⟩⟩, hresult, hcons⟩

end Sys2Proof.Machine
end

section
/-! The invariant (10_state.md sections 4 and 5, 20_memory.md section 1): it holds at reset, every effect keeps each of its clauses, and
so does every step. -/

namespace Sys2Proof.Machine

/-! ### What the invariant depends on -/

theorem State.hasByte_congr {s t : State} (hlen : t.chans.length = s.chans.length) (hcap : t.bufCap = s.bufCap) (a : Nat) :
    t.hasByte a = s.hasByte a := by
  simp only [State.hasByte, hlen, hcap]

/-- A channel's clauses speak of BUF_CAP and of the channel's own RBUF alone. -/
theorem State.ChannelInv.of_reads {s t : State} {c : Nibble} {ch : Channel} (h : s.ChannelInv c ch)
    (hcap : t.bufCap = s.bufCap)
    (hbuf : ∀ k, k < 65536 → Memory.read t.mem (rbufAddr c.toNat k) = Memory.read s.mem (rbufAddr c.toNat k)) :
    t.ChannelInv c ch := by
  have hraw : t.raw? c ch = s.raw? c ch := by
    refine Memory.readList_congr _ _ fun k hk => ?_
    rw [rbufAddr, spaceAddr_zero_add]
    exact hbuf k (hk.trans ch.rxCnt.isLt)
  exact { h with cntLe := hcap ▸ h.cntLe, readable := hraw ▸ h.readable }

/-- The decode registers speak of DBUF below DLEN. -/
theorem State.DecodeRegs.of_reads {s t : State} (h : s.DecodeRegs)
    (hsame : t.dlen = s.dlen ∧ t.dstat = s.dstat ∧ t.dfield = s.dfield)
    (hbuf : ∀ k, k < 65536 → Memory.read t.mem (dbufAddr k) = Memory.read s.mem (dbufAddr k)) : t.DecodeRegs := by
  obtain ⟨hdlen, hdstat, hdfield⟩ := hsame
  have hdec : t.decoded? = s.decoded? := by
    rw [State.decoded?, State.decoded?, hdlen]
    refine Memory.readList_congr _ _ fun k hk => ?_
    rw [dbufAddr, spaceAddr_zero_add]
    exact hbuf k (hk.trans s.dlen.isLt)
  rwa [State.DecodeRegs, hdec, hdlen, hdstat, hdfield]

/-- The invariant does not speak of PLEN, CSUM_R, FATAL, the result port, what waits at the ports or the schedule. -/
theorem State.Inv.of_same {s t : State} (hinv : s.Inv) (hmem : t.mem = s.mem) (hchans : t.chans = s.chans)
    (hcap : t.bufCap = s.bufCap) (htrans : t.transports.length = s.transports.length) (hwlen : t.wlen = s.wlen)
    (hsame : t.dlen = s.dlen ∧ t.dstat = s.dstat ∧ t.dfield = s.dfield) : t.Inv where
  memWf := hmem ▸ hinv.memWf
  memExists cell hcell := (State.hasByte_congr (congrArg _ hchans) hcap _).trans (hinv.memExists cell (hmem ▸ hcell))
  params := by rw [hchans, hcap]; exact hinv.params
  transports := by rw [htrans, hchans]; exact hinv.transports
  wlenLe := hwlen ▸ hinv.wlenLe
  dlenLe := by rw [hsame.1, hcap]; exact hinv.dlenLe
  decodeRegs := hinv.decodeRegs.of_reads hsame fun _ _ => by rw [hmem]
  channels c ch hch := by
    have hch' : s.chan? c = some ch := by rwa [State.chan?, hchans] at hch
    exact (hinv.channels c ch hch').of_reads hcap fun _ _ => by rw [hmem]

/-! ### Reset -/

theorem State.channelInv_reset (s : State) (c : Nibble) : s.ChannelInv c Channel.reset where
  cntLe := Nat.zero_le _
  readable := ⟨[], rfl⟩
  readEnd := by decide
  attempts := by decide
  timeout := by decide
  escape := by decide
  emptyEsc := by decide
  hint := by decide
  idle := by decide

theorem State.inv_powerOn {n : Nat} {cap : Half} (h : Config.legalParams n cap.toNat = true) :
    (State.powerOn n cap).Inv where
  memWf := rfl
  memExists cell hcell := by cases hcell
  params := by rw [State.powerOn, List.length_replicate]; exact h
  transports := by simp only [State.powerOn, List.length_replicate]
  wlenLe := by simp [State.powerOn]
  dlenLe := Nat.zero_le _
  decodeRegs := .inr ⟨.inr (.inr (.inr rfl)), rfl, rfl⟩
  channels c ch hch := by
    simp only [State.chan?, State.powerOn, List.getElem?_replicate] at hch
    split_ifs at hch
    cases hch
    exact State.channelInv_reset _ c

/-- Settles O53. -/
theorem invariantHoldsAtReset : Obligations.InvariantHoldsAtReset := by
  unfold Obligations.InvariantHoldsAtReset
  exact ⟨fun _ _ h => State.inv_powerOn h, State.inv_powerOn (by decide)⟩

theorem State.Inv.resetBlock {s : State} (hinv : s.Inv) : s.resetBlock.Inv :=
  (State.inv_powerOn hinv.params).of_same rfl rfl rfl (by simp [State.powerOn, hinv.transports]) rfl ⟨rfl, rfl, rfl⟩

/-! ### Bytes that exist -/

theorem State.hasByte_pbuf (s : State) {k : Nat} (hk : k < 255) : s.hasByte (pbufAddr k) = true := by
  have hspace : pbufAddr k / 65536 = 0 ∧ pbufAddr k % 65536 = k := by simp only [pbufAddr, spaceAddr]; omega
  simp [State.hasByte, hspace, Config.pbufCap, hk]

theorem State.hasByte_wbuf (s : State) {k : Nat} (hk : k < 515) : s.hasByte (wbufAddr k) = true := by
  have hspace : wbufAddr k / 65536 = 1 ∧ wbufAddr k % 65536 = k := by simp only [wbufAddr, spaceAddr]; omega
  simp [State.hasByte, hspace, Config.wbufCap, hk]

theorem State.hasByte_dbuf (s : State) {k : Nat} (hk : k < s.bufCap.toNat) : s.hasByte (dbufAddr k) = true := by
  have hlt := s.bufCap.isLt
  have hspace : dbufAddr k / 65536 = 2 ∧ dbufAddr k % 65536 = k := by simp only [dbufAddr, spaceAddr]; omega
  simp [State.hasByte, hspace, hk]

theorem State.hasByte_rbuf (s : State) {c : Nibble} {k : Nat} (hc : c.toNat < s.chans.length)
    (hk : k < s.bufCap.toNat) : s.hasByte (rbufAddr c.toNat k) = true := by
  have hlt := s.bufCap.isLt
  have hspace : rbufAddr c.toNat k / 65536 = 8 + c.toNat ∧ rbufAddr c.toNat k % 65536 = k := by
    simp only [rbufAddr, spaceAddr]; omega
  simp [State.hasByte, hspace, hk, hc]

/-- The raw bytes of a decode are no more than DBUF holds (40_codec.md R405). -/
theorem State.Inv.raw_length_le {s : State} (hinv : s.Inv) {i : Instr} {raw : List Byte} (h : DecodesRaw i s raw) :
    raw.length ≤ s.bufCap.toNat := by
  rcases h with ⟨-, hraw⟩ | ⟨c, ch, -, hch, -, hraw⟩
  · have := ((Memory.readList_eq_some _ _ _ _).mp hraw).1
    have := hinv.wlenLe
    have := hinv.bufCap_ge
    simp only [Config.wbufCap] at *
    omega
  · rw [State.raw?_length hraw]
    exact (hinv.channels c ch hch).cntLe

theorem State.Inv.decoded_length_le {s : State} (hinv : s.Inv) {i : Instr} {raw : List Byte} (h : DecodesRaw i s raw) :
    (decodeUpdate raw).bytes.length ≤ s.bufCap.toNat :=
  (decodeUpdate_length_le raw).trans (hinv.raw_length_le h)

/-- An accepted byte is stored in range (41_receiver.md R454). -/
theorem State.Inv.slot_lt {s : State} (hinv : s.Inv) {c : Nibble} {ch : Channel} (hch : s.chan? c = some ch) (st : Bool)
    (b : Byte) : ch.slot s.bufCap st b < s.bufCap.toNat := by
  have hle := (hinv.channels c ch hch).cntLe
  have hcap := hinv.bufCap_ge
  rcases ch.received_cases s.bufCap st b with ⟨h, -⟩ | ⟨h, -⟩ | ⟨h, hroom, -⟩ <;> rw [h]
  · omega
  · omega
  · have : ch.rxCnt.toNat ≠ s.bufCap.toNat := fun heq => hroom (BitVec.eq_of_toNat_eq heq)
    omega

/-! ### The clauses about memory and lengths -/

theorem Memory.mem_writeList_cases {m : Memory} {a : Nat} {bs : List Byte} {d : Host.Cell}
    (h : d ∈ Memory.writeList m a bs) : d ∈ m ∨ ∃ k, k < bs.length ∧ d.1 = a + k :=
  (Memory.mem_writeList h).imp_right fun ⟨_, _⟩ => ⟨d.1 - a, by omega, by omega⟩

section
variable {s t : State} {i : Instr} (h : s.Effect i t) (hinv : s.Inv)
include h hinv

theorem State.Effect.memWf : Memory.wf t.mem = true := by
  cases h with
  | encoded | decoded => exact Memory.wf_writeList hinv.memWf _ _
  | received | storedP | storedW => exact Memory.wf_write hinv.memWf _ _
  | cleared => rfl
  | _ => exact hinv.memWf

theorem State.Effect.memExists : ∀ cell, cell ∈ t.mem → t.hasByte cell.1 = true := by
  intro cell hcell
  rw [State.hasByte_congr h.chans_length h.bufCap_eq]
  cases h with
  | encoded hp hpos =>
    rcases Memory.mem_writeList_cases hcell with hold | ⟨k, hk, haddr⟩
    · exact hinv.memExists cell hold
    · rw [haddr, wbufAddr, spaceAddr_zero_add]
      exact s.hasByte_wbuf (hk.trans_le (build_length_le hp))
  | decoded hraw =>
    rcases Memory.mem_writeList_cases hcell with hold | ⟨k, hk, haddr⟩
    · exact hinv.memExists cell hold
    · rw [haddr, dbufAddr, spaceAddr_zero_add]
      exact s.hasByte_dbuf (hk.trans_le (hinv.decoded_length_le hraw))
  | received b hch hact hst =>
    rcases Memory.mem_write hcell with rfl | hold
    · exact s.hasByte_rbuf (State.chan?_lt hch) (hinv.slot_lt hch _ b)
    · exact hinv.memExists cell hold
  | storedP b hidx =>
    rcases Memory.mem_write hcell with rfl | hold
    · exact s.hasByte_pbuf hidx
    · exact hinv.memExists cell hold
  | storedW b hidx =>
    rcases Memory.mem_write hcell with rfl | hold
    · exact s.hasByte_wbuf hidx
    · exact hinv.memExists cell hold
  | cleared => cases hcell
  | _ => exact hinv.memExists cell hcell

theorem State.Effect.transports_length : t.transports.length = t.chans.length := by
  rw [h.chans_length, ← hinv.transports]
  cases h with
  | _ => rfl

theorem State.Effect.wlenLe : t.wlen.toNat ≤ Config.wbufCap := by
  cases h with
  | encoded hp hpos => exact (wlen_build hp).trans_le (build_length_le hp)
  | wlenSet c hv => rw [BitVec.toNat_setWidth]; exact (Nat.mod_le _ _).trans hv
  | cleared => exact Nat.zero_le _
  | _ => exact hinv.wlenLe

theorem State.Effect.dlenLe : t.dlen.toNat ≤ t.bufCap.toNat := by
  cases h with
  | decoded hraw =>
    rw [State.commit_dlen_toNat s ((decodeUpdate_length_le _).trans_lt hraw.length_lt)]
    exact hinv.decoded_length_le hraw
  | cleared => exact Nat.zero_le _
  | _ => exact hinv.dlenLe

end

/-! ### The decode registers -/

/-- A scan that met an end marker keeps it last (40_codec.md R403). -/
theorem scanFrom_last {st : Bool} {k j : Nat} {e : Bool} {raw : List Byte} (h : (scanFrom st k e raw).2 = some j) :
    ∃ kept, (scanFrom st k e raw).1 = kept ++ [Config.endMarker] := by
  obtain ⟨a, b, rest, rfl, rfl, hnone, hend⟩ := scanFrom_eq_some h
  obtain ⟨rfl, -⟩ := cls_endMark hend
  exact ⟨_, by rw [scanFrom_append st a _ hnone, scanFrom_cons_endMark rest hend]⟩

/-- The scan keeps a start marker that comes first. -/
theorem scan_first {raw : List Byte} (h : raw.head? = some Config.startMarker) :
    (scan raw).1[0]? = some Config.startMarker := by
  cases raw with
  | nil => cases h
  | cons b rest =>
    obtain rfl : b = Config.startMarker := Option.some.inj h
    rw [scan, scanFrom_cons_kept rest (by simp [cls_start]) (by simp [cls_start])]
    rfl

theorem frameChecked_of_validate {raw : List Byte} (hok : validate raw = .ok) : FrameChecked (scan raw).1 := by
  obtain ⟨hlong, hhead, hend, hsum⟩ := validate_eq_ok.mp hok
  refine ⟨hlong, scan_first hhead, ?_, hsum⟩
  obtain ⟨kept, hkept⟩ := scanFrom_last hend
  rw [scan, hkept]
  simp

theorem decodeRegs_commit {s : State} {raw : List Byte} (hlt : (decodeUpdate raw).bytes.length < 65536) :
    (s.commit (decodeUpdate raw)).DecodeRegs := by
  by_cases hok : validate raw = .ok
  · have hdec := s.decoded?_commit hlt
    rw [decodeUpdate_of_ok hok] at hdec ⊢
    exact .inl ⟨rfl, _, hdec, frameChecked_of_validate hok, rfl⟩
  · rw [decodeUpdate_of_fail hok]
    refine .inr ⟨?_, rfl, rfl⟩
    rcases validate_cases raw with h | h | h | h
    · exact absurd h hok
    · exact .inl (congrArg dstatOf h)
    · exact .inr (.inr (.inl (congrArg dstatOf h)))
    · exact .inr (.inl (congrArg dstatOf h))

/-- An operation other than DECW, DECR and RESET leaves DBUF alone. -/
theorem State.Effect.read_dbuf {s t : State} {i : Instr} (h : s.Effect i t) (hreset : i ≠ .reset)
    (hdec : ¬(i = .decw ∨ ∃ c, i = .decr c)) (k : Nat) (hk : k < 65536) :
    Memory.read t.mem (dbufAddr k) = Memory.read s.mem (dbufAddr k) :=
  (h.byte_writers _).resolve_right fun hw => hdec ((hw.resolve_left hreset).dbuf hk)

theorem State.Effect.decodeRegs {s t : State} {i : Instr} (h : s.Effect i t) (hinv : s.Inv) : t.DecodeRegs := by
  cases h with
  | decoded hraw => exact decodeRegs_commit ((decodeUpdate_length_le _).trans_lt hraw.length_lt)
  | cleared => exact hinv.resetBlock.decodeRegs
  | encoded hp hpos =>
    refine hinv.decodeRegs.of_reads ?_ ((State.Effect.encoded hp hpos).read_dbuf nofun (by simp))
    exact ⟨rfl, rfl, rfl⟩
  | received b hch hact hst =>
    exact hinv.decodeRegs.of_reads ⟨rfl, rfl, rfl⟩ ((State.Effect.received b hch hact hst).read_dbuf nofun (by simp))
  | storedP b hidx =>
    exact hinv.decodeRegs.of_reads ⟨rfl, rfl, rfl⟩ ((State.Effect.storedP b hidx).read_dbuf nofun (by simp))
  | storedW b hidx =>
    exact hinv.decodeRegs.of_reads ⟨rfl, rfl, rfl⟩ ((State.Effect.storedW b hidx).read_dbuf nofun (by simp))
  | _ => exact hinv.decodeRegs.of_reads ⟨rfl, rfl, rfl⟩ fun _ _ => rfl

/-! ### The channels -/

/-- A fresh read is legal whatever went before it (41_receiver.md R452). -/
theorem State.channelInv_beginRead (s : State) (c : Nibble) (ch : Channel) : s.ChannelInv c ch.beginRead where
  cntLe := Nat.zero_le _
  readable := ⟨[], rfl⟩
  readEnd := by simp only [Channel.beginRead_readEnd, Channel.beginRead_phase]; split_ifs <;> simp
  attempts := by
    simp only [Channel.beginRead_phase, Channel.beginRead_rxAtt]
    split_ifs with hzero
    · exact nofun
    · exact fun _ => hzero
  timeout := by
    simp only [Channel.beginRead_readEnd, Channel.beginRead_rxAtt]; split_ifs with hzero <;> simp [hzero]
  escape := by simp
  emptyEsc := fun _ => rfl
  hint := by simp
  idle := fun _ => rfl

section
variable {s : State} {c : Nibble} {ch : Channel} (h : s.ChannelInv c ch)
include h

/-- The configuration is in no clause. -/
theorem State.ChannelInv.setConfig (hint natt : Half) : s.ChannelInv c { ch with hintCfg := hint, nattCfg := natt } :=
  { h with }

theorem State.ChannelInv.active_readEnd (hact : ch.phase = .active) : ch.readEnd = .none :=
  h.readEnd.mpr (by simp [hact])

theorem State.ChannelInv.active_fHint (hact : ch.phase = .active) : ch.fHint = false := by
  by_contra hne
  have := h.hint (by simpa using hne)
  rw [h.active_readEnd hact] at this
  cases this

theorem State.ChannelInv.emptyRead (hact : ch.phase = .active) : s.ChannelInv c ch.emptyRead := by
  rcases ch.emptyRead_phase_cases with ⟨-, heq⟩ | ⟨hmore, heq⟩ <;> rw [heq]
  · exact { h with
      readEnd := by simp
      attempts := nofun
      timeout := fun _ => rfl
      escape := fun _ => .inr ⟨rfl, rfl⟩
      hint := fun hh => by simp [h.active_fHint hact] at hh
      idle := nofun }
  · exact { h with
      attempts := fun _ => by show ch.rxAtt - 1 ≠ 0; bv_omega
      timeout := fun hto => by
        have hto : ch.readEnd = .timeout := hto
        simp [h.active_readEnd hact] at hto }

/-- An overflowing buffer is an empty one (41_receiver.md R454). -/
theorem State.ChannelInv.overflowed : s.ChannelInv c ch.overflowed :=
  { h with
    cntLe := Nat.zero_le _
    readable := ⟨[], rfl⟩
    escape := nofun
    emptyEsc := fun _ => rfl
    idle := fun _ => rfl }

end

/-- A resync leaves the start marker alone in the buffer (41_receiver.md R453). -/
theorem State.ChannelInv.resynced {s : State} {c : Nibble} {ch : Channel} (h : s.ChannelInv c ch)
    (hact : ch.phase = .active) (hcap : 515 ≤ s.bufCap.toNat) (b : Byte) :
    (s.putMem (Memory.write s.mem (rbufAddr c.toNat 0) b)).ChannelInv c ch.resynced :=
  { h with
    cntLe := (by decide : 1 ≤ 515).trans hcap
    readable := ⟨[b], Memory.readList_writeList s.mem (rbufAddr c.toNat 0) [b]⟩
    escape := nofun
    emptyEsc := nofun
    idle := fun hidle => by
      have hidle : ch.phase = .idle := hidle
      simp [hact] at hidle }

/-- A byte that is appended (41_receiver.md R455). -/
theorem State.ChannelInv.appended {s : State} {c : Nibble} {ch : Channel} (h : s.ChannelInv c ch)
    (hact : ch.phase = .active) (hroom : ch.rxCnt.toNat < s.bufCap.toNat) (k : Nat) (st : Bool) (b : Byte) :
    (s.putMem (Memory.write s.mem (rbufAddr c.toNat ch.rxCnt.toNat) b)).ChannelInv c
      (ch.appended (cls k st ch.esc b)) := by
  obtain ⟨raw, hraw⟩ := h.readable
  have hheld := State.raw?_rxAppend st b hroom hraw (cls k st ch.esc b)
  have hcnt : (ch.rxCnt + 1).toNat = ch.rxCnt.toNat + 1 := by
    have := s.bufCap.isLt
    bv_omega
  have hne : ch.rxCnt + 1 ≠ 0 := fun hz => by rw [hz] at hcnt; cases hcnt
  have hle : (ch.appended (cls k st ch.esc b)).rxCnt.toNat ≤ s.bufCap.toNat := by
    rw [Channel.appended_rxCnt, hcnt]; exact hroom
  by_cases hend : cls k st ch.esc b = .endMark
  · rw [hend] at hheld hle ⊢
    obtain ⟨-, hesc, -⟩ := cls_endMark hend
    exact
      { cntLe := hle
        readable := ⟨_, hheld⟩
        readEnd := by simp [Channel.appended_endMark_phase, Channel.appended_endMark_readEnd]
        attempts := nofun
        timeout := nofun
        escape := fun hesc' => by
          have hesc' : ch.esc = true := hesc'
          simp [hesc] at hesc'
        emptyEsc := fun _ => hesc
        hint := fun _ => rfl
        idle := nofun }
  · rw [Channel.appended_of_ne hend] at hheld hle ⊢
    exact { h with
      cntLe := hle
      readable := ⟨_, hheld⟩
      escape := fun _ => .inl hact
      emptyEsc := fun hz => absurd hz hne
      idle := fun hidle => by
        have hidle : ch.phase = .idle := hidle
        simp [hact] at hidle }

theorem State.ChannelInv.received {s : State} {c : Nibble} {ch : Channel} (h : s.ChannelInv c ch)
    (hact : ch.phase = .active) (hcap : 515 ≤ s.bufCap.toNat) (st : Bool) (b : Byte) :
    (s.putMem (Memory.write s.mem (rbufAddr c.toNat (ch.slot s.bufCap st b)) b)).ChannelInv c
      (ch.received s.bufCap st b) := by
  rcases ch.received_cases s.bufCap st b with ⟨hslot, heq⟩ | ⟨hslot, hfull, heq⟩ | ⟨hslot, hroom, heq⟩ <;> rw [hslot, heq]
  · exact h.resynced hact hcap b
  · exact h.overflowed.appended hact ((by decide : 0 < 515).trans_le hcap) 0 false b
  · have hne : ch.rxCnt.toNat ≠ s.bufCap.toNat := fun hsame => hroom (BitVec.eq_of_toNat_eq hsame)
    exact h.appended hact (lt_of_le_of_ne h.cntLe hne) _ st b

/-- Replacing one channel by a legal one leaves every channel legal. -/
theorem State.channelInv_putChan {s : State} {c : Nibble} {x : Channel} (hx : s.ChannelInv c x)
    (hothers : ∀ d ch, d ≠ c → s.chan? d = some ch → s.ChannelInv d ch) {d : Nibble} {ch : Channel}
    (hch : (s.putChan c x).chan? d = some ch) : (s.putChan c x).ChannelInv d ch := by
  rcases State.chan?_putChan hch with ⟨rfl, rfl⟩ | ⟨hd, hsame⟩
  · exact hx.of_reads rfl fun _ _ => rfl
  · exact (hothers d ch hd hsame).of_reads rfl fun _ _ => rfl

/-- An operation other than RXB and RESET leaves every RBUF alone. -/
theorem State.Effect.read_rbuf {s t : State} {i : Instr} (h : s.Effect i t) (hreset : i ≠ .reset)
    (hrxb : ∀ c b, i ≠ .rxb c b) (c : Nibble) (k : Nat) (hk : k < 65536) :
    Memory.read t.mem (rbufAddr c.toNat k) = Memory.read s.mem (rbufAddr c.toNat k) :=
  (h.byte_writers _).resolve_right fun hw =>
    ((hw.resolve_left hreset).rbuf hk).elim fun b hi => hrxb c b hi

theorem State.Effect.channels {s t : State} {i : Instr} (h : s.Effect i t) (hinv : s.Inv) :
    ∀ c ch, t.chan? c = some ch → t.ChannelInv c ch := by
  intro c ch hch
  have hother : ∀ d e ch, e ≠ d → s.chan? e = some ch → s.ChannelInv e ch := fun _ e ch _ => hinv.channels e ch
  cases h with
  | decoded hraw =>
    refine (hinv.channels c ch hch).of_reads rfl ((State.Effect.decoded hraw).read_rbuf ?_ ?_ c)
    all_goals rcases hraw.instr with rfl | ⟨d, rfl⟩ <;> simp
  | encoded hp hpos =>
    exact (hinv.channels c ch hch).of_reads rfl ((State.Effect.encoded hp hpos).read_rbuf nofun nofun c)
  | storedP b hidx =>
    exact (hinv.channels c ch hch).of_reads rfl ((State.Effect.storedP b hidx).read_rbuf nofun nofun c)
  | storedW b hidx =>
    exact (hinv.channels c ch hch).of_reads rfl ((State.Effect.storedW b hidx).read_rbuf nofun nofun c)
  | begun hd hact =>
    exact (State.channelInv_putChan (s.channelInv_beginRead _ _) (hother _) hch).of_reads rfl fun _ _ => rfl
  | spent hd hact =>
    exact (State.channelInv_putChan ((hinv.channels _ _ hd).emptyRead hact) (hother _) hch).of_reads rfl fun _ _ => rfl
  | hintSet v hd =>
    exact (State.channelInv_putChan ((hinv.channels _ _ hd).setConfig v _) (hother _) hch).of_reads rfl fun _ _ => rfl
  | nattSet v hd =>
    exact (State.channelInv_putChan ((hinv.channels _ _ hd).setConfig _ v) (hother _) hch).of_reads rfl fun _ _ => rfl
  | received b hd hact hst =>
    refine (State.channelInv_putChan ((hinv.channels _ _ hd).received hact hinv.bufCap_ge _ b) ?_ hch).of_reads rfl
      fun _ _ => rfl
    intro e ch' he hch'
    exact (hinv.channels e ch' hch').of_reads rfl fun k hk =>
      Memory.read_write_ne _ _ (rbufAddr_ne he hk (Channel.slot_lt _ _ _ _))
  | cleared => exact (hinv.resetBlock.channels c ch hch).of_reads rfl fun _ _ => rfl
  | _ => exact (hinv.channels c ch hch).of_reads rfl fun _ _ => rfl

/-! ### Every operation and every step -/

theorem State.Inv.after_exec {s t : State} (hinv : s.Inv) {i : Instr} (hexec : exec i s = .next t) : t.Inv :=
  have h := exec_effect hexec
  { memWf := h.memWf hinv
    memExists := h.memExists hinv
    params := by rw [h.chans_length, h.bufCap_eq]; exact hinv.params
    transports := h.transports_length hinv
    wlenLe := h.wlenLe hinv
    dlenLe := h.dlenLe hinv
    decodeRegs := h.decodeRegs hinv
    channels := h.channels hinv }

theorem State.Inv.after_execWord {s t : State} (hinv : s.Inv) {w : Word} (h : execWord w s = .next t) : t.Inv := by
  rcases execWord_next h with ⟨i, -, hexec⟩ | ⟨-, rfl⟩
  · exact hinv.after_exec hexec
  · exact hinv.of_same rfl rfl rfl rfl rfl ⟨rfl, rfl, rfl⟩

theorem State.retire_transports_length (a : Agent) (s : State) :
    (s.retire a).transports.length = s.transports.length := by
  unfold State.retire
  split
  · rfl
  · split
    · rfl
    · split_ifs <;> simp

theorem State.Inv.retire {s : State} (hinv : s.Inv) (a : Agent) : (s.retire a).Inv := by
  have hlen := s.retire_transports_length a
  rw [State.retire_block] at hlen ⊢
  exact hinv.of_same rfl rfl rfl hlen rfl ⟨rfl, rfl, rfl⟩

/-- Settles O54. -/
theorem invariantKeptByEveryStep : Obligations.InvariantKeptByEveryStep := by
  unfold Obligations.InvariantKeptByEveryStep
  intro s t hinv h
  rcases step_next h with ⟨-, rfl⟩ | ⟨-, -, rfl⟩ | ⟨-, -, -, -, rfl⟩ | ⟨a, -, w, u, -, -, hexec, rfl⟩
  · exact hinv.of_same rfl rfl rfl rfl rfl ⟨rfl, rfl, rfl⟩
  · exact hinv.resetBlock.of_same rfl rfl rfl rfl rfl ⟨rfl, rfl, rfl⟩
  · exact hinv.of_same rfl rfl rfl rfl rfl ⟨rfl, rfl, rfl⟩
  · exact ((hinv.after_execWord hexec).retire a).of_same rfl rfl rfl rfl rfl ⟨rfl, rfl, rfl⟩

end Sys2Proof.Machine
end

section
/-! The receiver (41_receiver.md R452 to R458): what RDSTART, RXB and RXE leave in a channel's registers and buffer, and a read with
a budget of N empty reads. -/

namespace Sys2Proof.Machine

/-! ### RDSTART -/

theorem exec_rdstart_ok {s : State} {c : Nibble} {ch : Channel} (hch : s.chan? c = some ch) (hact : ch.phase ≠ .active) :
    exec (.rdstart c) s = finish .ok 0 (s.putChan c ch.beginRead) := by
  simp only [exec, execRdstart, hch, if_neg hact]

/-- Settles O28. -/
theorem rdstartBeginsARead : Obligations.RdstartBeginsARead := by
  unfold Obligations.RdstartBeginsARead
  refine ⟨fun s c ch hch hact hbudget => ?_, fun s c ch hch hact hbudget => ?_⟩
  · rw [exec_rdstart_ok hch hact, Channel.beginRead, if_neg hbudget, if_neg hbudget]
    rfl
  · rw [exec_rdstart_ok hch hact, Channel.beginRead, if_pos hbudget, if_pos hbudget, hbudget]
    rfl

/-! ### RXE -/

/-- Settles O34. -/
theorem rxeSpendsOneAttempt : Obligations.RxeSpendsOneAttempt := by
  unfold Obligations.RxeSpendsOneAttempt
  refine ⟨fun s c ch hch hact hone => ?_, fun s c ch hch hact htwo => ?_⟩ <;> rw [exec_rxe_active hch hact]
  · rcases ch.emptyRead_phase_cases with ⟨-, h⟩ | ⟨hne, -⟩
    · rw [h]; rfl
    · exact absurd hone hne
  · rcases ch.emptyRead_phase_cases with ⟨hone, -⟩ | ⟨-, h⟩
    · simp [hone] at htwo
    · refine ⟨ch.rxAtt - 1, by bv_omega, ?_⟩
      rw [h]; rfl

/-! ### RXB -/

/-- The registers after a byte of class `cl` on an ACTIVE channel (41_receiver.md R455, R456). -/
theorem Channel.appended_eq {ch : Channel} (hact : ch.phase = .active) (cl : ByteClass) :
    ch.appended cl =
      { ch with
        rxCnt := ch.rxCnt + 1
        esc := if cl = .esc then true else if cl = .literal then false else ch.esc
        phase := if cl = .endMark then .done else .active
        readEnd := if cl = .endMark then .frame else ch.readEnd
        fHint := if cl = .endMark then decide (ch.rxCnt + 1 ≠ ch.rxHint) else ch.fHint } := by
  have hesc : escAfter cl ch.esc = if cl = .esc then true else if cl = .literal then false else ch.esc := by
    cases cl <;> rfl
  rw [← hesc]
  by_cases hend : cl = .endMark
  · simp [Channel.appended, Channel.completed, hintMismatch, hend, bne, Bool.beq_eq_decide_eq]
  · simp [Channel.appended_of_ne hend, hend, hact]

/-- Settles O33. -/
theorem rxbAppendsTheByte : Obligations.RxbAppendsTheByte := by
  unfold Obligations.RxbAppendsTheByte
  intro s c ch st b hch hact hroom hst hresync
  refine ⟨_, ?_, stores_write s.mem (rbufAddr c.toNat ch.rxCnt.toNat) b⟩
  have hcase : rxAccept c ch st b s = rxAppend c ch st b s :=
    (if_neg hresync).trans (if_neg hroom)
  rw [exec_rxb_active hch hact hst, hcase, rxAppend, Channel.appended_eq hact]
  rfl

/-- Classes at position 0 with no escape pending (40_codec.md R402). -/
theorem cls_zero_eq (b : Byte) :
    (cls 0 false false b = .endMark ↔ b = 0x03) ∧ (cls 0 false false b = .esc ↔ b = 0x10) ∧
    cls 0 false false b ≠ .literal := by
  revert b; decide

/-- Settles O32. -/
theorem rxbOverflowRecyclesTheBuffer : Obligations.RxbOverflowRecyclesTheBuffer := by
  unfold Obligations.RxbOverflowRecyclesTheBuffer
  intro s c ch st b hch hact hfull hst hresync
  refine ⟨_, ?_, stores_write s.mem (rbufAddr c.toNat 0) b⟩
  have hcase : rxAccept c ch st b s = rxAppend c ch.overflowed false b s :=
    (if_neg hresync).trans (if_pos hfull)
  obtain ⟨hend, hesc, hliteral⟩ := cls_zero_eq b
  have hregs : ch.overflowed.appended (cls 0 false false b) =
      { ch with
        rxCnt := 1, esc := decide (b = 0x10), fOvf := true
        phase := if b = 0x03 then .done else .active
        readEnd := if b = 0x03 then .frame else ch.readEnd
        fHint := if b = 0x03 then decide (ch.rxHint ≠ 1) else ch.fHint } := by
    rw [Channel.appended_eq (ch := ch.overflowed) hact]
    simp [hend, hesc, hliteral, Channel.overflowed, eq_comm]
  rw [exec_rxb_active hch hact hst, hcase, rxAppend]
  exact congrArg (fun x => finish .ok 0 ((s.putMem (Memory.write s.mem (rbufAddr c.toNat 0) b)).putChan c x)) hregs

theorem Channel.appended_flags (ch : Channel) (cl : ByteClass) :
    (ch.appended cl).fResync = ch.fResync ∧ (ch.appended cl).fOvf = ch.fOvf := by
  unfold Channel.appended
  split_ifs <;> exact ⟨rfl, rfl⟩

/-- Settles O37. A started buffer meets no resync. -/
theorem startedBufferIsNeverCleared : Obligations.StartedBufferIsNeverCleared := by
  unfold Obligations.StartedBufferIsNeverCleared
  intro s c ch b raw hch hact hroom hraw hfirst
  have hst : s.started? c ch = some true := by
    rw [State.started?_of_raw hraw, List.head?_eq_getElem?, hfirst]; rfl
  obtain ⟨hresync, hovf⟩ := ch.appended_flags (cls ch.rxCnt.toNat true ch.esc b)
  exact ⟨_, _, exec_rxb_append hch hact hst (by simp) hroom, State.chan?_putChan_same _ (State.chan?_lt hch),
    State.raw?_rxAppend true b hroom hraw _, hresync, hovf⟩

/-! ### Exactly N attempts -/

/-- Where a read with a budget of `n` stands after `k` empty reads (41_receiver.md R458): a byte completed it, or it goes on with
the rest of its budget, or the budget is spent. -/
def Channel.Session (ch : Channel) (n k : Nat) : Prop :=
  (ch.phase = .done ∧ ch.readEnd = .frame) ∨
  (k < n ∧ ch.phase = .active ∧ ch.rxAtt.toNat = n - k) ∨
  (n ≤ k ∧ ch.phase = .done ∧ ch.readEnd = .timeout ∧ ch.rxAtt = 0)

theorem Channel.session_beginRead (ch : Channel) : ch.beginRead.Session ch.nattCfg.toNat 0 := by
  by_cases hzero : ch.nattCfg = 0
  · exact .inr (.inr ⟨by simp [hzero], if_pos hzero, if_pos hzero, hzero⟩)
  · have hpos : ch.nattCfg.toNat ≠ 0 := fun h => hzero (BitVec.eq_of_toNat_eq h)
    exact .inr (.inl ⟨by omega, if_neg hzero, rfl⟩)

/-- An empty read spends one attempt. -/
theorem Channel.Session.emptyRead {ch : Channel} {n k : Nat} (h : ch.Session n k) (hact : ch.phase = .active) :
    ch.emptyRead.Session n (k + 1) := by
  rcases h with ⟨hdone, -⟩ | ⟨hk, -, hatt⟩ | ⟨-, hdone, -⟩
  · simp [hact] at hdone
  · rcases ch.emptyRead_phase_cases with ⟨hone, heq⟩ | ⟨hmore, heq⟩ <;> rw [heq]
    · rw [hone] at hatt
      exact .inr (.inr ⟨by simp at hatt; omega, rfl, rfl, rfl⟩)
    · have hmore' : ch.rxAtt.toNat ≠ 1 := fun h => hmore (BitVec.eq_of_toNat_eq h)
      exact .inr (.inl ⟨by omega, hact, by show (ch.rxAtt - 1).toNat = _; bv_omega⟩)
  · simp [hact] at hdone

/-- A byte completes the read or leaves its budget alone. -/
theorem Channel.Session.received {ch : Channel} {n k : Nat} (h : ch.Session n k) (hact : ch.phase = .active) (s : State)
    (st : Bool) (b : Byte) : (ch.received s.bufCap st b).Session n k := by
  rcases Channel.received_phase_cases s ch st b with ⟨-, hdone, hframe⟩ | ⟨hsame, -⟩
  · exact .inl ⟨hdone, hframe⟩
  · rcases h with ⟨hdone, -⟩ | ⟨hk, -, hatt⟩ | ⟨-, hdone, -⟩
    · simp [hact] at hdone
    · exact .inr (.inl ⟨hk, hsame.trans hact, by rw [(ch.received_frame _ st b).1, hatt]⟩)
    · simp [hact] at hdone

/-- Once the read is over, more empty reads change nothing. -/
theorem Channel.Session.of_not_active {ch : Channel} {n k j : Nat} (h : ch.Session n k) (hact : ch.phase ≠ .active)
    (hkj : k ≤ j) : ch.Session n j := by
  rcases h with hframe | ⟨-, hactive, -⟩ | ⟨hk, hend⟩
  · exact .inl hframe
  · exact absurd hactive hact
  · exact .inr (.inr ⟨hk.trans hkj, hend⟩)

/-- One event of the channel. -/
theorem State.Inv.exec_event_session {s : State} (hinv : s.Inv) {c : Nibble} {ch : Channel} (hch : s.chan? c = some ch)
    {n k : Nat} (h : ch.Session n k) (e : RxEvent) :
    ∃ t ch', exec (e.instr c) s = .next t ∧ t.chan? c = some ch' ∧ ch'.Session n (k + [e].count .empty) := by
  by_cases hact : ch.phase = .active
  · cases e with
    | empty =>
      exact ⟨_, _, exec_rxe_active hch hact, State.chan?_putChan_same _ (State.chan?_lt hch), h.emptyRead hact⟩
    | byte b =>
      obtain ⟨st, hst⟩ := hinv.started? hch
      refine ⟨_, ch.received s.bufCap st b, exec_rxb_active hch hact hst b, ?_, h.received hact s st b⟩
      rw [State.chan?_putResult, rxAccept_eq]
      exact State.chan?_putChan_same (s := s.putMem _) _ (State.chan?_lt hch)
  · exact ⟨_, ch, exec_event_notReady hch hact e, hch, h.of_not_active hact (Nat.le_add_right _ _)⟩

theorem State.Inv.execAll_events_session {es : List RxEvent} {s : State} (hinv : s.Inv) {c : Nibble} {ch : Channel}
    (hch : s.chan? c = some ch) {n k : Nat} (h : ch.Session n k) :
    ∃ t ch', execAll (es.map (RxEvent.instr c)) s = .next t ∧ t.chan? c = some ch' ∧ ch'.Session n (k + es.count .empty) := by
  induction es generalizing s ch k with
  | nil => exact ⟨s, ch, rfl, hch, h⟩
  | cons e es ih =>
    obtain ⟨u, ch₁, hexec, hch₁, h₁⟩ := hinv.exec_event_session hch h e
    obtain ⟨t, ch', hrun, hch', h'⟩ := ih (hinv.after_exec hexec) hch₁ h₁
    refine ⟨t, ch', execAll_cons_next.mpr ⟨u, hexec, hrun⟩, hch', ?_⟩
    rwa [← List.singleton_append, List.count_append, ← Nat.add_assoc]

/-- Settles O35. -/
theorem exactlyNAttempts : Obligations.ExactlyNAttempts := by
  unfold Obligations.ExactlyNAttempts
  intro s c ch es hinv hch hact
  have hstart := exec_rdstart_ok hch hact
  obtain ⟨t, ch', hrun, hch', h⟩ := (hinv.after_exec hstart).execAll_events_session (es := es)
    (State.chan?_putChan_same ch.beginRead (State.chan?_lt hch)) ch.session_beginRead
  rw [Nat.zero_add] at h
  refine ⟨t, ch', execAll_cons_next.mpr ⟨_, hstart, hrun⟩, hch', fun hframe => ?_⟩
  rcases h with ⟨-, hend⟩ | ⟨hfew, hactive, hatt⟩ | ⟨hall, hend⟩
  · exact absurd hend hframe
  · exact ⟨fun _ => ⟨hactive, hatt⟩, fun hge => absurd hfew (Nat.not_lt.mpr hge)⟩
  · exact ⟨fun hlt => absurd hall (Nat.not_le.mpr hlt), fun _ => hend⟩

end Sys2Proof.Machine
end

section
/-! The host's accesses (42_access.md R500 to R504): what MRD, MWR, RRD, RWR and RESET answer and change. -/

namespace Sys2Proof.Machine

/-! ### MRD and MWR -/

theorem exec_mrd_ok {s : State} {sp : Nibble} {idx : Half} {n : Nat} {v : Byte}
    (hlimit : s.readLimit (spaceOf sp) = some n) (hidx : idx.toNat < n)
    (hv : Memory.read s.mem (spaceAddr sp.toNat idx.toNat) = some v) :
    exec (.mrd sp idx) s = finish .ok (v.setWidth 16) s := by
  simp only [exec, execMrd, hlimit, if_neg (Nat.not_le.mpr hidx), hv]

/-- Settles O43. -/
theorem mrdReadsTheByte : Obligations.MrdReadsTheByte := by
  unfold Obligations.MrdReadsTheByte
  refine fun s idx v => ⟨fun hidx hv => exec_mrd_ok (n := Config.pbufCap) rfl hidx hv,
    fun hidx hv => exec_mrd_ok (n := Config.wbufCap) rfl hidx hv, fun hidx hv => exec_mrd_ok (sp := 2) rfl hidx hv,
    fun c sp ch hch hsp hidx hv => ?_⟩
  have hlimit : s.readLimit (spaceOf sp) = some ch.rxCnt.toNat := by rw [spaceOf_rbuf hsp, State.readLimit, hch]; rfl
  exact exec_mrd_ok hlimit hidx (by rwa [hsp])

theorem exec_mwr_ok {s : State} {sp : Nibble} {idx : Half} {n : Nat} (b : Byte)
    (hlimit : writeLimit (spaceOf sp) = some n) (hidx : idx.toNat < n) :
    exec (.mwr sp idx b) s = finish .ok 0 (s.putMem (Memory.write s.mem (spaceAddr sp.toNat idx.toNat) b)) := by
  simp only [exec, execMwr, hlimit, if_neg (Nat.not_le.mpr hidx)]

/-- Settles O44. -/
theorem mwrWritesOneByte : Obligations.MwrWritesOneByte := by
  unfold Obligations.MwrWritesOneByte
  exact fun s idx b => ⟨fun hidx => ⟨_, exec_mwr_ok (n := Config.pbufCap) b rfl hidx, stores_write s.mem (pbufAddr idx.toNat) b⟩,
    fun hidx => ⟨_, exec_mwr_ok (n := Config.wbufCap) b rfl hidx, stores_write s.mem (wbufAddr idx.toNat) b⟩⟩

/-- What MWR may write MRD may read (20_memory.md R200). -/
theorem access_limits {sp : Nibble} {idx : Half} (h : sp = 0 ∧ idx.toNat < 255 ∨ sp = 1 ∧ idx.toNat < 515) :
    ∃ n, writeLimit (spaceOf sp) = some n ∧ (∀ s : State, s.readLimit (spaceOf sp) = some n) ∧ idx.toNat < n := by
  rcases h with ⟨rfl, hidx⟩ | ⟨rfl, hidx⟩
  · exact ⟨Config.pbufCap, rfl, fun _ => rfl, hidx⟩
  · exact ⟨Config.wbufCap, rfl, fun _ => rfl, hidx⟩

/-- Settles O50. -/
theorem writeThenRead : Obligations.WriteThenRead := by
  unfold Obligations.WriteThenRead
  intro s sp sp' idx idx' b b' hloc hloc' hne
  obtain ⟨n, hwrite, hread, hidx⟩ := access_limits hloc
  obtain ⟨n', hwrite', -, hidx'⟩ := access_limits hloc'
  have haddr : spaceAddr sp.toNat idx.toNat ≠ spaceAddr sp'.toNat idx'.toNat := fun heq => by
    obtain ⟨hsp, hi⟩ := (spaceAddr_inj idx.isLt idx'.isLt).mp heq
    exact hne (Prod.ext (BitVec.eq_of_toNat_eq hsp) (BitVec.eq_of_toNat_eq hi))
  refine ⟨_, execAll_cons_next.mpr ⟨_, exec_mwr_ok b hwrite hidx, execAll_cons_next.mpr ⟨_, exec_mwr_ok b' hwrite' hidx',
    execAll_cons_next.mpr ⟨_, exec_mrd_ok (v := b) (hread _) hidx ?_, rfl⟩⟩⟩, rfl⟩
  exact (Memory.read_write_ne _ b' haddr).trans (Memory.read_write_same s.mem _ b)

/-! ### RRD -/

theorem exec_rrd_global (s : State) (r : GlobalReg) (c : Nibble) :
    exec (.rrd (RegName.global r).number c) s = finish .ok (s.globalValue r) s := by
  simp only [exec, execRrd, regOf_number]

theorem exec_rrd_chan {s : State} {c : Nibble} {ch : Channel} {r : ChanReg} {v : Half} (hch : s.chan? c = some ch)
    (hv : s.chanValue? c ch r = some v) : exec (.rrd (RegName.chan r).number c) s = finish .ok v s := by
  simp only [exec, execRrd, regOf_number, hch, hv]

theorem bit_eq_ite (b : Bool) : bit b = if b then 1 else 0 := by cases b <;> rfl

/-- Settles O45. -/
theorem rrdReadsTheRegister : Obligations.RrdReadsTheRegister := by
  unfold Obligations.RrdReadsTheRegister
  refine ⟨fun s c r v hr => ?_, fun s c ch r v hch hr => ?_⟩ <;>
    simp only [List.mem_cons, Prod.mk.injEq, List.not_mem_nil, or_false] at hr
  · rcases hr with ⟨rfl, rfl⟩ | ⟨rfl, rfl⟩ | ⟨rfl, rfl⟩ | ⟨rfl, rfl⟩ | ⟨rfl, rfl⟩ | ⟨rfl, rfl⟩ | ⟨rfl, rfl⟩ |
      ⟨rfl, rfl⟩ | ⟨rfl, rfl⟩
    · exact exec_rrd_global s .plen c
    · exact exec_rrd_global s .wlen c
    · exact exec_rrd_global s .dlen c
    · exact exec_rrd_global s .dstat c
    · exact exec_rrd_global s .dfield c
    · exact exec_rrd_global s .csumR c
    · rw [← bit_eq_ite]; exact exec_rrd_global s .fatal c
    · exact exec_rrd_global s .nch c
    · exact exec_rrd_global s .bufcap c
  · rcases hr with ⟨rfl, rfl⟩ | ⟨rfl, rfl⟩ | ⟨rfl, rfl⟩ | ⟨rfl, rfl⟩ | ⟨rfl, rfl⟩
    · exact exec_rrd_chan (r := .rxCnt) hch rfl
    · exact exec_rrd_chan (r := .rxAtt) hch rfl
    · exact exec_rrd_chan (r := .rxHint) hch rfl
    · exact exec_rrd_chan (r := .rxHintCfg) hch rfl
    · exact exec_rrd_chan (r := .rxNattCfg) hch rfl

/-! ### The layout of RX_STATE -/

theorem getLsbD_bit (b : Bool) (i : Nat) : (bit b).getLsbD i = (decide (i = 0) && b) := by
  cases b
  · simp [bit]
  · simp [bit, BitVec.getLsbD_one]

theorem getLsbD_eq_false_of_lt_four {x : Half} (hx : x.toNat < 2 ^ 2) {i : Nat} (hi : 2 ≤ i) : x.getLsbD i = false :=
  Nat.testBit_lt_two_pow (hx.trans_le (Nat.pow_le_pow_right (by decide) hi))

/-- The codes of ST and RC have two bits (10_state.md R116, R117). -/
theorem Phase.code_getLsbD (p : Phase) {i : Nat} (hi : 2 ≤ i) : p.code.getLsbD i = false :=
  getLsbD_eq_false_of_lt_four (by cases p <;> decide) hi

theorem ReadEnd.code_getLsbD (r : ReadEnd) {i : Nat} (hi : 2 ≤ i) : r.code.getLsbD i = false :=
  getLsbD_eq_false_of_lt_four (by cases r <;> decide) hi

/-- The fields of RX_STATE do not overlap: each bit is the bit of one field (10_state.md R115). -/
theorem rxStateValue_getLsbD (ch : Channel) (st : Bool) {i : Nat} (hi : i < 16) :
    (rxStateValue ch st).getLsbD i =
      (ch.phase.code.getLsbD i || !decide (i < 2) && ch.readEnd.code.getLsbD (i - 2) || decide (i = 4) && ch.esc ||
        decide (i = 5) && st || decide (i = 6) && ch.fHint || decide (i = 7) && ch.fOvf || decide (i = 8) && ch.fResync) := by
  have hshift : ∀ k, k < 16 → (!decide (i < k) && decide (i - k = 0)) = decide (i = k) := fun k _ => by
    rw [← decide_not, ← Bool.decide_and]
    exact decide_eq_decide.mpr (by omega)
  simp only [rxStateValue, BitVec.getLsbD_or, BitVec.getLsbD_shiftLeft, getLsbD_bit, hi, decide_true, Bool.true_and,
    ← Bool.and_assoc, hshift 4 (by decide), hshift 5 (by decide), hshift 6 (by decide), hshift 7 (by decide),
    hshift 8 (by decide)]

/-- The bits below 4 are those of ST and RC. -/
theorem rxStateValue_getLsbD_low (ch : Channel) (st : Bool) {i : Nat} (hi : i < 4) :
    (rxStateValue ch st).getLsbD i =
      (ch.phase.code.getLsbD i || !decide (i < 2) && ch.readEnd.code.getLsbD (i - 2)) := by
  rw [rxStateValue_getLsbD ch st (by omega)]
  simp [show i ≠ 4 by omega, show i ≠ 5 by omega, show i ≠ 6 by omega, show i ≠ 7 by omega, show i ≠ 8 by omega]

/-- The bits from 4 on are those of the flags. -/
theorem rxStateValue_getLsbD_high (ch : Channel) (st : Bool) {i : Nat} (hlo : 4 ≤ i) (hi : i < 16) :
    (rxStateValue ch st).getLsbD i =
      (decide (i = 4) && ch.esc || decide (i = 5) && st || decide (i = 6) && ch.fHint || decide (i = 7) && ch.fOvf ||
        decide (i = 8) && ch.fResync) := by
  rw [rxStateValue_getLsbD ch st hi, ch.phase.code_getLsbD (by omega), ch.readEnd.code_getLsbD (by omega), Bool.and_false,
    Bool.false_or, Bool.false_or]

theorem rxStateValue_phase (ch : Channel) (st : Bool) :
    (rxStateValue ch st).extractLsb' 0 2 = ch.phase.code.extractLsb' 0 2 := by
  refine BitVec.eq_of_getLsbD_eq fun i hi => ?_
  simp only [BitVec.getLsbD_extractLsb', Nat.zero_add, hi]
  rw [rxStateValue_getLsbD_low ch st (by omega)]
  simp [hi]

theorem rxStateValue_readEnd (ch : Channel) (st : Bool) :
    (rxStateValue ch st).extractLsb' 2 2 = ch.readEnd.code.extractLsb' 0 2 := by
  refine BitVec.eq_of_getLsbD_eq fun i hi => ?_
  simp only [BitVec.getLsbD_extractLsb', Nat.zero_add, hi]
  rw [rxStateValue_getLsbD_low ch st (by omega), ch.phase.code_getLsbD (by omega),
    decide_eq_false (by omega : ¬2 + i < 2)]
  simp

theorem rxStateValue_above (ch : Channel) (st : Bool) : (rxStateValue ch st).extractLsb' 9 7 = 0 := by
  refine BitVec.eq_of_getLsbD_eq fun i hi => ?_
  rw [BitVec.getLsbD_extractLsb', rxStateValue_getLsbD_high ch st (by omega) (by omega)]
  simp [show 9 + i ≠ 4 by omega, show 9 + i ≠ 5 by omega, show 9 + i ≠ 6 by omega, show 9 + i ≠ 7 by omega,
    show 9 + i ≠ 8 by omega]

/-- Settles O46. -/
theorem rxStateLayout : Obligations.RxStateLayout := by
  unfold Obligations.RxStateLayout
  refine ⟨fun s c ch st hch hst => ?_, fun s c ch hzero => if_pos hzero, fun s c ch x hcnt hx => ?_⟩
  · have hv : s.chanValue? c ch .rxState = some (rxStateValue ch st) := by rw [State.chanValue?, hst]; rfl
    refine ⟨_, exec_rrd_chan hch hv, ?_, ?_, ?_, ?_, ?_, ?_, ?_, rxStateValue_above ch st⟩
    · rw [rxStateValue_phase]
      cases ch.phase <;> rfl
    · rw [rxStateValue_readEnd]
      cases ch.readEnd <;> rfl
    all_goals
      rw [rxStateValue_getLsbD_high ch st (by decide) (by decide)]
      simp
  · rw [State.started?_of_read hcnt hx, Bool.beq_eq_decide_eq]
    rfl

/-! ### RWR and RESET -/

theorem exec_rwr_plen {s : State} {v : Half} (c : Nibble) (hv : v.toNat ≤ 255) :
    exec (.rwr (RegName.global .plen).number v c) s = finish .ok 0 { s with plen := v.setWidth 8 } :=
  (exec_rwr_global s .plen v c).trans (if_neg (Nat.not_lt.mpr hv))

theorem exec_rwr_wlen {s : State} {v : Half} (c : Nibble) (hv : v.toNat ≤ 515) :
    exec (.rwr (RegName.global .wlen).number v c) s = finish .ok 0 { s with wlen := v.setWidth 10 } :=
  (exec_rwr_global s .wlen v c).trans (if_neg (Nat.not_lt.mpr hv))

theorem exec_rwr_hintCfg {s : State} {c : Nibble} {ch : Channel} (v : Half) (hch : s.chan? c = some ch) :
    exec (.rwr (RegName.chan .rxHintCfg).number v c) s = finish .ok 0 (s.putChan c { ch with hintCfg := v }) := by
  rw [exec_rwr_chan, writeChanReg, hch]

theorem exec_rwr_nattCfg {s : State} {c : Nibble} {ch : Channel} (v : Half) (hch : s.chan? c = some ch) :
    exec (.rwr (RegName.chan .rxNattCfg).number v c) s = finish .ok 0 (s.putChan c { ch with nattCfg := v }) := by
  rw [exec_rwr_chan, writeChanReg, hch]

/-- Settles O47. -/
theorem rwrWritesTheRegister : Obligations.RwrWritesTheRegister := by
  unfold Obligations.RwrWritesTheRegister
  refine ⟨fun s v c hv => ⟨v.setWidth 8, ?_, exec_rwr_plen c hv⟩, fun s v c hv => ⟨v.setWidth 10, ?_, exec_rwr_wlen c hv⟩,
    fun s v c ch hch => ⟨exec_rwr_hintCfg v hch, exec_rwr_nattCfg v hch⟩⟩
  all_goals
    rw [BitVec.toNat_setWidth]
    omega

/-- Settles O48. -/
theorem resetOperation : Obligations.ResetOperation := by
  unfold Obligations.ResetOperation
  exact fun _ => rfl

/-- Settles O52. -/
theorem resetValues : Obligations.ResetValues := by
  unfold Obligations.ResetValues
  have hchan : ∀ c ch, State.reset.chan? c = some ch → ch = Channel.reset := fun c ch hch =>
    (State.chan?_resetBlock (s := State.reset) hch).1
  refine ⟨rfl, rfl, rfl, rfl, rfl, rfl, rfl, rfl, rfl, fun c ch hch => ?_, fun _ => rfl, fun sp idx hsp => ?_, by decide⟩
  · rw [hchan c ch hch]; decide
  · refine rangeErrorExactlyWhenOutOfRange.1 State.reset (.mrd sp idx) (outOfRange_mrd.mpr fun n hn => ?_)
    have hzero : n = 0 := by
      rcases spaceOf_cases sp with ⟨rfl, -⟩ | ⟨rfl, -⟩ | ⟨rfl, h⟩ | ⟨-, -, h⟩ | ⟨-, h, -⟩
      · exact absurd hsp (by decide)
      · exact absurd hsp (by decide)
      · rw [h] at hn; exact (Option.some.inj hn).symm
      · rw [h] at hn; cases hn
      · rw [h, State.readLimit, Option.map_eq_some_iff] at hn
        obtain ⟨ch, hch, rfl⟩ := hn
        rw [hchan _ ch hch]; rfl
    exact hzero ▸ Nat.zero_le _

/-! ### Reads have no side effect -/

theorem exec_mrd_putResult (sp : Nibble) (idx : Half) (s : State) (w : Word) :
    exec (.mrd sp idx) (s.putResult w) = exec (.mrd sp idx) s := rfl

theorem exec_rrd_putResult (reg : Byte) (c : Nibble) (s : State) (w : Word) :
    exec (.rrd reg c) (s.putResult w) = exec (.rrd reg c) s := rfl

/-- Whatever MRD and RRD do, they only place a result word. -/
theorem State.Effect.of_read {s t : State} {i : Instr} (h : s.Effect i t)
    (hi : (∃ sp idx, i = .mrd sp idx) ∨ ∃ r c, i = .rrd r c) : ∃ w, t = s.putResult w := by
  cases h with
  | refused | answered => exact ⟨_, rfl⟩
  | decoded hraw => rcases hraw.instr with rfl | ⟨c, rfl⟩ <;> simp at hi
  | _ => simp at hi

/-- Settles O49. -/
theorem readsHaveNoSideEffect : Obligations.ReadsHaveNoSideEffect := by
  unfold Obligations.ReadsHaveNoSideEffect
  intro i s t hi hexec
  obtain ⟨w, rfl⟩ := (exec_effect hexec).of_read hi
  have hagain : exec i (s.putResult w) = exec i s := by
    rcases hi with ⟨sp, idx, rfl⟩ | ⟨r, c, rfl⟩
    · exact exec_mrd_putResult sp idx s w
    · exact exec_rrd_putResult r c s w
  exact ⟨rfl, _, hagain.trans hexec, rfl⟩

end Sys2Proof.Machine
end

section
/-! Steps (60_exceptions.md R616, R630, R631; 70_reset_and_hazards.md R700): what a turn does, and from a state with the invariant when a
step can stop and what a decode leaves to be read. -/

namespace Sys2Proof.Machine

/-! ### Turns -/

theorem step_grant {s : State} {a : Agent} {rest : List Turn} {w : Word} (hturn : s.schedule = .grant a :: rest)
    (hoffer : s.offered a = some w) : step s = endTurn a (execWord w s) := by
  simp only [step, hturn, takeTurn, grantTurn, hoffer]

theorem execWord_of_decode {w : Word} {i : Instr} (h : decode w = .ok i) (s : State) : execWord w s = exec i s := by
  rw [execWord, h]

/-- Settles O9. -/
theorem stepRunsTheDecodedInstruction : Obligations.StepRunsTheDecodedInstruction := by
  unfold Obligations.StepRunsTheDecodedInstruction
  intro s a rest w i hturn hoffer hdec
  rw [step_grant hturn hoffer, execWord_of_decode hdec]
  exact ⟨fun t ht => by rw [ht]; rfl, fun f hf => by rw [hf]; rfl, fun r hr => by rw [hr]; rfl⟩

theorem execWord_outside {w : Word} {s t : State} (h : execWord w s = .next t) :
    t.hostQueue = s.hostQueue ∧ t.transports = s.transports ∧ t.schedule = s.schedule := by
  rcases execWord_next h with ⟨i, -, hexec⟩ | ⟨-, rfl⟩
  · exact operationsLeaveTheOutsideAlone i s t hexec
  · exact ⟨rfl, rfl, rfl⟩

/-- Settles O10. -/
theorem hostWordsRunInOrder : Obligations.HostWordsRunInOrder := by
  unfold Obligations.HostWordsRunInOrder
  intro s t rest w ws hturn hqueue hstep
  have hoffer : s.offered .host = some w := by rw [State.offered, hqueue]; rfl
  obtain ⟨u, hexec, rfl⟩ := endTurn_next.mp ((step_grant hturn hoffer).symm.trans hstep)
  obtain ⟨hhost, htrans, hsched⟩ := execWord_outside hexec
  have ht : (u.retire .host).nextTurn = { u with hostQueue := ws, schedule := rest } := by
    simp only [State.retire, State.nextTurn, hhost, hsched, hqueue, hturn, List.tail_cons]
  rw [ht]
  exact ⟨rfl, rfl, htrans, u, hexec, rfl⟩

/-- Settles O12. -/
theorem powerOnResetInput : Obligations.PowerOnResetInput := by
  unfold Obligations.PowerOnResetInput
  intro s rest hturn
  simp only [step, hturn, takeTurn, State.powerReset, State.idle, State.resetBlock, State.powerOn, State.nextTurn,
    List.tail_cons]

/-- Settles O13. -/
theorem stepWithoutAWordKeepsTheState : Obligations.StepWithoutAWordKeepsTheState := by
  unfold Obligations.StepWithoutAWordKeepsTheState
  refine ⟨fun s hturn => ?_, fun s a rest hturn hoffer => ?_⟩
  · simp only [step, hturn, State.idle]
  · simp only [step, hturn, takeTurn, grantTurn, hoffer, State.idle, State.nextTurn, List.tail_cons]

/-! ### What may be read after a decode -/

theorem State.DecodeRegs.of_dvalid {s : State} (h : s.DecodeRegs) (hvalid : s.dvalid = true) :
    s.dstat = dstatOf .ok ∧ ∃ de, s.decoded? = some de ∧ FrameChecked de := by
  rcases h with ⟨hok, de, hdec, hframe, -⟩ | ⟨hfail, -⟩
  · exact ⟨hok, de, hdec, hframe⟩
  · rw [State.dvalid] at hvalid
    rcases hfail with h | h | h | h <;> rw [h] at hvalid <;> exact absurd hvalid (by decide)

theorem State.DecodeRegs.of_not_dvalid {s : State} (h : s.DecodeRegs) (hvalid : s.dvalid = false) :
    s.dstatus ≠ 0x00 ∧ s.dlen = 0 := by
  rcases h with ⟨hok, -⟩ | ⟨hfail, hdlen, -⟩
  · rw [State.dvalid, hok] at hvalid
    exact absurd hvalid (by decide)
  · refine ⟨?_, hdlen⟩
    rw [State.dstatus]
    rcases hfail with h | h | h | h <;> rw [h] <;> decide

/-- Settles O56. -/
theorem failedDecodeIsUnreadable : Obligations.FailedDecodeIsUnreadable := by
  unfold Obligations.FailedDecodeIsUnreadable
  refine fun s hinv => ⟨fun hvalid => ?_, fun hvalid => ?_⟩
  · obtain ⟨hok, de, hdec, hframe⟩ := hinv.decodeRegs.of_dvalid hvalid
    refine ⟨?_, de, ?_, hframe⟩
    · rw [State.dstatus, hok]; decide
    · rw [State.consumable, if_pos hvalid, hdec]
  · obtain ⟨hstatus, hdlen⟩ := hinv.decodeRegs.of_not_dvalid hvalid
    refine ⟨hstatus, hdlen, if_neg (by simp [hvalid]), fun idx => ?_⟩
    exact rangeErrorExactlyWhenOutOfRange.1 s (.mrd 2 idx) (.inr (.inr (.inl ⟨rfl, by simp [hdlen]⟩)))

/-! ### When an operation stops -/

/-- The operation `i` answers a next state, or reads an UNDEF byte and faults. -/
def State.RunsOrReadsUndef (s : State) (i : Instr) : Prop :=
  (∃ t, exec i s = .next t) ∨ (exec i s = .fault .undefByte ∧ ReadsUndef s i)

theorem runsOrReadsUndef_enc (s : State) : s.RunsOrReadsUndef .enc := by
  by_cases hhalted : s.fatal = true
  · exact .inl ⟨_, exec_enc_halted hhalted⟩
  · have hfatal : s.fatal = false := Bool.eq_false_iff.mpr hhalted
    by_cases hplen : s.plen = 0
    · exact .inl ⟨_, exec_enc_empty hfatal hplen⟩
    · cases hp : s.payload? with
      | none => exact .inr ⟨exec_enc_undef hfatal hplen hp, hfatal, State.payload?_eq_none.mp hp⟩
      | some p => exact .inl ⟨_, exec_enc_ok hfatal hplen hp⟩

theorem runsOrReadsUndef_decw (s : State) : s.RunsOrReadsUndef .decw := by
  cases hw : s.wire? with
  | none => exact .inr ⟨exec_decw_undef hw, State.wire?_eq_none.mp hw⟩
  | some raw => exact .inl ⟨_, exec_decode (.inl ⟨rfl, hw⟩)⟩

theorem runsOrReadsUndef_csum (s : State) : s.RunsOrReadsUndef .csum := by
  cases hp : s.payload? with
  | none => exact .inr ⟨exec_csum_undef hp, State.payload?_eq_none.mp hp⟩
  | some p => exact .inl ⟨_, csumComputes.1 s p hp⟩

theorem State.Inv.runsOrReadsUndef_decr {s : State} (hinv : s.Inv) (c : Nibble) : s.RunsOrReadsUndef (.decr c) := by
  refine .inl ?_
  cases hch : s.chan? c with
  | none => exact ⟨_, by simp only [exec, execDecr, hch]; rfl⟩
  | some ch =>
    by_cases hact : ch.phase = .active
    · exact ⟨_, exec_decr_busy hch hact⟩
    · obtain ⟨raw, hraw⟩ := (hinv.channels c ch hch).readable
      exact ⟨_, exec_decode (.inr ⟨c, ch, rfl, hch, hact, hraw⟩)⟩

theorem runsOrReadsUndef_rdstart (s : State) (c : Nibble) : s.RunsOrReadsUndef (.rdstart c) := by
  obtain ⟨u, hu⟩ := runsAsUpdate_rdstart s c
  exact .inl ⟨_, hu s (.refl c s)⟩

/-- Every byte of a run that has a value has one. -/
theorem Memory.read_of_readList {m : Memory} {sp n k : Nat} {bs : List Byte}
    (h : Memory.readList m (spaceAddr sp 0) n = some bs) (hk : k < n) :
    ∃ v, Memory.read m (spaceAddr sp k) = some v := by
  obtain ⟨hlen, hread⟩ := (Memory.readList_eq_some _ _ _ _).mp h
  have hval := hread k hk
  rw [spaceAddr_zero_add, List.getElem?_eq_getElem (hlen ▸ hk)] at hval
  exact ⟨_, hval⟩

/-- DBUF below DLEN was written by the last decode. -/
theorem State.Inv.decoded? {s : State} (hinv : s.Inv) : ∃ de, s.decoded? = some de := by
  rcases hinv.decodeRegs with ⟨-, de, hdec, -⟩ | ⟨-, hdlen, -⟩
  · exact ⟨de, hdec⟩
  · exact ⟨[], by rw [State.decoded?, hdlen]; rfl⟩

/-- MRD below its limit: a byte with no value stands in PBUF or WBUF. -/
theorem State.Inv.runsOrReadsUndef_mrd {s : State} (hinv : s.Inv) (sp : Nibble) (idx : Half) :
    s.RunsOrReadsUndef (.mrd sp idx) := by
  cases hlimit : s.readLimit (spaceOf sp) with
  | none => exact .inl ⟨_, by simp only [exec, execMrd, hlimit]; rfl⟩
  | some n =>
    by_cases hidx : idx.toNat < n
    · cases hv : Memory.read s.mem (spaceAddr sp.toNat idx.toNat) with
      | some v => exact .inl ⟨_, exec_mrd_ok hlimit hidx hv⟩
      | none =>
        refine .inr ⟨exec_mrd_undef hlimit hidx hv, ?_⟩
        rcases spaceOf_cases sp with ⟨rfl, h⟩ | ⟨rfl, h⟩ | ⟨rfl, h⟩ | ⟨-, -, h⟩ | ⟨hlo, h, hsub⟩ <;> rw [h] at hlimit
        · obtain rfl := Option.some.inj hlimit
          exact .inl ⟨rfl, hidx, hv⟩
        · obtain rfl := Option.some.inj hlimit
          exact .inr ⟨rfl, hidx, hv⟩
        · obtain rfl := Option.some.inj hlimit
          obtain ⟨de, hde⟩ := hinv.decoded?
          obtain ⟨v, hv'⟩ := Memory.read_of_readList hde hidx
          exact nomatch hv.symm.trans hv'
        · cases hlimit
        · obtain ⟨ch, hch, rfl⟩ := Option.map_eq_some_iff.mp hlimit
          obtain ⟨raw, hraw⟩ := (hinv.channels _ ch hch).readable
          obtain ⟨v, hv'⟩ := Memory.read_of_readList hraw hidx
          rw [hsub, Nat.add_sub_of_le hlo] at hv'
          exact nomatch hv.symm.trans hv'
    · exact .inl ⟨_, by simp only [exec, execMrd, hlimit, if_pos (Nat.not_lt.mp hidx)]; rfl⟩

theorem runsOrReadsUndef_mwr (s : State) (sp : Nibble) (idx : Half) (b : Byte) : s.RunsOrReadsUndef (.mwr sp idx b) := by
  refine .inl ?_
  cases hlimit : writeLimit (spaceOf sp) with
  | none => exact ⟨_, by simp only [exec, execMwr, hlimit]; rfl⟩
  | some n =>
    by_cases hidx : idx.toNat < n
    · exact ⟨_, exec_mwr_ok b hlimit hidx⟩
    · exact ⟨_, by simp only [exec, execMwr, hlimit, if_pos (Nat.not_lt.mp hidx)]; rfl⟩

theorem State.Inv.chanValue? {s : State} (hinv : s.Inv) {c : Nibble} {ch : Channel} (hch : s.chan? c = some ch)
    (r : ChanReg) : ∃ v, s.chanValue? c ch r = some v := by
  cases r with
  | rxState =>
    obtain ⟨st, hst⟩ := hinv.started? hch
    exact ⟨rxStateValue ch st, by rw [State.chanValue?, hst]; rfl⟩
  | rxCnt | rxAtt | rxHint | rxHintCfg | rxNattCfg => exact ⟨_, rfl⟩

theorem State.Inv.runsOrReadsUndef_rrd {s : State} (hinv : s.Inv) (reg : Byte) (c : Nibble) :
    s.RunsOrReadsUndef (.rrd reg c) := by
  refine .inl ?_
  cases hreg : regOf reg with
  | none => exact ⟨_, by simp only [exec, execRrd, hreg]; rfl⟩
  | some name =>
    obtain rfl := regOf_eq_some.mp hreg
    cases name with
    | global r => exact ⟨_, exec_rrd_global s r c⟩
    | chan r =>
      cases hch : s.chan? c with
      | none => exact ⟨_, by simp only [exec, execRrd, hreg, hch]; rfl⟩
      | some ch =>
        obtain ⟨v, hv⟩ := hinv.chanValue? hch r
        exact ⟨_, exec_rrd_chan hch hv⟩

theorem runsOrReadsUndef_rwr (s : State) (reg : Byte) (v : Half) (c : Nibble) : s.RunsOrReadsUndef (.rwr reg v c) := by
  refine .inl ?_
  cases hreg : regOf reg with
  | none => exact ⟨_, by simp only [exec, execRwr, hreg]; rfl⟩
  | some name =>
    obtain rfl := regOf_eq_some.mp hreg
    cases name with
    | global r =>
      rw [exec_rwr_global]
      cases r with
      | plen | wlen => simp only [writeGlobalReg]; split_ifs <;> exact ⟨_, rfl⟩
      | dlen | dstat | dfield | csumR | fatal | nch | bufcap => exact ⟨_, rfl⟩
    | chan r =>
      rw [exec_rwr_chan, writeChanReg]
      cases s.chan? c with
      | none => exact ⟨_, rfl⟩
      | some ch => cases r <;> exact ⟨_, rfl⟩

theorem State.Inv.runsOrReadsUndef {s : State} (hinv : s.Inv) (i : Instr) : s.RunsOrReadsUndef i := by
  cases i with
  | enc => exact runsOrReadsUndef_enc s
  | decw => exact runsOrReadsUndef_decw s
  | decr c => exact hinv.runsOrReadsUndef_decr c
  | csum => exact runsOrReadsUndef_csum s
  | rdstart c => exact runsOrReadsUndef_rdstart s c
  | rxb c b => exact .inl (hinv.exec_event c (.byte b))
  | rxe c => exact .inl (hinv.exec_event c .empty)
  | mrd sp idx => exact hinv.runsOrReadsUndef_mrd sp idx
  | mwr sp idx b => exact runsOrReadsUndef_mwr s sp idx b
  | rrd reg c => exact hinv.runsOrReadsUndef_rrd reg c
  | rwr reg v c => exact runsOrReadsUndef_rwr s reg v c
  | reset => exact .inl ⟨_, rfl⟩

/-- Everything a step from a state with the invariant can answer. -/
theorem State.Inv.step_cases {s : State} (hinv : s.Inv) :
    (∃ t, step s = .next t) ∨
    (step s = .fault .undefByte ∧ ∃ a rest w i, s.schedule = .grant a :: rest ∧ s.offered a = some w ∧
      decode w = .ok i ∧ ReadsUndef s i) := by
  cases hturn : s.schedule with
  | nil => exact .inl ⟨_, by simp only [step, hturn]; rfl⟩
  | cons turn rest =>
    cases turn with
    | rst => exact .inl ⟨_, by simp only [step, hturn]; rfl⟩
    | grant a =>
      cases hoffer : s.offered a with
      | none => exact .inl ⟨_, by simp only [step, hturn, takeTurn, grantTurn, hoffer]; rfl⟩
      | some w =>
        rw [step_grant hturn hoffer]
        cases hdec : decode w with
        | error e => exact .inl ⟨_, by rw [execWord, hdec]; rfl⟩
        | ok i =>
          rw [execWord_of_decode hdec]
          rcases hinv.runsOrReadsUndef i with ⟨t, ht⟩ | ⟨hfault, hundef⟩
          · exact .inl ⟨_, by rw [ht]; rfl⟩
          · exact .inr ⟨by rw [hfault]; rfl, a, rest, w, i, rfl, hoffer, hdec, hundef⟩

/-- Settles O55. -/
theorem stepNeverStopsButOnUndef : Obligations.StepNeverStopsButOnUndef := by
  unfold Obligations.StepNeverStopsButOnUndef
  intro s hinv
  rcases hinv.step_cases with ⟨t, ht⟩ | ⟨hfault, hundef⟩
  · exact ⟨fun r hr => (nomatch ht.symm.trans hr), fun f hf => (nomatch ht.symm.trans hf)⟩
  · refine ⟨fun r hr => (nomatch hfault.symm.trans hr), fun f hf => ?_⟩
    cases hfault.symm.trans hf
    exact ⟨rfl, hundef⟩

end Sys2Proof.Machine
end

section
/-! FATAL (60_exceptions.md R621, 10_state.md R111): no operation but ENC and the RRD of FATAL reads it, so changing it before such an
operation changes nothing but FATAL after it. -/

namespace Sys2Proof.Machine

/-! ### A state with another FATAL -/

/-- The state with FATAL set to `b`. -/
def State.putFatal (s : State) (b : Bool) : State := { s with fatal := b }

/-- An outcome with FATAL set to `b` in its next state, if it has one. -/
def putFatalOutcome (b : Bool) : Outcome → Outcome
  | .next t => .next (t.putFatal b)
  | .fault f => .fault f
  | .refused r => .refused r

@[simp] theorem State.putFatal_wire? (s : State) (b : Bool) : (s.putFatal b).wire? = s.wire? := rfl
@[simp] theorem State.putFatal_payload? (s : State) (b : Bool) : (s.putFatal b).payload? = s.payload? := rfl
@[simp] theorem State.putFatal_chan? (s : State) (b : Bool) (c : Nibble) : (s.putFatal b).chan? c = s.chan? c := rfl
@[simp] theorem State.putFatal_raw? (s : State) (b : Bool) (c : Nibble) (ch : Channel) :
    (s.putFatal b).raw? c ch = s.raw? c ch := rfl
@[simp] theorem State.putFatal_started? (s : State) (b : Bool) (c : Nibble) (ch : Channel) :
    (s.putFatal b).started? c ch = s.started? c ch := rfl
@[simp] theorem State.putFatal_chanValue? (s : State) (b : Bool) (c : Nibble) (ch : Channel) (r : ChanReg) :
    (s.putFatal b).chanValue? c ch r = s.chanValue? c ch r := rfl
@[simp] theorem State.putFatal_readLimit (s : State) (b : Bool) (sp : Space) :
    (s.putFatal b).readLimit sp = s.readLimit sp := rfl
@[simp] theorem State.putFatal_mem (s : State) (b : Bool) : (s.putFatal b).mem = s.mem := rfl

theorem decodeCommit_putFatal (raw : List Byte) (s : State) (b : Bool) :
    decodeCommit raw (s.putFatal b) = putFatalOutcome b (decodeCommit raw s) := by
  rw [decodeCommit_eq, decodeCommit_eq]; rfl

/-! ### The operations that do not read FATAL -/

/-- Changing FATAL before the operation only changes FATAL after it. -/
def State.IgnoresFatal (s : State) (b : Bool) (i : Instr) : Prop :=
  exec i (s.putFatal b) = putFatalOutcome b (exec i s)

section
variable (s : State) (b : Bool)

theorem ignoresFatal_decw : s.IgnoresFatal b .decw := by
  simp only [State.IgnoresFatal, exec, execDecw, State.putFatal_wire?]
  cases s.wire? with
  | none => rfl
  | some raw => exact decodeCommit_putFatal raw s b

theorem ignoresFatal_decr (c : Nibble) : s.IgnoresFatal b (.decr c) := by
  simp only [State.IgnoresFatal, exec, execDecr, State.putFatal_chan?, State.putFatal_raw?]
  cases s.chan? c with
  | none => rfl
  | some ch =>
    dsimp only
    split_ifs
    · rfl
    · cases s.raw? c ch with
      | none => rfl
      | some raw => exact decodeCommit_putFatal raw s b

theorem ignoresFatal_csum : s.IgnoresFatal b .csum := by
  simp only [State.IgnoresFatal, exec, execCsum, State.putFatal_payload?]
  cases s.payload? <;> rfl

theorem ignoresFatal_rdstart (c : Nibble) : s.IgnoresFatal b (.rdstart c) := by
  simp only [State.IgnoresFatal, exec, execRdstart, State.putFatal_chan?]
  cases s.chan? c with
  | none => rfl
  | some ch => dsimp only; split_ifs <;> rfl

theorem ignoresFatal_rxb (c : Nibble) (x : Byte) : s.IgnoresFatal b (.rxb c x) := by
  simp only [State.IgnoresFatal, exec, execRxb, State.putFatal_chan?, State.putFatal_started?, rxAccept_eq]
  cases s.chan? c with
  | none => rfl
  | some ch =>
    dsimp only
    split_ifs
    · rfl
    · cases s.started? c ch <;> rfl

theorem ignoresFatal_rxe (c : Nibble) : s.IgnoresFatal b (.rxe c) := by
  simp only [State.IgnoresFatal, exec, execRxe, State.putFatal_chan?]
  cases s.chan? c with
  | none => rfl
  | some ch => dsimp only; split_ifs <;> rfl

theorem ignoresFatal_mrd (sp : Nibble) (idx : Half) : s.IgnoresFatal b (.mrd sp idx) := by
  simp only [State.IgnoresFatal, exec, execMrd, State.putFatal_readLimit, State.putFatal_mem]
  cases s.readLimit (spaceOf sp) with
  | none => rfl
  | some n =>
    dsimp only
    split_ifs
    · rfl
    · cases Memory.read s.mem (spaceAddr sp.toNat idx.toNat) <;> rfl

theorem ignoresFatal_mwr (sp : Nibble) (idx : Half) (x : Byte) : s.IgnoresFatal b (.mwr sp idx x) := by
  simp only [State.IgnoresFatal, exec, execMwr, State.putFatal_mem]
  cases writeLimit (spaceOf sp) with
  | none => rfl
  | some n => dsimp only; split_ifs <;> rfl

theorem ignoresFatal_rrd (reg : Byte) (c : Nibble) (hreg : reg ≠ 0x06) : s.IgnoresFatal b (.rrd reg c) := by
  simp only [State.IgnoresFatal, exec, execRrd]
  cases hr : regOf reg with
  | none => rfl
  | some name =>
    obtain rfl := regOf_eq_some.mp hr
    cases name with
    | global r =>
      cases r with
      | fatal => exact absurd rfl hreg
      | plen | wlen | dlen | dstat | dfield | csumR | nch | bufcap => rfl
    | chan r =>
      simp only [State.putFatal_chan?, State.putFatal_chanValue?]
      cases s.chan? c with
      | none => rfl
      | some ch => dsimp only; cases s.chanValue? c ch r <;> rfl

theorem ignoresFatal_rwr (reg : Byte) (v : Half) (c : Nibble) : s.IgnoresFatal b (.rwr reg v c) := by
  simp only [State.IgnoresFatal, exec, execRwr]
  cases regOf reg with
  | none => rfl
  | some name =>
    cases name with
    | global r =>
      cases r with
      | plen | wlen => simp only [writeGlobalReg]; split_ifs <;> rfl
      | dlen | dstat | dfield | csumR | fatal | nch | bufcap => rfl
    | chan r =>
      simp only [writeChanReg, State.putFatal_chan?]
      cases s.chan? c with
      | none => rfl
      | some ch => cases r <;> rfl

theorem ignoresFatal {i : Instr} (henc : i ≠ .enc) (hreset : i ≠ .reset) (hrrd : ∀ c, i ≠ .rrd 0x06 c) :
    s.IgnoresFatal b i := by
  cases i with
  | enc => exact absurd rfl henc
  | decw => exact ignoresFatal_decw s b
  | decr c => exact ignoresFatal_decr s b c
  | csum => exact ignoresFatal_csum s b
  | rdstart c => exact ignoresFatal_rdstart s b c
  | rxb c x => exact ignoresFatal_rxb s b c x
  | rxe c => exact ignoresFatal_rxe s b c
  | mrd sp idx => exact ignoresFatal_mrd s b sp idx
  | mwr sp idx x => exact ignoresFatal_mwr s b sp idx x
  | rrd reg c => exact ignoresFatal_rrd s b reg c fun h => hrrd c (h ▸ rfl)
  | rwr reg v c => exact ignoresFatal_rwr s b reg v c
  | reset => exact absurd rfl hreset

end

/-- Settles O60. -/
theorem onlyEncReadsFatal : Obligations.OnlyEncReadsFatal := by
  unfold Obligations.OnlyEncReadsFatal
  refine ⟨fun i s b henc hreset hrrd => ?_, fun _ _ => rfl, fun i s t hhigh hreset hexec => ?_⟩
  · have h : exec i (s.putFatal b) = putFatalOutcome b (exec i s) := ignoresFatal s b henc hreset hrrd
    exact ⟨fun t ht => h.trans (by rw [ht]; rfl), fun f hf => h.trans (by rw [hf]; rfl)⟩
  · rcases (exec_effect hexec).fatal_writers with hsame | ⟨hi, -⟩
    · exact hsame.trans hhigh
    · exact absurd hi hreset

end Sys2Proof.Machine
end

section
/-! The pseudo-instructions (30_encoding.md R333): the runs that LOADP, LOADW and RDCFG expand to, and the offers that RXS and RXEN
make on a channel's port. -/

namespace Sys2Proof.Machine

/-! ### LOADP and LOADW -/

/-- A run of MWR stores its bytes one after the other. -/
theorem execAll_storeBytes {sp : Nibble} {n : Nat} (hlimit : writeLimit (spaceOf sp) = some n) (hn : n ≤ 65536)
    (bs : List Byte) (i : Nat) (s : State) (hroom : i + bs.length ≤ n) :
    ∃ t, execAll (storeBytes sp i bs) s = .next t ∧ t.mem = Memory.writeList s.mem (spaceAddr sp.toNat i) bs := by
  induction bs generalizing i s with
  | nil => exact ⟨s, rfl, rfl⟩
  | cons b bs ih =>
    rw [List.length_cons] at hroom
    have hidx : (BitVec.ofNat 16 i).toNat = i := Nat.mod_eq_of_lt (by omega)
    have hexec := exec_mwr_ok (s := s) (idx := BitVec.ofNat 16 i) b hlimit (by omega)
    rw [hidx] at hexec
    obtain ⟨t, hrun, hmem⟩ := ih (i + 1)
      ((s.putMem (Memory.write s.mem (spaceAddr sp.toNat i) b)).putResult (resultWord .ok 0)) (by omega)
    refine ⟨t, execAll_cons_next.mpr ⟨_, hexec, hrun⟩, ?_⟩
    rw [Memory.writeList, show spaceAddr sp.toNat i + 1 = spaceAddr sp.toNat (i + 1) from Nat.add_assoc _ _ _]
    exact hmem

theorem execAll_loadp (s : State) {bs : List Byte} (hmax : bs.length ≤ 255) :
    ∃ t, execAll (expandLoadp bs) s = .next t ∧ t.payload? = some bs ∧ t.plen.toNat = bs.length := by
  obtain ⟨u, hrun, hmem⟩ := execAll_storeBytes (sp := 0) (n := Config.pbufCap) rfl (by simp [Config.pbufCap]) bs 0 s
    (by rw [Nat.zero_add]; exact hmax)
  have hval : (BitVec.ofNat 16 bs.length).toNat = bs.length := Nat.mod_eq_of_lt (by omega)
  have hplen : ((BitVec.ofNat 16 bs.length).setWidth 8).toNat = bs.length := by
    rw [BitVec.toNat_setWidth, hval]; omega
  refine ⟨_, execAll_append_next.mpr ⟨u, hrun, execAll_cons_next.mpr ⟨_, exec_rwr_plen 0 (hval.trans_le hmax), rfl⟩⟩, ?_, hplen⟩
  rw [State.payload?, State.putResult_plen, hplen, State.putResult_mem, hmem]
  exact Memory.readList_writeList s.mem (pbufAddr 0) bs

theorem execAll_loadw (s : State) {bs : List Byte} (hmax : bs.length ≤ 515) :
    ∃ t, execAll (expandLoadw bs) s = .next t ∧ t.wire? = some bs ∧ t.wlen.toNat = bs.length := by
  obtain ⟨u, hrun, hmem⟩ := execAll_storeBytes (sp := 1) (n := Config.wbufCap) rfl (by simp [Config.wbufCap]) bs 0 s
    (by rw [Nat.zero_add]; exact hmax)
  have hval : (BitVec.ofNat 16 bs.length).toNat = bs.length := Nat.mod_eq_of_lt (by omega)
  have hwlen : ((BitVec.ofNat 16 bs.length).setWidth 10).toNat = bs.length := by
    rw [BitVec.toNat_setWidth, hval]; omega
  refine ⟨_, execAll_append_next.mpr ⟨u, hrun, execAll_cons_next.mpr ⟨_, exec_rwr_wlen 0 (hval.trans_le hmax), rfl⟩⟩, ?_, hwlen⟩
  rw [State.wire?, State.putResult_wlen, hwlen, State.putResult_mem, hmem]
  exact Memory.readList_writeList s.mem (wbufAddr 0) bs

/-! ### RDCFG -/

theorem execAll_rdcfg {s : State} {c : Nibble} {ch : Channel} (hint natt : Half) (hch : s.chan? c = some ch) :
    ∃ t, execAll (expandRdcfg c hint natt) s = .next t ∧
      t.chan? c = some { ch with hintCfg := hint, nattCfg := natt } := by
  have hlt := State.chan?_lt hch
  have hmid := State.chan?_putChan_same { ch with hintCfg := hint } hlt
  refine ⟨_, execAll_cons_next.mpr ⟨_, exec_rwr_hintCfg hint hch, execAll_cons_next.mpr ⟨_,
    exec_rwr_nattCfg natt hmid, rfl⟩⟩, State.chan?_putChan_same _ ?_⟩
  simpa using hlt

/-! ### RXS and RXEN -/

/-- A line whose offers are events on channel `c`'s port adds them to its transport and grants it once for each. -/
theorem State.offerLine_port {s : State} {c : Nibble} {es new : List RxEvent} (hes : s.transports[c.toNat]? = some es)
    {l : AsmLine} (hl : l.offers = new.map (Offer.port c)) :
    s.offerLine l =
      { s with
        transports := s.transports.set c.toNat (es ++ new)
        schedule := s.schedule ++ List.replicate new.length (.grant (.transport c)) } := by
  have htrans : s.transports.modify c.toNat (fun held => held ++ new) = s.transports.set c.toNat (es ++ new) := by
    rw [List.modify_eq_set_getElem?, hes]; rfl
  have hgrants : (new.map (Offer.port c)).map (fun o => Turn.grant o.agent) =
      List.replicate new.length (.grant (.transport c)) := by
    simp [List.eq_replicate_iff]
  rw [State.offerLine, hl, foldl_offer_port, hgrants, htrans]

theorem AsmLine.words_eq_offers (l : AsmLine) : l.words = l.offers.map Offer.word := by
  cases l with
  | op | rawWord => rfl
  | loadp | loadw | rdcfg => simp only [AsmLine.words, AsmLine.offers, List.map_map]; rfl
  | rxs => simp only [AsmLine.words, AsmLine.offers, expandRxs, List.map_map]; rfl
  | rxen => simp only [AsmLine.words, AsmLine.offers, expandRxen, List.map_replicate]; rfl

/-- Settles O51. -/
theorem loadPseudoInstructionsLoad : Obligations.LoadPseudoInstructionsLoad := by
  unfold Obligations.LoadPseudoInstructionsLoad
  refine ⟨fun s _ _ hmax => execAll_loadp s hmax, fun s _ _ hmax => execAll_loadw s hmax,
    fun s c ch h n hch => execAll_rdcfg h n hch, fun s c es hes => ⟨fun bs => ?_, fun k => ?_⟩, AsmLine.words_eq_offers⟩
  · rw [State.offerLine_port hes (new := bs.map .byte) (by rw [List.map_map]; rfl), List.length_map]
  · rw [State.offerLine_port hes (new := List.replicate k .empty) (by rw [List.map_replicate]; rfl), List.length_replicate]

end Sys2Proof.Machine
end
